-- ==== Sys2Proof/Word.lean ====
section
/-! DEFINITION. The word types of JSB-CORE (00_scope.md R7, R8). -/

namespace Sys2Proof

/-- A storage cell, a payload word, a 16-bit code unit: `U16`, CELL_W = 16 (R7, R20, R190). -/
abbrev Cell16 := BitVec 16

/-- A cursor, HO or TF: HO_W = TF_W = 4 (R7, R21, R22). -/
abbrev Cursor := BitVec 4

/-- The scalar operand ARG and the scalar result VAL: ARG_W = 64 (R80, R86). -/
abbrev Scalar := BitVec 64

/-- The header word HDR of a command, and RHDR of a response (R81, R87). -/
abbrev Header := BitVec 32

end Sys2Proof
end

