-- ==== Sys2Proof/Config.lean ====
section
/-! DEFINITION. The parameters of a block (00_scope.md R7; 92_eei_decisions.md section 8) and the one free value of the model. -/

namespace Sys2Proof

/-- What is fixed for the life of one block and differs between blocks (R7, R33): CAP alone. A block's configuration stands
in its State, so that a statement about every state covers every CAP; no step writes it (log 3, DESIGN CHOICE). -/
structure Config where
  /-- CAP, the greatest number of cells the store holds; `none` is the spec's `inf` (R7, R32, D6). -/
  cap : Option Nat
deriving DecidableEq, Repr

namespace Config

/-- CAP is "a natural number >= 1 or the symbol `inf`" (R7). -/
abbrev Valid (c : Config) : Prop := c.cap ≠ some 0

/-- Whether a store of `n` cells is within CAP (R32). -/
def admits (c : Config) (n : Nat) : Bool :=
  match c.cap with
  | none => true
  | some k => decide (n ≤ k)

/-- PAY_MAX, the greatest number of words in a payload (R7, R80). -/
def payMax : Nat := 65535

/-- A5_COMMA, whether U+002C is a member of alphabet 5 in the classifier: fixed false (R7, D22, conflict C1; log 6). -/
def a5Comma : Bool := false

/-- FREE VALUE: the VAL of a SIZE whose size is 2^64 or more. R120 says that the size is unbounded with CAP = inf and that
VAL does not saturate, not what the 64-bit field then holds. A function of the size, since the block is deterministic (R293)
(log 7, DESIGN CHOICE). -/
opaque sizeBeyondField (size : Nat) : Scalar

end Config

end Sys2Proof
end

