-- ==== Sys2Proof/Syntax.lean ====
section
/-! DEFINITION. What the host presents: the command triple, and the 23 commands it selects (30_encoding.md R80 to R85). -/

namespace Sys2Proof

/-- A command as the host presents it: the triple (HDR, ARG, PAY) of R80. -/
structure Command where
  /-- The 32-bit header word (R81). -/
  hdr : Header
  /-- The 64-bit scalar operand. -/
  arg : Scalar
  /-- The payload, 0 to 65535 words of 16 bits. -/
  pay : List Cell16
deriving DecidableEq, Repr

/-- What arrives at the block between two steps: a command at the command port (R80), or the reset input (R280). -/
inductive PortEvent where
  | command (c : Command)
  | reset
deriving DecidableEq, Repr

/-- The 23 opcodes of R85, by mnemonic. -/
inductive Opcode where
  | size | wbits | rbits | clr
  | wflag | rflag | wu4 | ru4 | wu8 | ru8 | wu16 | ru16 | wu32 | ru32 | wflt | rflt
  | wint | rint
  | wstr | rstr
  | getst | setmode | clrst
deriving DecidableEq, Repr

/-- A decoded command with the operands its format uses (R82): a count CNT, the scalar ARG as presented (each meaning reads
its bits by R83), a payload PAY, the flag FOLD. One constructor per row of spec/opcode_table.json. -/
inductive Instr where
  | size
  | wbits (cnt : BitVec 20) (pay : List Cell16)
  | rbits (cnt : BitVec 20)
  | clr
  | wflag (arg : Scalar)
  | rflag
  | wu4 (arg : Scalar)
  | ru4
  | wu8 (arg : Scalar)
  | ru8
  | wu16 (arg : Scalar)
  | ru16
  | wu32 (arg : Scalar)
  | ru32
  | wflt (arg : Scalar)
  | rflt
  | wint (arg : Scalar)
  | rint
  | wstr (fold : Bool) (pay : List Cell16)
  | rstr
  | getst
  | setmode (arg : Scalar)
  | clrst (arg : Scalar)
deriving DecidableEq, Repr

/-- The opcode of a command. -/
def Instr.opcode : Instr → Opcode
  | .size => .size
  | .wbits _ _ => .wbits
  | .rbits _ => .rbits
  | .clr => .clr
  | .wflag _ => .wflag
  | .rflag => .rflag
  | .wu4 _ => .wu4
  | .ru4 => .ru4
  | .wu8 _ => .wu8
  | .ru8 => .ru8
  | .wu16 _ => .wu16
  | .ru16 => .ru16
  | .wu32 _ => .wu32
  | .ru32 => .ru32
  | .wflt _ => .wflt
  | .rflt => .rflt
  | .wint _ => .wint
  | .rint => .rint
  | .wstr _ _ => .wstr
  | .rstr => .rstr
  | .getst => .getst
  | .setmode _ => .setmode
  | .clrst _ => .clrst

end Sys2Proof
end

