-- ==== Sys2Proof/WellFormed.lean ====
section
/-! DEFINITION. The one check on a command that its type does not make: the length of a payload (R80, R190). Every other
bound of the format (CNT of 20 bits, ARG of 64, FOLD of one) is in the types. -/

namespace Sys2Proof

/-- A payload the port can carry: "a list of 0 to 65535 (`PAY_MAX`) words" (R80). -/
def payloadFits (pay : List Cell16) : Bool := decide (pay.length ≤ Config.payMax)

/-- The check on a decoded command. -/
def Instr.wellFormed : Instr → Bool
  | .wbits _ pay => payloadFits pay
  | .wstr _ pay => payloadFits pay
  | .size | .rbits _ | .clr | .wflag _ | .rflag | .wu4 _ | .ru4 | .wu8 _ | .ru8 | .wu16 _ | .ru16 | .wu32 _ | .ru32
  | .wflt _ | .rflt | .wint _ | .rint | .rstr | .getst | .setmode _ | .clrst _ => true

/-- The check on a command as presented. Every command carries a payload, used or not (R80). -/
def Command.wellFormed (c : Command) : Bool := payloadFits c.pay

end Sys2Proof
end

