-- ==== Sys2Proof/Decode.lean ====
section
/-! DEFINITION. The opcode map, the decoder of a command and the encoder (30_encoding.md R81 to R85, R89). -/

namespace Sys2Proof

/-- The OP value of each command (R85). -/
def Opcode.code : Opcode → BitVec 8
  | .size => 0x01
  | .wbits => 0x02
  | .rbits => 0x03
  | .clr => 0x04
  | .wflag => 0x10
  | .rflag => 0x11
  | .wu4 => 0x12
  | .ru4 => 0x13
  | .wu8 => 0x14
  | .ru8 => 0x15
  | .wu16 => 0x16
  | .ru16 => 0x17
  | .wu32 => 0x18
  | .ru32 => 0x19
  | .wflt => 0x1A
  | .rflt => 0x1B
  | .wint => 0x20
  | .rint => 0x21
  | .wstr => 0x30
  | .rstr => 0x31
  | .getst => 0x40
  | .setmode => 0x41
  | .clrst => 0x42

/-- The 23 commands in the order of R85. -/
def Opcode.all : List Opcode :=
  [.size, .wbits, .rbits, .clr] ++
  [.wflag, .rflag, .wu4, .ru4, .wu8, .ru8, .wu16, .ru16, .wu32, .ru32, .wflt, .rflt] ++
  [.wint, .rint] ++ [.wstr, .rstr] ++ [.getst, .setmode, .clrst]

/-- The command whose OP value is `b`; none for a reserved opcode (R90). -/
def Opcode.ofCode (b : BitVec 8) : Option Opcode := Opcode.all.find? (fun o => o.code == b)

/-- The `match` column of R85. -/
def Opcode.matchWord : Opcode → Header
  | .size => 0x01000000
  | .wbits => 0x02000000
  | .rbits => 0x03000000
  | .clr => 0x04000000
  | .wflag => 0x10000000
  | .rflag => 0x11000000
  | .wu4 => 0x12000000
  | .ru4 => 0x13000000
  | .wu8 => 0x14000000
  | .ru8 => 0x15000000
  | .wu16 => 0x16000000
  | .ru16 => 0x17000000
  | .wu32 => 0x18000000
  | .ru32 => 0x19000000
  | .wflt => 0x1A000000
  | .rflt => 0x1B000000
  | .wint => 0x20000000
  | .rint => 0x21000000
  | .wstr => 0x30000000
  | .rstr => 0x31000000
  | .getst => 0x40000000
  | .setmode => 0x41000000
  | .clrst => 0x42000000

/-- The `mask` column of R85. -/
def Opcode.maskWord : Opcode → Header
  | .wbits | .rbits => 0xFFF00000
  | .wstr => 0xFF7FFFFF
  | .size | .clr | .wflag | .rflag | .wu4 | .ru4 | .wu8 | .ru8 | .wu16 | .ru16 | .wu32 | .ru32 | .wflt | .rflt
  | .wint | .rint | .rstr | .getst | .setmode | .clrst => 0xFFFFFFFF

/-- "a header h selects the row when `h & mask = match`" (R85). -/
def Opcode.selectedBy (o : Opcode) (h : Header) : Bool := h &&& o.maskWord == o.matchWord

/-- The fields of a header word (R81). -/
def Header.op (h : Header) : BitVec 8 := h.extractLsb' 24 8

/-- FOLD, bit 23 (R81). -/
def Header.fold (h : Header) : Bool := h.getLsbD 23

/-- RSV, bits 22:20 (R81). -/
def Header.rsv (h : Header) : BitVec 3 := h.extractLsb' 20 3

/-- CNT, bits 19:0 (R81). -/
def Header.cnt (h : Header) : BitVec 20 := h.extractLsb' 0 20

/-- Why the decoder gives no command: the four conditions (a) to (d) of R89, and a payload the port cannot carry (R80).
When several hold the first in this order is named; the block's answer is the same for all of (a) to (d) (log 14). -/
inductive DecodeError where
  /-- R80, U17: more than 65535 payload words; no such command exists. -/
  | payloadTooLong
  /-- R89 (a): `op` is not one of the 23 opcodes. -/
  | reservedOpcode
  /-- R89 (b): `rsv != 0`. -/
  | reservedBits
  /-- R89 (c): `fold = 1` and the command is not WSTR. -/
  | foldOutsideWstr
  /-- R89 (d): `cnt != 0` and the command is neither WBITS nor RBITS. -/
  | countOutsideBits
deriving DecidableEq, Repr

/-- The command of an opcode with the operands its format uses (R82). -/
def Opcode.instr (o : Opcode) (c : Command) : Instr :=
  match o with
  | .size => .size
  | .wbits => .wbits (Header.cnt c.hdr) c.pay
  | .rbits => .rbits (Header.cnt c.hdr)
  | .clr => .clr
  | .wflag => .wflag c.arg
  | .rflag => .rflag
  | .wu4 => .wu4 c.arg
  | .ru4 => .ru4
  | .wu8 => .wu8 c.arg
  | .ru8 => .ru8
  | .wu16 => .wu16 c.arg
  | .ru16 => .ru16
  | .wu32 => .wu32 c.arg
  | .ru32 => .ru32
  | .wflt => .wflt c.arg
  | .rflt => .rflt
  | .wint => .wint c.arg
  | .rint => .rint
  | .wstr => .wstr (Header.fold c.hdr) c.pay
  | .rstr => .rstr
  | .getst => .getst
  | .setmode => .setmode c.arg
  | .clrst => .clrst c.arg

/-- Decoding a header (R89): the opcode of a legal header, or the reason it is illegal. -/
def decodeHeader (h : Header) : Except DecodeError Opcode :=
  match Opcode.ofCode (Header.op h) with
  | none => .error .reservedOpcode
  | some o =>
    if Header.rsv h ≠ 0 then .error .reservedBits
    else if Header.fold h = true ∧ o ≠ .wstr then .error .foldOutsideWstr
    else if Header.cnt h ≠ 0 ∧ o ≠ .wbits ∧ o ≠ .rbits then .error .countOutsideBits
    else .ok o

/-- Decoding a command. Total: every command is one of the 23, or illegal, or beyond what the port can carry. -/
def decode (c : Command) : Except DecodeError Instr :=
  if c.wellFormed then
    match decodeHeader c.hdr with
    | .ok o => .ok (o.instr c)
    | .error e => .error e
  else .error .payloadTooLong

/-- `HDR = (OP << 24) | (FOLD << 23) | (RSV << 20) | CNT` with RSV = 0 (R81). -/
def headerWord (o : Opcode) (fold : Bool) (cnt : BitVec 20) : Header :=
  (o.code.setWidth 32 <<< 24) ||| ((BitVec.ofBool fold).setWidth 32 <<< 23) ||| cnt.setWidth 32

/-- The command of an instruction, in the spelling of R91: an operand the format does not use is zero or empty (log 12). -/
def encode : Instr → Command
  | .size => ⟨headerWord .size false 0, 0, []⟩
  | .wbits cnt pay => ⟨headerWord .wbits false cnt, 0, pay⟩
  | .rbits cnt => ⟨headerWord .rbits false cnt, 0, []⟩
  | .clr => ⟨headerWord .clr false 0, 0, []⟩
  | .wflag arg => ⟨headerWord .wflag false 0, arg, []⟩
  | .rflag => ⟨headerWord .rflag false 0, 0, []⟩
  | .wu4 arg => ⟨headerWord .wu4 false 0, arg, []⟩
  | .ru4 => ⟨headerWord .ru4 false 0, 0, []⟩
  | .wu8 arg => ⟨headerWord .wu8 false 0, arg, []⟩
  | .ru8 => ⟨headerWord .ru8 false 0, 0, []⟩
  | .wu16 arg => ⟨headerWord .wu16 false 0, arg, []⟩
  | .ru16 => ⟨headerWord .ru16 false 0, 0, []⟩
  | .wu32 arg => ⟨headerWord .wu32 false 0, arg, []⟩
  | .ru32 => ⟨headerWord .ru32 false 0, 0, []⟩
  | .wflt arg => ⟨headerWord .wflt false 0, arg, []⟩
  | .rflt => ⟨headerWord .rflt false 0, 0, []⟩
  | .wint arg => ⟨headerWord .wint false 0, arg, []⟩
  | .rint => ⟨headerWord .rint false 0, 0, []⟩
  | .wstr fold pay => ⟨headerWord .wstr fold 0, 0, pay⟩
  | .rstr => ⟨headerWord .rstr false 0, 0, []⟩
  | .getst => ⟨headerWord .getst false 0, 0, []⟩
  | .setmode arg => ⟨headerWord .setmode false 0, arg, []⟩
  | .clrst arg => ⟨headerWord .clrst false 0, arg, []⟩

/-- The command whose header has the bits of `w` and whose operand words are zeros (ARG 0, PAY empty). The header is 32 bits
and "is never followed by a second header word" (R80), so there is none for a table row of more bits (log 17). -/
def tableCommand (nbits w : Nat) : Command := ⟨BitVec.ofNat 32 (w % 2 ^ nbits), 0, []⟩

/-- What the decoder reads from the table's word `w` of `nbits` bits. -/
def decodeTableWord (nbits w : Nat) : Option Instr :=
  if nbits ≤ 32 then
    match decode (tableCommand nbits w) with
    | .ok i => some i
    | .error _ => none
  else none

end Sys2Proof
end

