-- ==== Sys2Proof/Machine/Bits.lean ====
section
/-! DEFINITION. Bits of a word and bit sequences (00_scope.md R9, R10). -/

namespace Sys2Proof.Machine

/-- `hi16(k) = ((2^k - 1) << (16 - k))` for `0 <= k <= 16`: the mask of the k high-order bits of a word (R9). -/
def hi16 (k : Nat) : Cell16 := BitVec.ofNat 16 ((2 ^ k - 1) <<< (16 - k))

/-- `ceil16(n) = (n + 15) div 16` (R8). -/
def ceil16 (n : Nat) : Nat := (n + 15) / 16

/-- `msb(v, w)`: the w bits of v, most significant first (R10). -/
def msb (v w : Nat) : List Bool := (List.range w).map (fun i => v.testBit (w - 1 - i))

/-- `val(b)`: the number whose binary digits, most significant first, are b; `val([]) = 0` (R10). -/
def val (b : List Bool) : Nat := b.foldl (fun acc x => 2 * acc + x.toNat) 0

/-- The 16 bits of one word, bit 15 first (R9, R52). -/
def wordBits (w : Cell16) : List Bool := msb w.toNat 16

/-- `unwords(ws)`: the bits of the words in order, bit 15 of each first (R10). -/
def unwords (ws : List Cell16) : List Bool := ws.flatMap wordBits

/-- The word that holds the first 16 bits of b, the first in bit 15, padded with zeros at the low-order end. -/
def packWord (b : List Bool) : Cell16 := BitVec.ofNat 16 (val (b.take 16) * 2 ^ (16 - b.length))

/-- `words(b)`: b packed into `ceil16(len(b))` words, the last padded with zeros at the low-order end (R10). -/
def words (b : List Bool) : List Cell16 :=
  (List.range (ceil16 b.length)).map (fun i => packWord (b.drop (16 * i)))

end Sys2Proof.Machine
end

