-- ==== Sys2Proof/Machine/State.lean ====
section
/-! DEFINITION. The state of one block, the responses it gives, the reasons a step can stop, and the state after reset
(10_state.md; 30_encoding.md R86, R88). -/

namespace Sys2Proof.Machine

/-- A stream record `(cells, HO, TF)` (40_engine.md): the block's memory and its two cursors. -/
structure Stream where
  /-- The cell store, head cell first, tail cell last (R20). -/
  cells : List Cell16
  /-- HO, the bits already consumed from the first cell (R21). -/
  ho : Cursor
  /-- TF, the bits used in the last cell; 0 means no cell or a full last cell (R22, R23). -/
  tf : Cursor
deriving DecidableEq, Repr

/-- The stream "created empty (no cells, offsets zero)" (R34, R123). -/
def Stream.empty : Stream := { cells := [], ho := 0, tf := 0 }

/-- The completion codes of R88; "a model's CODE type has exactly six values" (U20). -/
inductive Code where
  | ok | underrun | overrun | badnum | overflow | illegal
deriving DecidableEq, Repr

/-- The response `(CODE, NB, VAL, PAY)` of one command (R86). -/
structure Response where
  code : Code
  nb : BitVec 20
  val : Scalar
  pay : List Cell16
deriving DecidableEq, Repr

/-- Everything one block holds (R20 to R22, R29, R30), its configuration, and the two ports.
CTRL is the one bit STRICT, its other 63 being hardwired 0 (R29); STATUS is its five flags, the other 59 being hardwired 0
(R30). The block has no other register, no program counter and no mode besides STRICT (R35, R36, R258). -/
structure State where
  /-- `Σ = (cells, HO, TF)`, the stream registers. -/
  stream : Stream
  /-- CTRL.STRICT (R29). -/
  strict : Bool
  /-- STATUS[4:0]: bit 0 UNDERRUN, 1 OVERRUN, 2 BADNUM, 3 OVERFLOW, 4 ILLEGAL (R30). -/
  status : BitVec 5
  /-- The block's configuration; no step writes it (R33; log 3). -/
  config : Config
  /-- What the host and the environment will present, the next event first (R6, R80, R280; log 1). -/
  pending : List PortEvent
  /-- The responses the block has given, oldest first (R86, R256, R294; log 2). -/
  responses : List Response
deriving DecidableEq, Repr

/-- Why the machine stops with a fault. -/
inductive Fault where
  /-- Raised by the completion procedure of every command, when the state breaks W1 to W6 of R25 or CAP is 0: no block is ever
  in such a state, and the spec says nothing of it. Safe: the model stops where there is no hardware (log 8). -/
  | illFormedState
deriving DecidableEq, Repr

/-- Why the machine gives no meaning to what is presented. -/
inductive Refusal where
  /-- Raised by an arm of exec for an instruction that has no meaning yet. Safe. -/
  | notModelled (mnemonic : String)
  /-- Raised by step for a command with more than 65535 payload words, which "cannot be expressed" (R80; U17: refuse). Safe
  (log 9). -/
  | payloadTooLong
deriving DecidableEq, Repr

/-- The block of a given configuration right after reset (R34, R280), with idle ports. -/
def State.resetWith (c : Config) : State :=
  { stream := Stream.empty, strict := false, status := 0, config := c, pending := [], responses := [] }

/-- The machine right after reset. CAP is `inf` (log 3, DESIGN CHOICE); every register has the value R34 gives. -/
def State.reset : State := State.resetWith { cap := none }

end Sys2Proof.Machine
end

