-- ==== Sys2Proof/Machine/Flags.lean ====
section
/-! DEFINITION. The anomalies, the STATUS flags that record them, and which of them answers with an error code
(10_state.md R30; 60_exceptions.md R251 to R254). -/

namespace Sys2Proof.Machine

/-- A set of anomalies, as the STATUS bits that record them: bit 0 UNDERRUN, 1 OVERRUN, 2 BADNUM, 3 OVERFLOW, 4 ILLEGAL. -/
abbrev Anomalies := BitVec 5

namespace Anomaly

/-- The over-read clamp (R251). -/
def underrun : Anomalies := 0b00001

/-- The over-write clamp (R251). -/
def overrun : Anomalies := 0b00010

/-- The fallback text of RINT is not a decimal integer in range (R251). -/
def badnum : Anomalies := 0b00100

/-- A write needed more than CAP cells (R251). -/
def overflow : Anomalies := 0b01000

/-- The header does not decode (R251). -/
def illegal : Anomalies := 0b10000

end Anomaly

/-- Whether anomaly X is in the set A. -/
def noted (x a : Anomalies) : Bool := x &&& a != 0

/-- `note X` when `cond` holds (R11): noting an anomaly again has no further effect (R251). -/
def addNote (cond : Bool) (x a : Anomalies) : Anomalies := if cond then a ||| x else a

/-- "for each X in A: STATUS.X <- 1" (R253): the flags are sticky. -/
def stickyFlags (status a : Anomalies) : Anomalies := status ||| a

/-- `STATUS <- STATUS and not mask` (R232). -/
def clearFlags (status mask : Anomalies) : Anomalies := status &&& ~~~mask

/-- The error code a finished command answers with, none for OK (R253, R254): OVERFLOW in both modes; in strict mode the
first of UNDERRUN, OVERRUN, BADNUM that was noted. -/
def errorCode (strict : Bool) (a : Anomalies) : Option Code :=
  if noted Anomaly.overflow a then some .overflow
  else if strict && noted Anomaly.underrun a then some .underrun
  else if strict && noted Anomaly.overrun a then some .overrun
  else if strict && noted Anomaly.badnum a then some .badnum
  else none

end Sys2Proof.Machine
end

