-- ==== Sys2Proof/Machine/Text.lean ====
section
/-! DEFINITION. The six alphabets, the classifier, the symbol maps, case folding (43_text.md R190 to R199), and the decimal
text of the compact integer codec (42_compact_int.md R174, R175). A character is one 16-bit code unit (R190). -/

namespace Sys2Proof.Machine

/-- The six alphabets, by the id that is the value of their discriminator (R191). -/
inductive Alphabet where
  | a0 | a1 | a2 | a3 | a4 | a5
deriving DecidableEq, Repr

/-- The id, 0 to 5 (R191). -/
def Alphabet.id : Alphabet → Nat
  | .a0 => 0
  | .a1 => 1
  | .a2 => 2
  | .a3 => 3
  | .a4 => 4
  | .a5 => 5

/-- The number of bits per character (R191, R198). -/
def Alphabet.width : Alphabet → Nat
  | .a0 => 16
  | .a1 => 8
  | .a2 => 7
  | .a3 => 6
  | .a4 => 5
  | .a5 => 4

/-- The alphabet the reader takes for a discriminator: "any unrecognized value" reads as alphabet 0 (R198). -/
def Alphabet.ofDiscriminator : Nat → Alphabet
  | 1 => .a1
  | 2 => .a2
  | 3 => .a3
  | 4 => .a4
  | 5 => .a5
  | _ => .a0

/-- `lo <= c <= hi` on the value of a code unit. -/
def inRange (lo hi : Nat) (c : Cell16) : Bool := decide (lo ≤ c.toNat) && decide (c.toNat ≤ hi)

/-- `0` to `9`. -/
def isDigit (c : Cell16) : Bool := inRange 0x30 0x39 c

/-- `A` to `Z`. -/
def isUpper (c : Cell16) : Bool := inRange 0x41 0x5A c

/-- `a` to `z`. -/
def isLower (c : Cell16) : Bool := inRange 0x61 0x7A c

/-- `in_a(c)`: whether code unit c belongs to alphabet a (R192; the comma by A5_COMMA, conflict C1; no slash, conflict C2). -/
def Alphabet.has (a : Alphabet) (c : Cell16) : Bool :=
  match a with
  | .a5 => isDigit c || [0x2B, 0x2D, 0x2E, 0x20].contains c || (Config.a5Comma && c == 0x2C)
  | .a4 => isLower c || [0x20, 0x7C, 0x27, 0x2D, 0x2E, 0x2C].contains c
  | .a3 => isDigit c || isUpper c || isLower c || [0x2C, 0x20].contains c
  | .a2 => decide (c.toNat ≤ 0x7F)
  | .a1 => decide (c.toNat ≤ 0xFF)
  | .a0 => true

/-- `classify(u)`: the narrowest alphabet that covers every character, 5 for the empty string (R193). -/
def classify (u : List Cell16) : Alphabet :=
  if u.all Alphabet.a5.has then .a5
  else if u.all Alphabet.a4.has then .a4
  else if u.all Alphabet.a3.has then .a3
  else if u.all Alphabet.a2.has then .a2
  else if u.all Alphabet.a1.has then .a1
  else .a0

/-- `enc_a(c)`: the symbol code of a member c of alphabet a (R194 to R197). For a code unit that is no member it has no
meaning, and no command asks for it (R193). -/
def Alphabet.enc (a : Alphabet) (c : Cell16) : Nat :=
  let n := c.toNat
  match a with
  | .a5 => if n = 0x20 then 4 else n - 43
  | .a4 =>
    if isLower c then n - 97
    else if n = 0x20 then 26
    else if n = 0x7C then 27
    else if n = 0x27 then 28
    else if n = 0x2D then 29
    else if n = 0x2E then 30
    else 31
  | .a3 =>
    if isDigit c then n - 48
    else if isUpper c then n - 55
    else if isLower c then n - 61
    else if n = 0x2C then 62
    else 63
  | .a2 | .a1 | .a0 => n

/-- `dec_a(k)`: the code unit of a symbol code `k < 2^width(a)` (R194 to R197). Codes 1 and 15 of alphabet 5, which no member
maps to, decode by the formula (R194). -/
def Alphabet.dec (a : Alphabet) (k : Nat) : Cell16 :=
  match a with
  | .a5 => if k = 4 then 0x20 else BitVec.ofNat 16 (k + 43)
  | .a4 =>
    if k ≤ 25 then BitVec.ofNat 16 (k + 97)
    else if k = 26 then 0x20
    else if k = 27 then 0x7C
    else if k = 28 then 0x27
    else if k = 29 then 0x2D
    else if k = 30 then 0x2E
    else 0x2C
  | .a3 =>
    if k ≤ 9 then BitVec.ofNat 16 (k + 48)
    else if k ≤ 35 then BitVec.ofNat 16 (k + 55)
    else if k ≤ 61 then BitVec.ofNat 16 (k + 61)
    else if k = 62 then 0x2C
    else 0x20
  | .a2 | .a1 | .a0 => BitVec.ofNat 16 k

/-- `fold(c)`, FOLD_MAP: ASCII `A` to `Z` to lower case, the identity elsewhere (R199; log 5). -/
def foldUnit (c : Cell16) : Cell16 := if isUpper c then c + 0x20 else c

/-- The text WSTR writes: folded when FOLD = 1 (R201). -/
def foldText (fold : Bool) (pay : List Cell16) : List Cell16 := if fold then pay.map foldUnit else pay

/-- The decimal digits of v, most significant first, without leading zero, put before `acc`; `fuel` bounds their number. -/
def decimalDigits : Nat → Nat → List Cell16 → List Cell16
  | 0, _, acc => acc
  | fuel + 1, v, acc =>
    let acc' := BitVec.ofNat 16 (0x30 + v % 10) :: acc
    if v / 10 = 0 then acc' else decimalDigits fuel (v / 10) acc'

/-- `dec(v)`, the decimal text of an integer of 64 bits (R174): at most 19 digits are needed, and 20 are allowed for. -/
def decimalText (v : Int) : List Cell16 :=
  if v < 0 then 0x2D :: decimalDigits 20 v.natAbs [] else decimalDigits 20 v.natAbs []

/-- The decimal value of a list of digit characters. -/
def digitsValue (ds : List Cell16) : Nat := ds.foldl (fun acc c => 10 * acc + (c.toNat - 0x30)) 0

/-- Whether v is an integer of 64 bits in two's complement (R173). -/
def int64InRange (v : Int) : Bool := decide (-(2 ^ 63) ≤ v) && decide (v ≤ 2 ^ 63 - 1)

/-- A text split at its sign: whether it opens with `-`, and what follows. -/
def splitSign : List Cell16 → Bool × List Cell16
  | [] => (false, [])
  | c :: cs => if c = 0x2D then (true, cs) else (false, c :: cs)

/-- `parse(u)`: the integer a text `-? digit+` denotes, none (*bad*) for any other text or a value beyond 64 bits (R175). -/
def parseInt (u : List Cell16) : Option Int :=
  let (negative, ds) := splitSign u
  let v : Int := if negative then - (digitsValue ds : Int) else digitsValue ds
  if !ds.isEmpty && ds.all isDigit && int64InRange v then some v else none

end Sys2Proof.Machine
end

