-- ==== Sys2Proof/Machine/Ops.lean ====
section
/-! DEFINITION. The shared operations: the memory primitives (00_scope.md R11), the two engine procedures (40_engine.md R110
to R112), the codecs' helpers (41_primitive.md R140, R141; 43_text.md R200, R202), and the completion procedure of every
command, which is where an error response is given (60_exceptions.md R253 to R255). There is no return from an error
response (R256). -/

namespace Sys2Proof.Machine

/-! ### The cell store -/

/-- `MemRead(i, 16)`: cell i from the head (R11). Every caller asks for a cell that is there (R111). -/
def Stream.memRead (t : Stream) (i : Nat) : Cell16 := t.cells.getD i 0

/-- `MemWrite(i, 16, v)` (R11). -/
def Stream.memWrite (t : Stream) (i : Nat) (v : Cell16) : Stream := { t with cells := t.cells.set i v }

/-- `Append(v)`: a cell after the last (R11). -/
def Stream.append (t : Stream) (v : Cell16) : Stream := { t with cells := t.cells ++ [v] }

/-- `DropHead()`: removes the head cell and renumbers (R11). -/
def Stream.dropHead (t : Stream) : Stream := { t with cells := t.cells.tail }

/-- `last`: the index of the tail cell (R11). -/
def Stream.last (t : Stream) : Nat := t.cells.length - 1

/-- `(16 - TF) mod 16`: the unfilled bits of the tail cell (R24). -/
def Stream.unfilled (t : Stream) : Nat := (16 - t.tf.toNat) % 16

/-- `size(T)` (R24, R112). The difference is not negative in a well-formed stream (R25, W3). -/
def Stream.size (t : Stream) : Nat := t.cells.length * 16 - t.ho.toNat - t.unfilled

/-- W1 to W5 of R25; W1 is in the cursors' type. It is the canonical form of the memory: with W5 the stored bits determine
the cells. -/
abbrev Stream.WellFormed (t : Stream) : Prop :=
  (t.cells = [] → t.ho = 0 ∧ t.tf = 0) ∧
  t.ho.toNat + t.unfilled ≤ t.cells.length * 16 ∧
  (t.tf ≠ 0 → t.cells ≠ []) ∧
  (t.tf ≠ 0 → t.memRead t.last &&& ~~~(hi16 t.tf.toNat) = 0)

/-- The block's one memory is its stream record: the cell store with its two cursors (R50). -/
abbrev Memory := Stream

/-- The canonical form of the memory. -/
abbrev Memory.wf (m : Memory) : Prop := Stream.WellFormed m

/-- W1 to W6 of R25 for a block, with CAP a number of at least 1 or `inf` (R7). -/
abbrev State.WellFormed (s : State) : Prop :=
  s.stream.WellFormed ∧ s.config.admits s.stream.cells.length = true ∧ s.config.Valid

/-! ### The two engine procedures -/

/-- One pass of the loop of R110: the k high-order bits of source word w enter at the tail. -/
def Stream.appendChunk (t : Stream) (w : Cell16) (k : Nat) : Stream :=
  let chunk := w &&& hi16 k
  let t1 := if t.tf = 0 then t.append 0 else t
  let a := 16 - t.tf.toNat
  let f := min k a
  let t2 := t1.memWrite t1.last ((t1.memRead t1.last &&& hi16 t.tf.toNat) ||| (chunk >>> t.tf.toNat))
  let t3 := if k - f > 0 then t2.append (chunk <<< f) else t2
  { t3 with tf := BitVec.ofNat 4 ((t.tf.toNat + k) % 16) }

/-- The loop of R110 over the source words, `n` bits of which are still to be written. A pass takes 16 bits except possibly
the last, so `wp mod 16 = 0` in every pass and a pass takes the next source word (R110; log 13, DEDUCED). -/
def Stream.writeWords : List Cell16 → Nat → Stream → Stream
  | [], _, t => t
  | w :: ws, n, t => if n = 0 then t else Stream.writeWords ws (n - min 16 n) (t.appendChunk w (min 16 n))

/-- The inside of a running command (R253): the stream registers as the body leaves them, and the anomalies noted. -/
structure Run where
  stream : Stream
  anomalies : Anomalies
deriving DecidableEq, Repr

/-- `note X` when `cond` holds. -/
def Run.noteIf (r : Run) (cond : Bool) (x : Anomalies) : Run :=
  { r with anomalies := addNote cond x r.anomalies }

/-- `n <- min(count, 16 * len(src))`: the over-write clamp (R110). -/
def clampedCount (src : List Cell16) (count : Nat) : Nat := min count (16 * src.length)

/-- `writeBits(S, src, count)` (R110): the run after it, and the number of bits appended. -/
def Run.writeBits (r : Run) (src : List Cell16) (count : Nat) : Run × Nat :=
  let n := clampedCount src count
  let r1 := r.noteIf (decide (count > 16 * src.length)) Anomaly.overrun
  ({ r1 with stream := r1.stream.writeWords src n }, n)

/-- `T.HO <- T.HO + k`, and the head cell dropped and HO zeroed when it becomes fully consumed, HO = 16 (R111). -/
def Stream.advanceHead (t : Stream) (k : Nat) : Stream :=
  let h := t.ho.toNat + k
  if h = 16 then { t.dropHead with ho := 0 } else { t with ho := BitVec.ofNat 4 h }

/-- The loop of R111: `rem` bits are still to be moved from the head of t to the record o. Each pass moves one bit or more,
so the number of bits to move is enough fuel. -/
def Stream.moveBits : Nat → Nat → Stream → Stream → Stream × Stream
  | 0, _, t, o => (t, o)
  | fuel + 1, rem, t, o =>
    if rem = 0 then (t, o)
    else
      let k := min (16 - t.ho.toNat) rem
      let piece := (t.memRead 0 <<< t.ho.toNat) &&& hi16 k
      Stream.moveBits fuel (rem - k) (t.advanceHead k) (o.writeWords [piece] k)

/-- `readBits(S, count)` (R111): the run after it, and the new stream record O. -/
def Run.readBits (r : Run) (count : Nat) : Run × Stream :=
  let n := min count r.stream.size
  let r1 := r.noteIf (decide (count > r.stream.size)) Anomaly.underrun
  let moved := Stream.moveBits n n r1.stream Stream.empty
  ({ r1 with stream := moved.1 }, moved.2)

/-! ### The codecs' helpers -/

/-- A write command under way: its run, and n, the number of bits it has appended so far. -/
structure Writing where
  run : Run
  bits : Nat
deriving DecidableEq, Repr

/-- The start of a write command: `n <- 0`. -/
def Run.writing (r : Run) : Writing := { run := r, bits := 0 }

/-- The source words of `wr(v, w)`: v masked to w bits, left-justified; for w = 32 the high word first (R140). -/
def fieldWords (v w : Nat) : List Cell16 :=
  let m := v % 2 ^ w
  if w ≤ 16 then [BitVec.ofNat 16 (m <<< (16 - w))] else [BitVec.ofNat 16 (m >>> 16), BitVec.ofNat 16 m]

/-- `n <- n + wr(v, w)` (R140). -/
def Writing.wr (v w : Nat) (p : Writing) : Writing :=
  let (r, n) := p.run.writeBits (fieldWords v w) w
  { run := r, bits := p.bits + n }

/-- `rd(w)` (R141): the run after it, and the value, taken from the high-order end, a missing cell counting as zero. -/
def Run.rd (r : Run) (w : Nat) : Run × Nat :=
  let (r', o) := r.readBits w
  let c0 := o.cells.getD 0 0
  let c1 := o.cells.getD 1 0
  (r', if w ≤ 16 then c0.toNat >>> (16 - w) else c0.toNat <<< 16 ||| c1.toNat)

/-- The characters of a string, each `enc_a(c)` in `width(a)` bits (R200). -/
def Writing.chars (a : Alphabet) : List Cell16 → Writing → Writing
  | [], p => p
  | c :: cs, p => Writing.chars a cs (p.wr (a.enc c) a.width)

/-- `n <- n + writeString(u)`: discriminator, length, characters (R200). -/
def Writing.string (u : List Cell16) (p : Writing) : Writing :=
  let a := classify u
  ((p.wr a.id 4).wr u.length 16).chars a u

/-- `L` characters of alphabet a, in order (R202). -/
def Run.readChars (a : Alphabet) : Nat → Run → Run × List Cell16
  | 0, r => (r, [])
  | l + 1, r =>
    let (r1, k) := r.rd a.width
    let (r2, u) := Run.readChars a l r1
    (r2, a.dec k :: u)

/-- `readString()` (R202): the run after it, the discriminator as read, and the text. -/
def Run.readString (r : Run) : Run × Nat × List Cell16 :=
  let (r1, d) := r.rd 4
  let (r2, l) := r1.rd 16
  let (r3, u) := Run.readChars (Alphabet.ofDiscriminator d) l r2
  (r3, d, u)

/-! ### Responses and the completion procedure -/

/-- `respond(VAL = v, NB = n, PAY = ws)`: "a field not named is zero or empty" (R11). -/
structure Answer where
  val : Scalar := 0
  nb : BitVec 20 := 0
  pay : List Cell16 := []
deriving DecidableEq, Repr

/-- The 4-bit completion code (R88). -/
def Code.toBits : Code → BitVec 4
  | .ok => 0
  | .underrun => 1
  | .overrun => 2
  | .badnum => 3
  | .overflow => 4
  | .illegal => 5

/-- `RHDR = (CODE << 28) | NB`, bits 27:20 zero (R87). -/
def Response.header (r : Response) : Header := (r.code.toBits.setWidth 32 <<< 28) ||| r.nb.setWidth 32

/-- The OK response of a command. -/
def Response.okOf (a : Answer) : Response := { code := .ok, nb := a.nb, val := a.val, pay := a.pay }

/-- An error response: "the other three are zero and empty" (R86). -/
def Response.errorOf (c : Code) : Response := { code := c, nb := 0, val := 0, pay := [] }

/-- The response leaves by the response port, after the earlier ones (R256). -/
def State.respond (s : State) (r : Response) : State := { s with responses := s.responses ++ [r] }

/-- TAKING AN ERROR (R253, R255), the block's analogue of an exception: the sticky flags of the anomalies noted are set, the
response is the code with zero VAL and NB and empty PAY, and nothing else changes: the stream registers are those before
the command, nothing is saved, control goes nowhere. -/
def State.takeError (s : State) (c : Code) (a : Anomalies) : State :=
  ({ s with status := stickyFlags s.status a }).respond (Response.errorOf c)

/-- The end of a command whose body ran to r and tentatively answered a (R253). `s` holds the stream registers from before
the command (Σ0). -/
def State.complete (s : State) (r : Run) (a : Answer) : State :=
  match errorCode s.strict r.anomalies with
  | some c => s.takeError c r.anomalies
  | none => ({ s with stream := r.stream, status := stickyFlags s.status r.anomalies }).respond (Response.okOf a)

/-- `execute` of R253 for a legal header: the body runs leniently on the stream registers with no anomaly noted, then the
command completes. Outside W1 to W6 of R25 there is no such block and the machine stops (log 8). -/
def State.perform (s : State) (body : Run → Run × Answer) : Host.Outcome State Fault Refusal :=
  if s.WellFormed then
    let (r, a) := body { stream := s.stream, anomalies := 0 }
    .next (s.complete r a)
  else .fault .illFormedState

/-- `if len(S.cells) > CAP: note OVERFLOW`, the end of every write command (R121, R140 and after). -/
def Run.noteOverflow (r : Run) (c : Config) : Run :=
  r.noteIf (!c.admits r.stream.cells.length) Anomaly.overflow

/-- A write command: its writes, the capacity check, `respond(VAL = n)`. -/
def State.performWrite (s : State) (body : Writing → Writing) : Host.Outcome State Fault Refusal :=
  s.perform fun r =>
    let p := body r.writing
    (p.run.noteOverflow s.config, { val := BitVec.ofNat 64 p.bits })

/-- A read command of one fixed-width field: `respond(VAL = f(rd(w)))`. -/
def State.performRead (s : State) (w : Nat) (f : Nat → Scalar) : Host.Outcome State Fault Refusal :=
  s.perform fun r =>
    let (r', v) := r.rd w
    (r', { val := f v })

/-- A command that neither reads nor writes the stream: `respond(VAL = v)`. -/
def State.performIdle (s : State) (v : Scalar) : Host.Outcome State Fault Refusal :=
  s.perform fun r => (r, { val := v })

/-- An illegal header (R89, R253): STATUS.ILLEGAL is set and the response is (ILLEGAL, 0, 0, empty). -/
def State.takeIllegal (s : State) : State := s.takeError .illegal Anomaly.illegal

/-- The reset input (R280): every register takes its reset value; the configuration and what has passed or will pass the
ports stay. -/
def State.takeReset (s : State) : State := { s with stream := Stream.empty, strict := false, status := 0 }

/-- CTRL as a 64-bit register: STRICT in bit 0, bits 63:1 hardwired 0 (R29). -/
def State.ctrlWord (s : State) : Scalar := (BitVec.ofBool s.strict).setWidth 64

/-- STATUS as a 64-bit register: the flags in bits 4:0, bits 63:5 hardwired 0 (R30). -/
def State.statusWord (s : State) : Scalar := s.status.setWidth 64

/-! ### The command port -/

/-- What the block takes next from its ports (R6, R280). -/
inductive Fetched where
  | idle
  | reset (s : State)
  | command (c : Command) (s : State)
deriving DecidableEq, Repr

/-- The next port event, and the state with that event taken (log 1). -/
def State.fetch (s : State) : Fetched :=
  match s.pending with
  | [] => .idle
  | .reset :: rest => .reset { s with pending := rest }
  | .command c :: rest => .command c { s with pending := rest }

/-- The state with c presented as the next command. -/
def State.present (s : State) (c : Command) : State := { s with pending := .command c :: s.pending }

end Sys2Proof.Machine
end

