-- ==== Sys2Proof/Machine/AdaptiveText.lean ====
section
/-! DEFINITION. The text codec commands WSTR, RSTR (43_text.md R201, R202). -/

namespace Sys2Proof.Machine

/-- WSTR (R201): the text, folded when FOLD = 1, as a string. -/
def execWstr (fold : Bool) (pay : List Cell16) (s : State) : Host.Outcome State Fault Refusal :=
  s.performWrite (Writing.string (foldText fold pay))

/-- RSTR (R202): VAL is the discriminator as read, NB the length, PAY the characters. -/
def execRstr (s : State) : Host.Outcome State Fault Refusal :=
  s.perform fun r =>
    let (r', d, u) := r.readString
    (r', { val := BitVec.ofNat 64 d, nb := BitVec.ofNat 20 u.length, pay := u })

end Sys2Proof.Machine
end

