-- ==== Sys2Proof/Machine/Operands.lean ====
section
/-! DEFINITION. How each command of format S reads ARG (30_encoding.md R83). The fixed-width writes mask ARG inside `wr`
(41_primitive.md R140); WFLT reads all 64 bits as a binary64 pattern (Machine/Float.lean). -/

namespace Sys2Proof.Machine

/-- `ARG[0]`: the flag of WFLAG, the new STRICT of SETMODE; bits 63:1 ignored. -/
def argBit (arg : Scalar) : Bool := arg.getLsbD 0

/-- `ARG[4:0]`: the mask of CLRST; bits 63:5 ignored. -/
def argFlags (arg : Scalar) : BitVec 5 := arg.setWidth 5

/-- All 64 bits as a two's complement integer: the operand of WINT, `v = sext(ARG)` (R83, R173). -/
def argInt (arg : Scalar) : Int := arg.toInt

end Sys2Proof.Machine
end

