-- ==== Sys2Proof/Machine/CompactInt.lean ====
section
/-! DEFINITION. The compact integer codec (42_compact_int.md R170 to R175). -/

namespace Sys2Proof.Machine

/-- The writes of WINT for the integer v (R171): the narrowest of the four forms of R170. -/
def Writing.compactInt (v : Int) (p : Writing) : Writing :=
  if 0 ≤ v ∧ v ≤ 255 then (p.wr 1 1).wr v.toNat 8
  else if 0 ≤ v ∧ v ≤ 65535 then ((p.wr 0 1).wr 1 1).wr v.toNat 16
  else if 0 ≤ v ∧ v ≤ 4294967295 then (((p.wr 0 1).wr 0 1).wr 1 1).wr v.toNat 32
  else (((p.wr 0 1).wr 0 1).wr 0 1).string (decimalText v)

/-- The fallback of RINT (R172): a string in any alphabet, parsed; a *bad* text yields 0 and notes BADNUM. -/
def Run.readDecimal (r : Run) : Run × Int :=
  let (r', _, u) := r.readString
  match parseInt u with
  | some v => (r', v)
  | none => (r'.noteIf true Anomaly.badnum, 0)

/-- The reads of RINT (R172): tags until the first that is 1, at most three, then the body they announce. -/
def Run.readCompactInt (r : Run) : Run × Int :=
  let (r1, tag1) := r.rd 1
  if tag1 = 1 then ((r1.rd 8).1, ((r1.rd 8).2 : Int))
  else
    let (r2, tag2) := r1.rd 1
    if tag2 = 1 then ((r2.rd 16).1, ((r2.rd 16).2 : Int))
    else
      let (r3, tag3) := r2.rd 1
      if tag3 = 1 then ((r3.rd 32).1, ((r3.rd 32).2 : Int))
      else r3.readDecimal

/-- WINT (R171). -/
def execWint (arg : Scalar) (s : State) : Host.Outcome State Fault Refusal :=
  s.performWrite (Writing.compactInt (argInt arg))

/-- RINT (R172): VAL is the value in 64-bit two's complement. -/
def execRint (s : State) : Host.Outcome State Fault Refusal :=
  s.perform fun r =>
    let (r', v) := r.readCompactInt
    (r', { val := BitVec.ofInt 64 v })

end Sys2Proof.Machine
end

