-- ==== Sys2Proof/Machine/Engine.lean ====
section
/-! DEFINITION. The engine commands SIZE, WBITS, RBITS, CLR (40_engine.md R120 to R123). -/

namespace Sys2Proof.Machine

/-- The 64-bit VAL of a bit count: the count, when it fits the field; otherwise the free value of log 7. -/
def sizeVal (n : Nat) : Scalar := if n < 2 ^ 64 then BitVec.ofNat 64 n else Config.sizeBeyondField n

/-- SIZE (R120). -/
def execSize (s : State) : Host.Outcome State Fault Refusal := s.performIdle (sizeVal s.stream.size)

/-- WBITS (R121): OVERRUN is noted when CNT > 16 * len(PAY), OVERFLOW when the result does not fit. -/
def execWbits (cnt : BitVec 20) (pay : List Cell16) (s : State) : Host.Outcome State Fault Refusal :=
  s.performWrite fun p =>
    let (r, n) := p.run.writeBits pay cnt.toNat
    { run := r, bits := n }

/-- RBITS (R122): VAL and NB are the number of bits returned, PAY the words of the new stream record. -/
def execRbits (cnt : BitVec 20) (s : State) : Host.Outcome State Fault Refusal :=
  s.perform fun r =>
    let (r', o) := r.readBits cnt.toNat
    (r', { val := BitVec.ofNat 64 o.size, nb := BitVec.ofNat 20 o.size, pay := o.cells })

/-- CLR (R123). -/
def execClr (s : State) : Host.Outcome State Fault Refusal :=
  s.perform fun r => ({ r with stream := Stream.empty }, {})

end Sys2Proof.Machine
end

