-- ==== Sys2Proof/Machine/Float.lean ====
section
/-! DEFINITION. The quantiser QUANT and the binary64 quotient (41_primitive.md R153, R155). The binary64 format is IEEE 754's:
R83 gives the fields; the bias, the hidden bit and the subnormals are the format's own (log 16, PRESUMED). -/

namespace Sys2Proof.Machine

/-- What a binary64 pattern denotes: the real number `mant * 2^expo`, or no real number (a NaN or an infinity). -/
inductive Binary64 where
  | finite (mant : Int) (expo : Int)
  | nonFinite
deriving DecidableEq, Repr

/-- Bit 63 is the sign, bits 62:52 the biased exponent, bits 51:0 the fraction (R83). -/
def binary64Of (p : Scalar) : Binary64 :=
  let biased := (p.extractLsb' 52 11).toNat
  let fraction := (p.extractLsb' 0 52).toNat
  let signed (m : Nat) : Int := if p.getLsbD 63 then - (m : Int) else m
  if biased = 2047 then .nonFinite
  else if biased = 0 then .finite (signed fraction) (-1074)
  else .finite (signed (2 ^ 52 + fraction)) ((biased : Int) - 1075)

/-- `floor(x + 1/2)` for the real number `x = mant * 2^expo`: round to nearest, ties toward +infinity (R153, D17). -/
def roundHalfUp (mant expo : Int) : Int :=
  if 0 ≤ expo then mant * 2 ^ expo.toNat
  else (2 * mant + 2 ^ (-expo).toNat) / (2 * 2 ^ (-expo).toNat)

/-- QUANT (R153): `floor(v * 255 + 1/2) mod 256` on the exact product, 0 for a NaN or an infinity (D18). -/
def quant (p : Scalar) : Nat :=
  match binary64Of p with
  | .nonFinite => 0
  | .finite mant expo => (roundHalfUp (mant * 255) expo % 256).toNat

/-- The least j, at most `fuel`, with `den <= num * 2^j`. -/
def normShift : Nat → Nat → Nat → Nat
  | 0, _, _ => 0
  | fuel + 1, num, den => if den ≤ num then 0 else normShift fuel (2 * num) den + 1

/-- The natural number nearest to `num / den`, ties to even. -/
def roundHalfEven (num den : Nat) : Nat :=
  let q := num / den
  let r := num % den
  if 2 * r > den ∨ (2 * r = den ∧ q % 2 = 1) then q + 1 else q

/-- `binary64(e / 255)` for `e` in 0..255: the binary64 number nearest to the quotient, ties to even (R155, D31). With j the
least shift that brings `e * 2^j / 255` to 1 or more, the significand is the nearest integer to `e * 2^(52 + j) / 255` and
the exponent is -j; a significand rounded up to 2^53 carries into the exponent field. -/
def binary64Of255ths (e : Nat) : Scalar :=
  if e = 0 then 0
  else
    let j := normShift 8 e 255
    BitVec.ofNat 64 ((1023 - j) * 2 ^ 52 + (roundHalfEven (e * 2 ^ (52 + j)) 255 - 2 ^ 52))

end Sys2Proof.Machine
end

