-- ==== Sys2Proof/Machine/Primitive.lean ====
section
/-! DEFINITION. The primitive codec (41_primitive.md R142 to R155). -/

namespace Sys2Proof.Machine

/-- WFLAG (R142): `wr(ARG[0], 1)`. -/
def execWflag (arg : Scalar) (s : State) : Host.Outcome State Fault Refusal :=
  s.performWrite (Writing.wr (argBit arg).toNat 1)

/-- RFLAG (R143). -/
def execRflag (s : State) : Host.Outcome State Fault Refusal := s.performRead 1 (BitVec.ofNat 64)

/-- WU4 (R144). -/
def execWu4 (arg : Scalar) (s : State) : Host.Outcome State Fault Refusal := s.performWrite (Writing.wr arg.toNat 4)

/-- RU4 (R145). -/
def execRu4 (s : State) : Host.Outcome State Fault Refusal := s.performRead 4 (BitVec.ofNat 64)

/-- WU8 (R146). -/
def execWu8 (arg : Scalar) (s : State) : Host.Outcome State Fault Refusal := s.performWrite (Writing.wr arg.toNat 8)

/-- RU8 (R147). -/
def execRu8 (s : State) : Host.Outcome State Fault Refusal := s.performRead 8 (BitVec.ofNat 64)

/-- WU16 (R148). -/
def execWu16 (arg : Scalar) (s : State) : Host.Outcome State Fault Refusal := s.performWrite (Writing.wr arg.toNat 16)

/-- RU16 (R149). -/
def execRu16 (s : State) : Host.Outcome State Fault Refusal := s.performRead 16 (BitVec.ofNat 64)

/-- WU32 (R150). -/
def execWu32 (arg : Scalar) (s : State) : Host.Outcome State Fault Refusal := s.performWrite (Writing.wr arg.toNat 32)

/-- RU32 (R151). -/
def execRu32 (s : State) : Host.Outcome State Fault Refusal := s.performRead 32 (BitVec.ofNat 64)

/-- WFLT (R154): `wr(QUANT(ARG), 8)`; no operand is an anomaly. -/
def execWflt (arg : Scalar) (s : State) : Host.Outcome State Fault Refusal := s.performWrite (Writing.wr (quant arg) 8)

/-- RFLT (R155): `binary64(rd(8) / 255)`. -/
def execRflt (s : State) : Host.Outcome State Fault Refusal := s.performRead 8 binary64Of255ths

end Sys2Proof.Machine
end

