-- ==== Sys2Proof/Machine/System.lean ====
section
/-! DEFINITION. The system commands GETST, SETMODE, CLRST (44_system.md R230 to R232). None notes an anomaly, so which STRICT
the completion reads makes no difference to them (R253). -/

namespace Sys2Proof.Machine

/-- GETST (R230): `STATUS[4:0] | (CTRL.STRICT << 8)`. -/
def execGetst (s : State) : Host.Outcome State Fault Refusal := s.performIdle (s.statusWord ||| (s.ctrlWord <<< 8))

/-- SETMODE (R231): `CTRL.STRICT <- ARG[0]`. -/
def execSetmode (arg : Scalar) (s : State) : Host.Outcome State Fault Refusal :=
  ({ s with strict := argBit arg }).performIdle 0

/-- CLRST (R232): `STATUS <- STATUS and not ARG[4:0]`. -/
def execClrst (arg : Scalar) (s : State) : Host.Outcome State Fault Refusal :=
  ({ s with status := clearFlags s.status (argFlags arg) }).performIdle 0

end Sys2Proof.Machine
end

