-- ==== Sys2Proof/Machine/Dispatch.lean ====
section
/-! DEFINITION. The meaning of each command: one arm per constructor of Instr. -/

namespace Sys2Proof.Machine

def exec (i : Instr) (s : State) : Host.Outcome State Fault Refusal :=
  match i with
  | .size => Sys2Proof.Machine.execSize s
  | .wbits cnt pay => Sys2Proof.Machine.execWbits cnt pay s
  | .rbits cnt => Sys2Proof.Machine.execRbits cnt s
  | .clr => Sys2Proof.Machine.execClr s
  | .wflag arg => Sys2Proof.Machine.execWflag arg s
  | .rflag => Sys2Proof.Machine.execRflag s
  | .wu4 arg => Sys2Proof.Machine.execWu4 arg s
  | .ru4 => Sys2Proof.Machine.execRu4 s
  | .wu8 arg => Sys2Proof.Machine.execWu8 arg s
  | .ru8 => Sys2Proof.Machine.execRu8 s
  | .wu16 arg => Sys2Proof.Machine.execWu16 arg s
  | .ru16 => Sys2Proof.Machine.execRu16 s
  | .wu32 arg => Sys2Proof.Machine.execWu32 arg s
  | .ru32 => Sys2Proof.Machine.execRu32 s
  | .wflt arg => Sys2Proof.Machine.execWflt arg s
  | .rflt => Sys2Proof.Machine.execRflt s
  | .wint arg => Sys2Proof.Machine.execWint arg s
  | .rint => Sys2Proof.Machine.execRint s
  | .wstr fold pay => Sys2Proof.Machine.execWstr fold pay s
  | .rstr => Sys2Proof.Machine.execRstr s
  | .getst => Sys2Proof.Machine.execGetst s
  | .setmode arg => Sys2Proof.Machine.execSetmode arg s
  | .clrst arg => Sys2Proof.Machine.execClrst arg s

end Sys2Proof.Machine
end

