-- ==== Sys2Proof/Machine/Step.lean ====
section
/-! DEFINITION. One step: the block takes what its ports present next (00_scope.md R6; 60_exceptions.md R253, R257). -/

namespace Sys2Proof.Machine

/-- One step of the block: idle without a command (R263, R294); the reset input (R280); or one whole command, which is
executed if its header decodes and answered ILLEGAL if not (R89, R253). -/
def step (s : State) : Host.Outcome State Fault Refusal :=
  match s.fetch with
  | .idle => .next s
  | .reset s' => .next s'.takeReset
  | .command c s' =>
    match decode c with
    | .ok i => exec i s'
    | .error .payloadTooLong => .refused .payloadTooLong
    | .error _ => .next s'.takeIllegal

/-- s with the table's word w presented as the next command (log 1, log 17). -/
def State.withFetchWord (s : State) (nbits w : Nat) : State := s.present (tableCommand nbits w)

end Sys2Proof.Machine
end

