-- ==== Sys2Proof/Machine/Content.lean ====
section
/-! DEFINITION. The content of a stream and what reads and writes do to it, on bit sequences (10_state.md R27; 40_engine.md
R113; 41_primitive.md R152; 42_compact_int.md R170; 43_text.md R200). No step uses these: they are the second, declarative
reading of the spec, in which statements about the commands are made. -/

namespace Sys2Proof.Machine

/-- The bits the cells hold, the consumed ones among them (R28 (a)) and the unfilled ones not. -/
def Stream.stored (t : Stream) : List Bool := (unwords t.cells).take (t.cells.length * 16 - t.unfilled)

/-- `bits(S) = take(size(S), drop(HO, unwords(cells)))`, the content (R27). -/
def Stream.bits (t : Stream) : List Bool := ((unwords t.cells).drop t.ho.toNat).take t.size

/-- The stream with b added after its last bit: L1 of R113. The stored bits stay, and so does HO. -/
def Stream.appendBits (t : Stream) (b : List Bool) : Stream :=
  { cells := words (t.stored ++ b), ho := t.ho, tf := BitVec.ofNat 4 ((t.tf.toNat + b.length) % 16) }

/-- The stream with its first n bits read: L2 of R113. A cell goes when its last bit position is passed. -/
def Stream.dropBits (t : Stream) (n : Nat) : Stream :=
  { t with cells := t.cells.drop ((t.ho.toNat + n) / 16), ho := BitVec.ofNat 4 ((t.ho.toNat + n) % 16) }

/-- The freshly built stream of a bit sequence: the record O of L2 of R113. -/
def Stream.ofBits (b : List Bool) : Stream :=
  { cells := words b, ho := 0, tf := BitVec.ofNat 4 (b.length % 16) }

/-- The number of cells after n bits are written: `ceil16(HO + len(bits) + n)` (R113 L1). -/
def Stream.cellsAfter (t : Stream) (n : Nat) : Nat := ceil16 (t.ho.toNat + t.size + n)

/-- The value of a w-bit field at the head of the content b, by the law of a short read (R152): the bits that are there
at the high-order end, the missing ones zero. -/
def fieldAt (b : List Bool) (w : Nat) : Nat := val (b.take w) * 2 ^ (w - b.length)

/-- The discriminator of a string at the head of b (R200, R202). -/
def textDiscriminator (b : List Bool) : Nat := fieldAt b 4

/-- The length of a string at the head of b. -/
def textLength (b : List Bool) : Nat := fieldAt (b.drop 4) 16

/-- The alphabet the reader takes for a string at the head of b (R198). -/
def textAlphabet (b : List Bool) : Alphabet := Alphabet.ofDiscriminator (textDiscriminator b)

/-- The characters of a string at the head of b. -/
def textChars (b : List Bool) : List Cell16 :=
  (List.range (textLength b)).map fun i =>
    (textAlphabet b).dec (fieldAt (b.drop (20 + (textAlphabet b).width * i)) (textAlphabet b).width)

/-- The bits a string at the head of b asks for: `20 + w * L` (R59, R200). -/
def textBits (b : List Bool) : Nat := 20 + (textAlphabet b).width * textLength b

/-- The layout of a string: discriminator, length, characters (R200). -/
def stringBits (u : List Cell16) : List Bool :=
  msb (classify u).id 4 ++ msb (u.length % 2 ^ 16) 16 ++
    u.flatMap fun c => msb ((classify u).enc c % 2 ^ (classify u).width) (classify u).width

/-- The layout of a compact integer: tags, then the narrowest body that fits, or the decimal text (R170). -/
def intBits (v : Int) : List Bool :=
  if 0 ≤ v ∧ v ≤ 255 then [true] ++ msb v.toNat 8
  else if 0 ≤ v ∧ v ≤ 65535 then [false, true] ++ msb v.toNat 16
  else if 0 ≤ v ∧ v ≤ 4294967295 then [false, false, true] ++ msb v.toNat 32
  else [false, false, false] ++ stringBits (decimalText v)

/-- The bits a compact integer at the head of b asks for (R59, R172). -/
def intBitsAt (b : List Bool) : Nat :=
  if fieldAt b 1 = 1 then 9
  else if fieldAt (b.drop 1) 1 = 1 then 18
  else if fieldAt (b.drop 2) 1 = 1 then 35
  else 3 + textBits (b.drop 3)

/-- The value of a compact integer at the head of b, none where its fallback text is *bad* (R172, R175). -/
def intAt (b : List Bool) : Option Int :=
  if fieldAt b 1 = 1 then some (fieldAt (b.drop 1) 8)
  else if fieldAt (b.drop 1) 1 = 1 then some (fieldAt (b.drop 2) 16)
  else if fieldAt (b.drop 2) 1 = 1 then some (fieldAt (b.drop 3) 32)
  else parseInt (textChars (b.drop 3))

/-- The state after a command that ends in an error response: the sticky flags, the response, nothing else (R253, R255). -/
def State.afterError (s : State) (c : Code) (flags : Anomalies) : State :=
  { s with status := s.status ||| flags, responses := s.responses ++ [{ code := c, nb := 0, val := 0, pay := [] }] }

/-- The state after a command that commits the stream t and answers OK (R253). -/
def State.afterOk (s : State) (t : Stream) (flags : Anomalies) (val : Scalar) (nb : BitVec 20) (pay : List Cell16) : State :=
  { s with stream := t, status := s.status ||| flags,
           responses := s.responses ++ [{ code := .ok, nb := nb, val := val, pay := pay }] }

/-- The state after a write command that appends b (R121, R140, R253, R254). `clamped` says that the over-write clamp applied.
OVERFLOW (flag bit 3) undoes it in both modes, OVERRUN (bit 1) in strict mode; otherwise b is added to the content and VAL
is the number of bits appended. -/
def State.afterWrite (s : State) (b : List Bool) (clamped : Bool) : State :=
  if s.config.admits (s.stream.cellsAfter b.length) = false then
    s.afterError .overflow (if clamped then 0b01010 else 0b01000)
  else if s.strict = true ∧ clamped = true then s.afterError .overrun 0b00010
  else s.afterOk (s.stream.appendBits b) (if clamped then 0b00010 else 0) (BitVec.ofNat 64 b.length) 0 []

/-- The flags of a read that asks for n bits: UNDERRUN (bit 0) when it asks for more than there are, BADNUM (bit 2) when
`bad` says so. -/
def State.readFlags (s : State) (n : Nat) (bad : Bool) : Anomalies :=
  (if s.stream.size < n then 0b00001 else 0) ||| (if bad then 0b00100 else 0)

/-- The state after a read command that asks for n bits (R152, R253, R254). In strict mode UNDERRUN, else BADNUM, undoes it;
otherwise the bits that are there, n at most, leave the head, and it answers val, nb, pay. -/
def State.afterRead (s : State) (n : Nat) (bad : Bool) (val : Scalar) (nb : BitVec 20) (pay : List Cell16) : State :=
  if s.strict = true ∧ s.stream.size < n then s.afterError .underrun (s.readFlags n bad)
  else if s.strict = true ∧ bad = true then s.afterError .badnum (s.readFlags n bad)
  else s.afterOk (s.stream.dropBits (min n s.stream.size)) (s.readFlags n bad) val nb pay

/-- The fields of a binary64 pattern (R83): sign, biased exponent, fraction, as numbers. -/
def biasedExponent (p : Scalar) : Nat := p.toNat / 2 ^ 52 % 2 ^ 11

/-- Whether a pattern denotes a real number: it is neither a NaN nor an infinity. -/
abbrev IsFinite (p : Scalar) : Prop := biasedExponent p ≠ 2047

/-- The real number a finite binary64 pattern denotes (IEEE 754; log 16). -/
def realOf (p : Scalar) : ℚ :=
  (if p.toNat / 2 ^ 63 = 1 then (-1 : ℚ) else 1) *
    (if biasedExponent p = 0 then ((p.toNat % 2 ^ 52 : ℕ) : ℚ) / 2 ^ 1074
      else (2 ^ 52 + ((p.toNat % 2 ^ 52 : ℕ) : ℚ)) / 2 ^ 1075 * 2 ^ biasedExponent p)

/-- p is the binary64 number nearest to x; of two as near, the one whose last bit is 0. -/
def IsNearest (p : Scalar) (x : ℚ) : Prop :=
  IsFinite p ∧ ∀ q : Scalar, IsFinite q →
    |realOf p - x| < |realOf q - x| ∨ realOf q = realOf p ∨ (|realOf p - x| = |realOf q - x| ∧ p.getLsbD 0 = false)

/-- `in_a(c)` as R192 lists the members, on code-unit values. -/
def InAlphabet (a : Alphabet) (c : Cell16) : Prop :=
  let digit := 0x30 ≤ c.toNat ∧ c.toNat ≤ 0x39
  let upper := 0x41 ≤ c.toNat ∧ c.toNat ≤ 0x5A
  let lower := 0x61 ≤ c.toNat ∧ c.toNat ≤ 0x7A
  match a with
  | .a5 => digit ∨ c.toNat ∈ [0x2B, 0x2D, 0x2E, 0x20]
  | .a4 => lower ∨ c.toNat ∈ [0x20, 0x7C, 0x27, 0x2D, 0x2E, 0x2C]
  | .a3 => digit ∨ upper ∨ lower ∨ c.toNat ∈ [0x2C, 0x20]
  | .a2 => c.toNat ≤ 0x7F
  | .a1 => c.toNat ≤ 0xFF
  | .a0 => True

/-- The commands that write the stream (R251, R252). -/
def isWrite : Instr → Bool
  | .wbits _ _ | .wflag _ | .wu4 _ | .wu8 _ | .wu16 _ | .wu32 _ | .wflt _ | .wint _ | .wstr _ _ => true
  | .size | .rbits _ | .clr | .rflag | .ru4 | .ru8 | .ru16 | .ru32 | .rflt | .rint | .rstr | .getst | .setmode _
  | .clrst _ => false

/-- The commands that read the stream (R61, R252). -/
def isRead : Instr → Bool
  | .rbits _ | .rflag | .ru4 | .ru8 | .ru16 | .ru32 | .rflt | .rint | .rstr => true
  | .size | .wbits _ _ | .clr | .wflag _ | .wu4 _ | .wu8 _ | .wu16 _ | .wu32 _ | .wflt _ | .wint _ | .wstr _ _ | .getst
  | .setmode _ | .clrst _ => false

/-- The bits a fixed-width write command enters: `msb(v, w)` of the w low-order bits v of its operand (R53). None for a command
that writes no unsigned value of fixed width. -/
def fieldBits : Instr → Option (List Bool)
  | .wflag arg => some (msb (arg.toNat % 2 ^ 1) 1)
  | .wu4 arg => some (msb (arg.toNat % 2 ^ 4) 4)
  | .wu8 arg => some (msb (arg.toNat % 2 ^ 8) 8)
  | .wu16 arg => some (msb (arg.toNat % 2 ^ 16) 16)
  | .wu32 arg => some (msb (arg.toNat % 2 ^ 32) 32)
  | .size | .wbits _ _ | .rbits _ | .clr | .rflag | .ru4 | .ru8 | .ru16 | .ru32 | .wflt _ | .rflt | .wint _ | .rint
  | .wstr _ _ | .rstr | .getst | .setmode _ | .clrst _ => none

/-- The number of bits a read command cuts from the head, where its header alone says it (R59). -/
def cutWidth : Instr → Option Nat
  | .rbits cnt => some cnt.toNat
  | .rflag => some 1
  | .ru4 => some 4
  | .ru8 => some 8
  | .ru16 => some 16
  | .ru32 => some 32
  | .size | .wbits _ _ | .clr | .wflag _ | .wu4 _ | .wu8 _ | .wu16 _ | .wu32 _ | .wflt _ | .rflt | .wint _ | .rint
  | .wstr _ _ | .rstr | .getst | .setmode _ | .clrst _ => none

/-- The response of a read command that cuts the piece b: its words and bit count for RBITS (R122), else its value (R141). -/
def cutResponse (i : Instr) (b : List Bool) : Response :=
  if i.opcode = .rbits then
    { code := .ok, nb := BitVec.ofNat 20 b.length, val := BitVec.ofNat 64 b.length, pay := words b }
  else { code := .ok, nb := 0, val := BitVec.ofNat 64 (val b), pay := [] }

/-- The responses of read commands that cut the content b, one after the other, at the boundaries of their widths (R54). -/
def cutResponses : List Instr → List Bool → List Response
  | [], _ => []
  | i :: rest, b =>
    cutResponse i (b.take ((cutWidth i).getD 0)) :: cutResponses rest (b.drop ((cutWidth i).getD 0))

/-- Two blocks with the same content, cursors, registers, configuration and ports: they can differ only in the consumed bits
of the head cell (R27, R28 (a)). -/
structure SameBlock (s u : State) : Prop where
  bits : s.stream.bits = u.stream.bits
  ho : s.stream.ho = u.stream.ho
  tf : s.stream.tf = u.stream.tf
  strict : s.strict = u.strict
  status : s.status = u.status
  config : s.config = u.config
  pending : s.pending = u.pending
  responses : s.responses = u.responses

end Sys2Proof.Machine
end

