-- ==== Sys2Proof/Safety.lean ====
section
/-! DEFINITION. What a safe run is: the block never stops (70_reset_and_hazards.md R294; 60_exceptions.md R255); and the
execution of a list of commands. -/

namespace Sys2Proof.Machine

/-- Every event the ports will present is one they can carry (30_encoding.md R80). -/
abbrev State.Presentable (s : State) : Prop :=
  ∀ e ∈ s.pending, match e with
    | .command c => c.wellFormed = true
    | .reset => True

/-- The next step answers a state, and not a fault or a refusal. -/
def StepAnswers (s : State) : Prop := ∃ t, step s = .next t

/-- The states from which the block never stops: the block is well formed and its ports present what they can carry. -/
abbrev State.Safe (s : State) : Prop := s.WellFormed ∧ s.Presentable

/-- A run of k steps from s to t. -/
def StepsTo : Nat → State → State → Prop
  | 0, s, t => s = t
  | k + 1, s, t => ∃ u, step s = .next u ∧ StepsTo k u t

/-- The commands of a list, executed one after the other, take s to t (20_memory.md R60, R63). -/
def ExecsTo : List Instr → State → State → Prop
  | [], s, t => s = t
  | i :: rest, s, t => ∃ u, exec i s = .next u ∧ ExecsTo rest u t

end Sys2Proof.Machine
end

