-- ==== Sys2Proof/Certificates/Slice0/Obligations.lean ====
section
/-! DEFINITION. The statements about the block, for the provers. The vocabulary (content of a stream, `afterWrite`,
`afterRead`, `afterOk`, `afterError`, `fieldAt`, `stringBits`, `intBits`, `realOf`, `InAlphabet`) is Machine/Content.lean's; the
invariant is W1 to W6 of 10_state.md R25 (`State.WellFormed`). -/

namespace Sys2Proof.Machine

/-- Every command the port can carry whose header is h is the command f reads from its operands. -/
def HeaderSelects (h : Header) (f : Command → Instr) : Prop :=
  ∀ c : Command, c.hdr = h → c.wellFormed = true → decode c = .ok (f c)

/-- Conditions (a) to (d) of R89. -/
def IllegalHeader (h : Header) : Prop :=
  (∀ o : Opcode, h.extractLsb 31 24 ≠ o.code) ∨ h.extractLsb 22 20 ≠ 0 ∨
  (h.getLsbD 23 = true ∧ h.extractLsb 31 24 ≠ 0x30) ∨
  (h.extractLsb 19 0 ≠ 0 ∧ h.extractLsb 31 24 ≠ 0x02 ∧ h.extractLsb 31 24 ≠ 0x03)

/-- Format S of R82: the commands that use ARG. -/
def usesArg : Instr → Bool
  | .wflag _ | .wu4 _ | .wu8 _ | .wu16 _ | .wu32 _ | .wflt _ | .wint _ | .setmode _ | .clrst _ => true
  | .size | .wbits _ _ | .rbits _ | .clr | .rflag | .ru4 | .ru8 | .ru16 | .ru32 | .rflt | .rint | .wstr _ _ | .rstr
  | .getst => false

/-- Format P of R82: the commands that use PAY. -/
def usesPay : Instr → Bool
  | .wbits _ _ | .wstr _ _ => true
  | .size | .rbits _ | .clr | .wflag _ | .rflag | .wu4 _ | .ru4 | .wu8 _ | .ru8 | .wu16 _ | .ru16 | .wu32 _ | .ru32
  | .wflt _ | .rflt | .wint _ | .rint | .rstr | .getst | .setmode _ | .clrst _ => false

/-- s answers with the one response r and goes to t. -/
def Responds (i : Instr) (s t : State) (r : Response) : Prop :=
  exec i s = .next t ∧ t.responses = s.responses ++ [r]

end Sys2Proof.Machine

open Sys2Proof Sys2Proof.Machine

/-! ### Decoding and encoding -/

/-- R81, R82, R85: no bit of an encoding is dropped. -/
def Obligations.DecodeReversesEncode : Prop :=
  ∀ i : Instr, i.wellFormed = true → decode (encode i) = .ok i

/-- R80, R82: a decoded command is well formed and has the header its encoding has, and the parts its format does not use
are ignored. -/
def Obligations.DecodingUsesOnlyTheFormatsParts : Prop :=
  ∀ (c : Command) (i : Instr), decode c = .ok i →
    i.wellFormed = true ∧ (encode i).hdr = c.hdr ∧
    ∀ c' : Command, c'.hdr = c.hdr → c'.wellFormed = true → (usesArg i = true → c'.arg = c.arg) →
      (usesPay i = true → c'.pay = c.pay) → decode c' = .ok i

/-- R89, whole: a header is illegal exactly under (a) to (d), which is when no row of R85 matches; otherwise exactly one row
matches and its command executes; an illegal command sets STATUS.ILLEGAL, answers (ILLEGAL, 0, 0, empty) and changes nothing
else; ARG and PAY never make a command illegal. -/
def Obligations.HeaderSelectsOneRowOrIsIllegal : Prop :=
  ∀ c : Command, c.wellFormed = true →
    ((∃ e, decode c = .error e) ↔ IllegalHeader c.hdr) ∧
    (IllegalHeader c.hdr ↔ ∀ o : Opcode, o.selectedBy c.hdr = false) ∧
    (∀ i, decode c = .ok i → ∀ o : Opcode, o.selectedBy c.hdr = true ↔ o = i.opcode) ∧
    (∀ (s : State) (rest : List PortEvent), s.pending = .command c :: rest → IllegalHeader c.hdr →
      step s = .next { s with pending := rest, status := s.status ||| 0b10000,
                              responses := s.responses ++ [{ code := .illegal, nb := 0, val := 0, pay := [] }] })

/-- R85, R91: some headers written out from the table and the syntax, and the command each is. -/
def Obligations.SampleHeadersDecode : Prop :=
  decode ⟨0x01000000, 7, [0xFFFF]⟩ = .ok .size ∧
  decode ⟨0x02000005, 0, [0xB800]⟩ = .ok (.wbits 5 [0xB800]) ∧
  decode ⟨0x030FFFFF, 0, []⟩ = .ok (.rbits 1048575) ∧
  decode ⟨0x18000000, 0xDEADBEEF, []⟩ = .ok (.wu32 0xDEADBEEF) ∧
  decode ⟨0x21000000, 0, []⟩ = .ok .rint ∧
  decode ⟨0x30800000, 0, [0x41]⟩ = .ok (.wstr true [0x41]) ∧
  decode ⟨0x41000000, 1, []⟩ = .ok (.setmode 1) ∧
  decode ⟨0x00000000, 0, []⟩ = .error .reservedOpcode ∧
  decode ⟨0x01800000, 0, []⟩ = .error .foldOutsideWstr ∧
  decode ⟨0x30900000, 0, []⟩ = .error .reservedBits ∧
  decode ⟨0x42000001, 0, []⟩ = .error .countOutsideBits

/-! ### Steps -/

/-- R6, R60: a step takes the command the port presents and is the meaning of that command. (That commands stand in a queue
of State is the model's own, log 1.) -/
def Obligations.StepExecutesThePresentedCommand : Prop :=
  ∀ (s : State) (c : Command) (rest : List PortEvent) (i : Instr),
    s.pending = .command c :: rest → decode c = .ok i → step s = exec i { s with pending := rest }

/-- R263, R294: with nothing presented the block holds its state. -/
def Obligations.IdleBlockHoldsItsState : Prop :=
  ∀ s : State, s.pending = [] → step s = .next s

/-- R34, whole: the reset values, of the machine after reset and of any block after its reset input. -/
def Obligations.ResetGivesTheResetValues : Prop :=
  (∀ s : State, (s = State.reset ∨ ∃ s0 rest, s0.pending = .reset :: rest ∧ step s0 = .next s) →
    s.stream.cells = [] ∧ s.stream.ho = 0 ∧ s.stream.tf = 0 ∧ s.strict = false ∧ s.status = 0 ∧ s.stream.size = 0) ∧
  (∀ (s : State) (rest : List PortEvent), s.pending = .reset :: rest → ∃ t, step s = .next t)

/-- R25: reset establishes W1 to W6, whatever CAP the block has. -/
def Obligations.ResetIsWellFormed : Prop :=
  State.reset.WellFormed ∧ ∀ c : Config, c.Valid → (State.resetWith c).WellFormed

/-- R25: every step of the block keeps W1 to W6. -/
def Obligations.EveryStepKeepsWellFormed : Prop :=
  ∀ s t : State, s.WellFormed → step s = .next t → t.WellFormed

/-- R255, R294: the block never stops. From a well-formed block whose ports present what they can carry, every step answers,
and the state after it is again such a block. -/
def Obligations.WellFormedBlockNeverStops : Prop :=
  ∀ s : State, s.Safe → ∃ t, step s = .next t ∧ t.Safe

/-! ### The engine -/

/-- R120, R24, R112: SIZE answers the formula, which is never negative, and changes nothing. For a size of 2^64 or more, which
only an unbounded store can hold, VAL is free (the model's own: log 7, DESIGN CHOICE), and SIZE completes all the same. -/
def Obligations.SizeAnswersTheBitCount : Prop :=
  HeaderSelects 0x01000000 (fun _ => .size) ∧
  (∀ s : State, s.WellFormed →
    (s.stream.size : Int) =
      (s.stream.cells.length : Int) * 16 - s.stream.ho.toNat - (((16 - s.stream.tf.toNat) % 16 : Nat) : Int)) ∧
  (∀ s : State, s.WellFormed → ∃ v, exec .size s = .next (s.afterOk s.stream 0 v 0 []) ∧
    (s.stream.size < 2 ^ 64 → v.toNat = s.stream.size))

/-- R121: WBITS appends the first min(CNT, 16 * len(PAY)) bits of its payload; the clamp is OVERRUN. -/
def Obligations.WbitsAppendsTheClampedPayload : Prop :=
  (∀ (c : Command) (cnt : BitVec 20), c.hdr = 0x02000000 ||| cnt.setWidth 32 → c.wellFormed = true →
    decode c = .ok (.wbits cnt c.pay)) ∧
  ∀ (cnt : BitVec 20) (pay : List Cell16) (s : State), s.WellFormed →
    exec (.wbits cnt pay) s = .next (s.afterWrite ((unwords pay).take (min cnt.toNat (16 * pay.length)))
      (decide (cnt.toNat > 16 * pay.length)))

/-- R122: RBITS removes and answers the first min(CNT, size) bits, as words and a bit count. -/
def Obligations.RbitsRemovesTheFirstBits : Prop :=
  (∀ (c : Command) (cnt : BitVec 20), c.hdr = 0x03000000 ||| cnt.setWidth 32 → c.wellFormed = true →
    decode c = .ok (.rbits cnt)) ∧
  ∀ (cnt : BitVec 20) (s : State), s.WellFormed →
    exec (.rbits cnt) s = .next (s.afterRead cnt.toNat false (BitVec.ofNat 64 (min cnt.toNat s.stream.size))
      (BitVec.ofNat 20 (min cnt.toNat s.stream.size)) (words (s.stream.bits.take cnt.toNat)))

/-- R123: CLR empties the stream and keeps CTRL and STATUS. -/
def Obligations.ClrEmptiesTheStream : Prop :=
  HeaderSelects 0x04000000 (fun _ => .clr) ∧
  ∀ s : State, s.WellFormed → exec .clr s = .next (s.afterOk { cells := [], ho := 0, tf := 0 } 0 0 0 [])

/-! ### The primitive codec -/

/-- R142: WFLAG appends ARG[0]. -/
def Obligations.WflagAppendsOneBit : Prop :=
  HeaderSelects 0x10000000 (fun c => .wflag c.arg) ∧
  ∀ (arg : Scalar) (s : State), s.WellFormed → exec (.wflag arg) s = .next (s.afterWrite [arg.getLsbD 0] false)

/-- R143: RFLAG reads one bit, 0 when there is none. -/
def Obligations.RflagReadsOneBit : Prop :=
  HeaderSelects 0x11000000 (fun _ => .rflag) ∧
  ∀ s : State, s.WellFormed →
    exec .rflag s = .next (s.afterRead 1 false (BitVec.ofNat 64 (fieldAt s.stream.bits 1)) 0 [])

/-- R144: WU4 appends ARG modulo 2^4, most significant bit first. -/
def Obligations.Wu4AppendsFourBits : Prop :=
  HeaderSelects 0x12000000 (fun c => .wu4 c.arg) ∧
  ∀ (arg : Scalar) (s : State), s.WellFormed →
    exec (.wu4 arg) s = .next (s.afterWrite (msb (arg.toNat % 2 ^ 4) 4) false)

/-- R145: RU4 reads a 4-bit value, by the law of a short read where fewer bits are there. -/
def Obligations.Ru4ReadsFourBits : Prop :=
  HeaderSelects 0x13000000 (fun _ => .ru4) ∧
  ∀ s : State, s.WellFormed →
    exec .ru4 s = .next (s.afterRead 4 false (BitVec.ofNat 64 (fieldAt s.stream.bits 4)) 0 [])

/-- R146: WU8 appends ARG modulo 2^8, most significant bit first. -/
def Obligations.Wu8AppendsEightBits : Prop :=
  HeaderSelects 0x14000000 (fun c => .wu8 c.arg) ∧
  ∀ (arg : Scalar) (s : State), s.WellFormed →
    exec (.wu8 arg) s = .next (s.afterWrite (msb (arg.toNat % 2 ^ 8) 8) false)

/-- R147: RU8 reads an 8-bit value, by the law of a short read where fewer bits are there. -/
def Obligations.Ru8ReadsEightBits : Prop :=
  HeaderSelects 0x15000000 (fun _ => .ru8) ∧
  ∀ s : State, s.WellFormed →
    exec .ru8 s = .next (s.afterRead 8 false (BitVec.ofNat 64 (fieldAt s.stream.bits 8)) 0 [])

/-- R148: WU16 appends ARG modulo 2^16, most significant bit first. -/
def Obligations.Wu16AppendsSixteenBits : Prop :=
  HeaderSelects 0x16000000 (fun c => .wu16 c.arg) ∧
  ∀ (arg : Scalar) (s : State), s.WellFormed →
    exec (.wu16 arg) s = .next (s.afterWrite (msb (arg.toNat % 2 ^ 16) 16) false)

/-- R149: RU16 reads a 16-bit value, by the law of a short read where fewer bits are there. -/
def Obligations.Ru16ReadsSixteenBits : Prop :=
  HeaderSelects 0x17000000 (fun _ => .ru16) ∧
  ∀ s : State, s.WellFormed →
    exec .ru16 s = .next (s.afterRead 16 false (BitVec.ofNat 64 (fieldAt s.stream.bits 16)) 0 [])

/-- R150: WU32 appends ARG modulo 2^32, the high-order 16 bits first. -/
def Obligations.Wu32AppendsHighHalfFirst : Prop :=
  HeaderSelects 0x18000000 (fun c => .wu32 c.arg) ∧
  ∀ (arg : Scalar) (s : State), s.WellFormed →
    exec (.wu32 arg) s = .next (s.afterWrite
      (msb (arg.toNat % 2 ^ 32 / 2 ^ 16) 16 ++ msb (arg.toNat % 2 ^ 16) 16) false)

/-- R151: RU32 reads a 32-bit value, by the law of a short read where fewer bits are there. -/
def Obligations.Ru32ReadsThirtyTwoBits : Prop :=
  HeaderSelects 0x19000000 (fun _ => .ru32) ∧
  ∀ s : State, s.WellFormed →
    exec .ru32 s = .next (s.afterRead 32 false (BitVec.ofNat 64 (fieldAt s.stream.bits 32)) 0 [])

/-- R154: WFLT appends the 8 bits of QUANT(ARG), whatever the operand (QUANT is R153's; log 4). -/
def Obligations.WfltAppendsTheQuantisedByte : Prop :=
  HeaderSelects 0x1A000000 (fun c => .wflt c.arg) ∧
  ∀ (arg : Scalar) (s : State), s.WellFormed →
    quant arg < 256 ∧ exec (.wflt arg) s = .next (s.afterWrite (msb (quant arg) 8) false)

/-- R155: RFLT reads a byte e and answers the binary64 number nearest to e / 255; +0.0 for 0 and 1.0 for 255. What a pattern
denotes is IEEE 754's, which the spec names and does not define (log 16, PRESUMED). -/
def Obligations.RfltAnswersTheNearestQuotient : Prop :=
  HeaderSelects 0x1B000000 (fun _ => .rflt) ∧
  ∀ s : State, s.WellFormed → ∃ p : Scalar,
    IsNearest p ((fieldAt s.stream.bits 8 : ℕ) / 255) ∧
    (fieldAt s.stream.bits 8 = 0 → p = 0) ∧ (fieldAt s.stream.bits 8 = 255 → p = 0x3FF0000000000000) ∧
    exec .rflt s = .next (s.afterRead 8 false p 0 [])

/-- R153: QUANT is floor(v * 255 + 1/2) mod 256 on finite values and 0 on the others, and has P-QUANT. That QUANT is this
definition and no other function with P-QUANT is the model's choice (log 4); what a pattern denotes is IEEE 754's (log 16). -/
def Obligations.QuantRoundsHalfUp : Prop :=
  (∀ p : Scalar, IsFinite p → (quant p : ℤ) = ⌊realOf p * 255 + 1 / 2⌋ % 256) ∧
  (∀ p : Scalar, ¬ IsFinite p → quant p = 0) ∧
  (∀ p : Scalar, IsFinite p → 0 ≤ realOf p → realOf p ≤ 1 →
    quant p ≤ 255 ∧ |(quant p : ℚ) - 255 * realOf p| ≤ 1 / 2) ∧
  (∀ p : Scalar, IsFinite p → realOf p = 0 → quant p = 0) ∧
  (∀ p : Scalar, IsFinite p → realOf p = 1 → quant p = 255)

/-- R156: a value of [0, 1] comes back from WFLT and RFLT within 1/510 + 2^-53, and WFLT of an RFLT result writes the byte
that was read (logs 4 and 16). -/
def Obligations.FloatRoundTripError : Prop :=
  (∀ (s : State) (p : Scalar), s.WellFormed → s.stream.bits = [] → s.config.admits (s.stream.cellsAfter 8) = true →
    IsFinite p → 0 ≤ realOf p → realOf p ≤ 1 →
    ∃ t u q, exec (.wflt p) s = .next t ∧ Responds .rflt t u { code := .ok, nb := 0, val := q, pay := [] } ∧
      IsFinite q ∧ |realOf q - realOf p| ≤ 1 / 510 + 1 / 2 ^ 53) ∧
  ((1 : ℚ) / 510 + 1 / 2 ^ 53 < 1 / 255) ∧
  (∀ e : Nat, e < 256 → quant (binary64Of255ths e) = e)

/-! ### The compact integer codec -/

/-- R170, R171: WINT appends the tags and the narrowest body that fits its operand, or three false tags and the decimal
text. -/
def Obligations.WintAppendsTheNarrowestForm : Prop :=
  HeaderSelects 0x20000000 (fun c => .wint c.arg) ∧
  ∀ (arg : Scalar) (s : State), s.WellFormed →
    (0 ≤ arg.toInt → arg.toInt ≤ 255 →
      exec (.wint arg) s = .next (s.afterWrite ([true] ++ msb arg.toNat 8) false)) ∧
    (256 ≤ arg.toInt → arg.toInt ≤ 65535 →
      exec (.wint arg) s = .next (s.afterWrite ([false, true] ++ msb arg.toNat 16) false)) ∧
    (65536 ≤ arg.toInt → arg.toInt ≤ 4294967295 →
      exec (.wint arg) s = .next (s.afterWrite ([false, false, true] ++ msb arg.toNat 32) false)) ∧
    (arg.toInt < 0 ∨ 4294967296 ≤ arg.toInt →
      exec (.wint arg) s = .next (s.afterWrite ([false, false, false] ++ stringBits (decimalText arg.toInt)) false))

/-- R172: RINT reads tags until the first that is 1, then the body they announce, missing bits counting as zero; a fallback
text that is no decimal integer in range yields 0 and BADNUM. -/
def Obligations.RintReadsWhatTheTagsAnnounce : Prop :=
  HeaderSelects 0x21000000 (fun _ => .rint) ∧
  ∀ s : State, s.WellFormed →
    (fieldAt s.stream.bits 1 = 1 →
      exec .rint s = .next (s.afterRead 9 false (BitVec.ofNat 64 (fieldAt (s.stream.bits.drop 1) 8)) 0 [])) ∧
    (fieldAt s.stream.bits 1 = 0 → fieldAt (s.stream.bits.drop 1) 1 = 1 →
      exec .rint s = .next (s.afterRead 18 false (BitVec.ofNat 64 (fieldAt (s.stream.bits.drop 2) 16)) 0 [])) ∧
    (fieldAt s.stream.bits 1 = 0 → fieldAt (s.stream.bits.drop 1) 1 = 0 → fieldAt (s.stream.bits.drop 2) 1 = 1 →
      exec .rint s = .next (s.afterRead 35 false (BitVec.ofNat 64 (fieldAt (s.stream.bits.drop 3) 32)) 0 [])) ∧
    (fieldAt s.stream.bits 1 = 0 → fieldAt (s.stream.bits.drop 1) 1 = 0 → fieldAt (s.stream.bits.drop 2) 1 = 0 →
      exec .rint s = .next (s.afterRead (3 + textBits (s.stream.bits.drop 3))
        (parseInt (textChars (s.stream.bits.drop 3))).isNone
        (BitVec.ofInt 64 ((parseInt (textChars (s.stream.bits.drop 3))).getD 0)) 0 []))

/-- R174: the decimal text is `-` for a negative integer, then its digits without leading zero; it is 10 to 19 characters
long from 2^32 up and 2 to 20 below 0, every character is a member of alphabet 5, and the fallback takes
3 + 4 + 16 + 4 * L bits. -/
def Obligations.DecimalTextIsCanonical : Prop :=
  ∀ v : Int, -(2 ^ 63) ≤ v → v < 2 ^ 63 →
    (∃ ds : List Cell16, decimalText v = (if v < 0 then [0x2D] else []) ++ ds ∧
      (∀ c ∈ ds, 0x30 ≤ c.toNat ∧ c.toNat ≤ 0x39) ∧
      ds.foldl (fun acc c => 10 * acc + (c.toNat - 0x30)) 0 = v.natAbs ∧
      ds ≠ [] ∧ (v ≠ 0 → ds.head? ≠ some 0x30)) ∧
    (2 ^ 32 ≤ v → 10 ≤ (decimalText v).length ∧ (decimalText v).length ≤ 19) ∧
    (v < 0 → 2 ≤ (decimalText v).length ∧ (decimalText v).length ≤ 20) ∧
    (∀ c ∈ decimalText v, InAlphabet .a5 c) ∧
    (v < 0 ∨ 2 ^ 32 ≤ v → (intBits v).length = 3 + 4 + 16 + 4 * (decimalText v).length)

/-- R175: the texts `parse` accepts are exactly `-? digit+` with a value of 64 bits, and it gives their value. -/
def Obligations.ParseAcceptsExactlyDecimals : Prop :=
  ∀ (u : List Cell16) (v : Int), parseInt u = some v ↔
    ∃ (neg : Bool) (ds : List Cell16), u = (if neg then [0x2D] else []) ++ ds ∧ ds ≠ [] ∧
      (∀ c ∈ ds, 0x30 ≤ c.toNat ∧ c.toNat ≤ 0x39) ∧
      v = (if neg then -1 else 1) * ((ds.foldl (fun acc c => 10 * acc + (c.toNat - 0x30)) 0 : Nat) : Int) ∧
      -(2 ^ 63) ≤ v ∧ v ≤ 2 ^ 63 - 1

/-- R176: every 64-bit integer comes back, on a block that held nothing else and leaves nothing, and RINT consumes exactly
the bits WINT appends wherever they are at the head. -/
def Obligations.WintRintRoundTrip : Prop :=
  (∀ (arg : Scalar) (s : State), s.WellFormed → s.stream.bits = [] →
    s.config.admits (s.stream.cellsAfter (intBits arg.toInt).length) = true →
    ∃ t u, exec (.wint arg) s = .next t ∧ Responds .rint t u { code := .ok, nb := 0, val := arg, pay := [] } ∧
      u.stream.size = 0) ∧
  (∀ (arg : Scalar) (t : State) (rest : List Bool), t.WellFormed → t.stream.bits = intBits arg.toInt ++ rest →
    exec .rint t = .next (t.afterOk (t.stream.dropBits (intBits arg.toInt).length) 0 arg 0 []))

/-! ### The text codec -/

/-- R193 with the members of R192: the classifier gives the alphabet that covers every character while no narrower one
does. -/
def Obligations.ClassifierPicksTheNarrowest : Prop :=
  ∀ (u : List Cell16) (a : Alphabet), classify u = a ↔
    (∀ c ∈ u, InAlphabet a c) ∧ ∀ b : Alphabet, a.id < b.id → ∃ c ∈ u, ¬ InAlphabet b c

/-- R194 to R197: a member's symbol code fits the width and decodes to the member; every code of an alphabet but 5 is
produced, and codes 1 and 15 of alphabet 5, which no member has, decode to `,` and `:`; and the code of every member, and the
character of every code, is the one its rule gives. -/
def Obligations.SymbolMapsAreInverse : Prop :=
  (∀ (a : Alphabet) (c : Cell16), InAlphabet a c → a.enc c < 2 ^ a.width ∧ a.dec (a.enc c) = c) ∧
  (∀ (a : Alphabet) (k : Nat), a ≠ .a5 → k < 2 ^ a.width → InAlphabet a (a.dec k) ∧ a.enc (a.dec k) = k) ∧
  Alphabet.a5.dec 1 = 0x2C ∧ Alphabet.a5.dec 15 = 0x3A ∧ Alphabet.a5.enc 0x20 = 4 ∧
  (∀ c : Cell16, InAlphabet .a5 c → Alphabet.a5.enc c ≠ 1 ∧ Alphabet.a5.enc c ≠ 15 ∧
    (c ≠ 0x20 → Alphabet.a5.enc c + 43 = c.toNat)) ∧
  (∀ k : Nat, k < 16 → k ≠ 4 → (Alphabet.a5.dec k).toNat = k + 43) ∧
  (∀ c : Cell16, 0x61 ≤ c.toNat → c.toNat ≤ 0x7A → Alphabet.a4.enc c + 97 = c.toNat) ∧
  ([0x20, 0x7C, 0x27, 0x2D, 0x2E, 0x2C] : List Cell16).map Alphabet.a4.enc = [26, 27, 28, 29, 30, 31] ∧
  (∀ c : Cell16, 0x30 ≤ c.toNat → c.toNat ≤ 0x39 → Alphabet.a3.enc c + 48 = c.toNat) ∧
  (∀ c : Cell16, 0x41 ≤ c.toNat → c.toNat ≤ 0x5A → Alphabet.a3.enc c + 55 = c.toNat) ∧
  (∀ c : Cell16, 0x61 ≤ c.toNat → c.toNat ≤ 0x7A → Alphabet.a3.enc c + 61 = c.toNat) ∧
  ([0x2C, 0x20] : List Cell16).map Alphabet.a3.enc = [62, 63] ∧
  (∀ (a : Alphabet) (c : Cell16), a.id ≤ 2 → InAlphabet a c → a.enc c = c.toNat)

/-- R198: the widths, and the alphabet the reader takes for each discriminator. -/
def Obligations.ReaderTakesTheNamedAlphabet : Prop :=
  (∀ d : Nat, d < 16 → (Alphabet.ofDiscriminator d).id = if 1 ≤ d ∧ d ≤ 5 then d else 0) ∧
  (∀ a : Alphabet, (a.id, a.width) ∈ [(5, 4), (4, 5), (3, 6), (2, 7), (1, 8), (0, 16)])

/-- R201: WSTR appends the layout of its text, folded when FOLD = 1 (the fold of R199; log 5). -/
def Obligations.WstrAppendsTheString : Prop :=
  (∀ (c : Command) (fold : Bool), c.hdr = (if fold then 0x30800000 else 0x30000000) → c.wellFormed = true →
    decode c = .ok (.wstr fold c.pay)) ∧
  ∀ (fold : Bool) (pay : List Cell16) (s : State), s.WellFormed → pay.length ≤ 65535 →
    ∀ u : List Cell16,
      u = (if fold then pay.map (fun c => if 0x41 ≤ c.toNat ∧ c.toNat ≤ 0x5A then c + 0x20 else c) else pay) →
      exec (.wstr fold pay) s = .next (s.afterWrite
        (msb (classify u).id 4 ++ msb u.length 16 ++
          u.flatMap (fun c => msb ((classify u).enc c) (classify u).width)) false)

/-- R202: RSTR reads discriminator, length and exactly that many characters, missing bits counting as zero. -/
def Obligations.RstrReadsTheString : Prop :=
  HeaderSelects 0x31000000 (fun _ => .rstr) ∧
  ∀ (s : State) (d l : Nat) (a : Alphabet), s.WellFormed →
    d = fieldAt s.stream.bits 4 → l = fieldAt (s.stream.bits.drop 4) 16 → a = Alphabet.ofDiscriminator d →
    exec .rstr s = .next (s.afterRead (20 + a.width * l) false (BitVec.ofNat 64 d) (BitVec.ofNat 20 l)
      ((List.range l).map fun i => a.dec (fieldAt (s.stream.bits.drop (20 + a.width * i)) a.width)))

/-- R203: every string of at most 65535 code units comes back exactly, and with FOLD = 1 its folded form, on a block that
held nothing else and leaves nothing, and wherever the string is at the head (the fold of R199; log 5). -/
def Obligations.WstrRstrRoundTrip : Prop :=
  (∀ (fold : Bool) (pay : List Cell16) (s : State), s.WellFormed → s.stream.bits = [] → pay.length ≤ 65535 →
    s.config.admits (s.stream.cellsAfter (stringBits (foldText fold pay)).length) = true →
    ∃ t u d, exec (.wstr fold pay) s = .next t ∧
      Responds .rstr t u { code := .ok, nb := BitVec.ofNat 20 pay.length, val := d,
                           pay := if fold then pay.map (fun c => if 0x41 ≤ c.toNat ∧ c.toNat ≤ 0x5A then c + 0x20 else c)
                             else pay } ∧
      u.stream.size = 0) ∧
  (∀ (u : List Cell16) (t : State) (rest : List Bool), t.WellFormed → u.length ≤ 65535 →
    t.stream.bits = stringBits u ++ rest →
    exec .rstr t = .next (t.afterOk (t.stream.dropBits (stringBits u).length) 0 (BitVec.ofNat 64 (classify u).id)
      (BitVec.ofNat 20 u.length) u))

/-! ### The system commands -/

/-- R230: GETST answers STATUS in bits 4:0 and STRICT in bit 8, and changes nothing. -/
def Obligations.GetstAnswersStatusAndMode : Prop :=
  HeaderSelects 0x40000000 (fun _ => .getst) ∧
  ∀ s : State, s.WellFormed →
    exec .getst s = .next (s.afterOk s.stream 0 (s.status.setWidth 64 ||| if s.strict then 0x100 else 0) 0 [])

/-- R231: SETMODE writes ARG[0] to STRICT and changes nothing else, in both modes. -/
def Obligations.SetmodeWritesStrict : Prop :=
  HeaderSelects 0x41000000 (fun c => .setmode c.arg) ∧
  ∀ (arg : Scalar) (s : State), s.WellFormed →
    exec (.setmode arg) s = .next { s with strict := arg.getLsbD 0,
                                           responses := s.responses ++ [{ code := .ok, nb := 0, val := 0, pay := [] }] }

/-- R232: CLRST clears the STATUS flags whose bits are set in ARG[4:0] and changes nothing else. -/
def Obligations.ClrstClearsTheChosenFlags : Prop :=
  HeaderSelects 0x42000000 (fun c => .clrst c.arg) ∧
  ∀ (arg : Scalar) (s : State), s.WellFormed →
    exec (.clrst arg) s = .next { s with status := s.status &&& ~~~(arg.setWidth 5),
                                         responses := s.responses ++ [{ code := .ok, nb := 0, val := 0, pay := [] }] }

/-- R281, whole: CLR gives the stream registers their reset values and keeps CTRL and STATUS; reset gives every register its
reset value; CLR, SETMODE 0, CLRST 0x1F do what reset does. -/
def Obligations.ClrSetmodeClrstAmountToReset : Prop :=
  ∀ s : State, s.WellFormed →
    (∀ rest, s.pending = .reset :: rest → ∃ t, step s = .next t ∧
      t.stream = { cells := [], ho := 0, tf := 0 } ∧ t.strict = false ∧ t.status = 0) ∧
    ∃ t1 t2 t3, exec .clr s = .next t1 ∧
      t1.stream = { cells := [], ho := 0, tf := 0 } ∧ t1.strict = s.strict ∧ t1.status = s.status ∧
      exec (.setmode 0) t1 = .next t2 ∧ exec (.clrst 0x1F) t2 = .next t3 ∧
      t3.stream = { cells := [], ho := 0, tf := 0 } ∧ t3.strict = false ∧ t3.status = 0 ∧
      t3.config = s.config ∧ t3.pending = s.pending

/-! ### Frames -/

/-- R22, R52, R251: a write command leaves HO, CTRL, the configuration and the port as they were, every stored bit where it
was, every cell before the tail (and a full tail cell) unchanged, and every STATUS flag but OVERFLOW, and OVERRUN for
WBITS. -/
def Obligations.WriteCommandsFrame : Prop :=
  ∀ (i : Instr) (s t : State), isWrite i = true → exec i s = .next t →
    t.stream.ho = s.stream.ho ∧ t.strict = s.strict ∧ t.config = s.config ∧ t.pending = s.pending ∧
    s.stream.stored <+: t.stream.stored ∧
    (∀ j, j < s.stream.cells.length → (j + 1 < s.stream.cells.length ∨ s.stream.tf = 0) →
      t.stream.memRead j = s.stream.memRead j) ∧
    t.status &&& 0b10101 = s.status &&& 0b10101 ∧
    (i.opcode ≠ .wbits → t.status &&& 0b10111 = s.status &&& 0b10111) ∧
    ∃ r, t.responses = s.responses ++ [r]

/-- R21, R51, R251: a read command leaves TF, CTRL, the configuration and the port as they were, drops from the head the
cells whose last bit position it passed and changes no other cell, and leaves every STATUS flag but UNDERRUN, and BADNUM for
RINT. -/
def Obligations.ReadCommandsFrame : Prop :=
  ∀ (i : Instr) (s t : State), isRead i = true → exec i s = .next t →
    t.stream.tf = s.stream.tf ∧ t.strict = s.strict ∧ t.config = s.config ∧ t.pending = s.pending ∧
    t.stream.size ≤ s.stream.size ∧
    (∀ j, t.stream.memRead j =
      s.stream.memRead (j + (s.stream.ho.toNat + (s.stream.size - t.stream.size)) / 16)) ∧
    t.status &&& 0b11010 = s.status &&& 0b11010 ∧
    (i.opcode ≠ .rint → t.status &&& 0b11110 = s.status &&& 0b11110) ∧
    ∃ r, t.responses = s.responses ++ [r]

/-- R20 to R22, R29, R30, R33: each register has its writers. No command but a read, a write or CLR changes a cell; only
reads and CLR change HO, only writes and CLR change TF, only SETMODE changes CTRL, only CLRST clears a flag; none changes the
configuration. -/
def Obligations.EachRegisterHasItsWriters : Prop :=
  ∀ (i : Instr) (s t : State), exec i s = .next t →
    (isRead i = false → isWrite i = false → i ≠ .clr → t.stream = s.stream ∧ (i.opcode ≠ .clrst → t.status = s.status)) ∧
    (isRead i = false → i ≠ .clr → t.stream.ho = s.stream.ho) ∧
    (isWrite i = false → i ≠ .clr → t.stream.tf = s.stream.tf) ∧
    (i.opcode ≠ .setmode → t.strict = s.strict) ∧
    (i.opcode ≠ .clrst → s.status &&& t.status = s.status) ∧
    t.config = s.config ∧ t.pending = s.pending

/-! ### Errors, responses, whole-machine rules -/

/-- R255: errors are precise. A command that answers an error leaves everything as it was but the sticky flags. -/
def Obligations.ErrorsArePrecise : Prop :=
  ∀ (i : Instr) (s t : State) (r : Response), Responds i s t r → r.code ≠ .ok →
    t = { s with status := t.status, responses := s.responses ++ [{ code := r.code, nb := 0, val := 0, pay := [] }] } ∧
    s.status &&& t.status = s.status

/-- R252: which commands answer which error code, in which mode, and the flag each records. -/
def Obligations.ErrorCodesHaveTheirCauses : Prop :=
  ∀ (i : Instr) (s t : State) (r : Response), Responds i s t r →
    (r.code = .underrun → s.strict = true ∧ isRead i = true ∧ t.status.getLsbD 0 = true) ∧
    (r.code = .overrun → s.strict = true ∧ i.opcode = .wbits ∧ t.status.getLsbD 1 = true) ∧
    (r.code = .badnum → s.strict = true ∧ i.opcode = .rint ∧ t.status.getLsbD 2 = true) ∧
    (r.code = .overflow → isWrite i = true ∧ s.config.cap ≠ none ∧ t.status.getLsbD 3 = true) ∧
    r.code ≠ .illegal

/-- R86, R256: a step on a presented command gives exactly one response, the last, and an error response has zero VAL and NB
and an empty PAY. -/
def Obligations.EachCommandGivesOneResponse : Prop :=
  ∀ (s t : State) (c : Command) (rest : List PortEvent), s.pending = .command c :: rest → step s = .next t →
    t.pending = rest ∧ ∃ r, t.responses = s.responses ++ [r] ∧
      (r.code ≠ .ok → r.nb = 0 ∧ r.val = 0 ∧ r.pay = [])

/-- The model's two stops, which no block and no host can bring about (logs 8 and 9): a command on a state that breaks W1 to W6
of R25 faults, and a command with more payload words than R80 allows is refused. Nothing else stops: a fault, of a command or
of a step, comes from such a state, a refusal of a step from such a command, and no command is refused by exec. -/
def Obligations.OnlyTheImpossibleStops : Prop :=
  (∀ (i : Instr) (s : State), ¬ s.WellFormed → exec i s = .fault .illFormedState) ∧
  (∀ (s : State) (c : Command) (rest : List PortEvent), s.pending = .command c :: rest → 65535 < c.pay.length →
    step s = .refused .payloadTooLong) ∧
  (∀ (i : Instr) (s : State) (f : Fault), exec i s = .fault f → ¬ s.WellFormed) ∧
  (∀ (i : Instr) (s : State) (r : Refusal), exec i s ≠ .refused r) ∧
  (∀ (s : State) (f : Fault), step s = .fault f → ¬ s.WellFormed) ∧
  (∀ (s : State) (r : Refusal), step s = .refused r →
    ∃ (c : Command) (rest : List PortEvent), s.pending = .command c :: rest ∧ 65535 < c.pay.length)

/-- R250, R252: in lenient mode an unbounded block answers OK to every command. -/
def Obligations.LenientUnboundedBlockAnswersOk : Prop :=
  ∀ (i : Instr) (s : State), s.WellFormed → s.strict = false → s.config.cap = none →
    ∃ t r, Responds i s t r ∧ r.code = .ok

/-- R30: a STATUS flag is cleared only by CLRST and by reset. -/
def Obligations.FlagsAreSticky : Prop :=
  ∀ s t : State, step s = .next t → (∀ rest, s.pending ≠ .reset :: rest) →
    (∀ c rest, s.pending = .command c :: rest → ∀ arg, decode c ≠ .ok (.clrst arg)) →
    s.status &&& t.status = s.status

/-- R30: no command's data result depends on STATUS (GETST's result is STATUS itself). -/
def Obligations.DataResultsIgnoreStatus : Prop :=
  ∀ (i : Instr) (s t : State) (x : BitVec 5), exec i s = .next t → i ≠ .getst →
    ∃ u, exec i { s with status := x } = .next u ∧ u.stream = t.stream ∧ u.responses = t.responses ∧ u.strict = t.strict

/-- R27, R28: two blocks with equal content, HO, TF, CTRL, STATUS and CAP answer every command alike and stay alike, whatever
the consumed bits of their head cells. -/
def Obligations.ConsumedBitsAreUnobservable : Prop :=
  ∀ (i : Instr) (s s' t : State), s.WellFormed → s'.WellFormed → SameBlock s s' → exec i s = .next t →
    ∃ t', exec i s' = .next t' ∧ SameBlock t t'

/-- R83, U19: the bits of ARG a command does not use make no difference. -/
def Obligations.UnusedOperandBitsAreIgnored : Prop :=
  ∀ (x y : Scalar) (s : State),
    (x.getLsbD 0 = y.getLsbD 0 → exec (.wflag x) s = exec (.wflag y) s ∧ exec (.setmode x) s = exec (.setmode y) s) ∧
    (x.setWidth 4 = y.setWidth 4 → exec (.wu4 x) s = exec (.wu4 y) s) ∧
    (x.setWidth 5 = y.setWidth 5 → exec (.clrst x) s = exec (.clrst y) s) ∧
    (x.setWidth 8 = y.setWidth 8 → exec (.wu8 x) s = exec (.wu8 y) s) ∧
    (x.setWidth 16 = y.setWidth 16 → exec (.wu16 x) s = exec (.wu16 y) s) ∧
    (x.setWidth 32 = y.setWidth 32 → exec (.wu32 x) s = exec (.wu32 y) s)

/-- R55, U2: the bits of a WBITS payload beyond the count make no difference. -/
def Obligations.PayloadBeyondTheCountIsIgnored : Prop :=
  ∀ (cnt : BitVec 20) (p q : List Cell16) (s : State), s.WellFormed → p.length = q.length →
    (unwords p).take cnt.toNat = (unwords q).take cnt.toNat → exec (.wbits cnt p) s = exec (.wbits cnt q) s

/-- R293 and L1, L3 of R113: the bits a write command appends depend on its operands alone; they come after the content, VAL
counts them, and the size grows by as many. -/
def Obligations.WritesAppendTheSameBitsEverywhere : Prop :=
  ∀ i : Instr, isWrite i = true → i.wellFormed = true → ∃ b : List Bool,
    ∀ (s t : State) (r : Response), Responds i s t r → r.code = .ok →
      t.stream.bits = s.stream.bits ++ b ∧ r.val.toNat = b.length ∧ t.stream.size = s.stream.size + b.length

/-- R53, R54: values written at any of the widths 1, 4, 8, 16 and 32 stand in the stream as their bits, most significant
first, with nothing between them, and reads at any widths, RBITS of any count among them, answer these bits cut at the new
boundaries. Then the two examples of R54, for every operand. -/
def Obligations.MixedWidthsSeeTheSameBits : Prop :=
  (∀ (writes reads : List Instr) (s : State) (b : List Bool), s.WellFormed →
    (∀ i ∈ writes, fieldBits i ≠ none) → (∀ i ∈ reads, cutWidth i ≠ none) →
    b = writes.flatMap (fun i => (fieldBits i).getD []) →
    s.config.admits (s.stream.cellsAfter b.length) = true →
    (reads.map fun i => (cutWidth i).getD 0).sum ≤ s.stream.size + b.length →
    ∃ t u, ExecsTo writes s t ∧ t.stream.bits = s.stream.bits ++ b ∧ ExecsTo reads t u ∧
      u.responses = t.responses ++ cutResponses reads (s.stream.bits ++ b) ∧
      u.stream.bits = (s.stream.bits ++ b).drop (reads.map fun i => (cutWidth i).getD 0).sum) ∧
  ∀ (v : Scalar) (s : State), s.WellFormed → s.stream.bits = [] → s.config.admits (s.stream.cellsAfter 16) = true →
    (∃ t t1 t2 t3 t4, exec (.wu16 v) s = .next t ∧ exec .ru4 t = .next t1 ∧ exec .ru4 t1 = .next t2 ∧
      exec .ru4 t2 = .next t3 ∧ exec .ru4 t3 = .next t4 ∧
      t4.responses = t.responses ++
        [{ code := .ok, nb := 0, val := (v.extractLsb 15 12).setWidth 64, pay := [] },
         { code := .ok, nb := 0, val := (v.extractLsb 11 8).setWidth 64, pay := [] },
         { code := .ok, nb := 0, val := (v.extractLsb 7 4).setWidth 64, pay := [] },
         { code := .ok, nb := 0, val := (v.extractLsb 3 0).setWidth 64, pay := [] }]) ∧
    (∀ w : Scalar, ∃ t t1 u, exec (.wu8 v) s = .next t ∧ exec (.wu8 w) t = .next t1 ∧
      Responds .ru16 t1 u { code := .ok, nb := 0, val := BitVec.ofNat 64 (v.toNat % 256 * 256 + w.toNat % 256), pay := [] })

/-- R68: the words and the bit count RBITS answers, given to WBITS of an empty block, carry the content over. (1 048 560 bits
are the most that the 65535 words of one payload hold.) -/
def Obligations.StreamMovesBetweenBlocks : Prop :=
  ∀ s d : State, s.WellFormed → d.WellFormed → d.stream = { cells := [], ho := 0, tf := 0 } →
    s.stream.size ≤ 1048560 → d.config.admits (ceil16 s.stream.size) = true →
    ∃ t u ws, Responds (.rbits (BitVec.ofNat 20 s.stream.size)) s t
        { code := .ok, nb := BitVec.ofNat 20 s.stream.size, val := BitVec.ofNat 64 s.stream.size, pay := ws } ∧
      t.stream.size = 0 ∧ ws.length ≤ 65535 ∧
      Responds (.wbits (BitVec.ofNat 20 s.stream.size) ws) d u
        { code := .ok, nb := 0, val := BitVec.ofNat 64 s.stream.size, pay := [] } ∧
      u.stream.bits = s.stream.bits ∧ u.stream.ho = 0

/-- R87, R88: the response header word, and the six completion codes. -/
def Obligations.ResponseHeaderLaysOutCodeAndCount : Prop :=
  (∀ r : Response, r.header.extractLsb 31 28 = r.code.toBits ∧ r.header.extractLsb 27 20 = 0 ∧
    r.header.extractLsb 19 0 = r.nb) ∧
  Code.ok.toBits = 0 ∧ Code.underrun.toBits = 1 ∧ Code.overrun.toBits = 2 ∧ Code.badnum.toBits = 3 ∧
  Code.overflow.toBits = 4 ∧ Code.illegal.toBits = 5
end

