-- ==== Sys2Proof/Laws/Bits.lean ====
section
/-! SUPPORT. Laws of bit sequences and of words (00_scope.md R9, R10): `val` and `msb` are inverse, `unwords` and `words` are
inverse, and what masks and shifts do to the 16 bits of a word. -/

namespace Sys2Proof.Machine

/-! ### msb and val -/

@[simp] theorem msb_length (v w : Nat) : (msb v w).length = w := by simp [msb]

@[simp] theorem msb_zero (v : Nat) : msb v 0 = [] := rfl

theorem msb_getElem (v w i : Nat) (h : i < (msb v w).length) : (msb v w)[i] = v.testBit (w - 1 - i) := by
  simp [msb]

theorem msb_succ (v w : Nat) : msb v (w + 1) = msb (v / 2) w ++ [v.testBit 0] := by
  simp only [msb, List.range_succ, List.map_append, List.map_cons, List.map_nil]
  congr 1
  · refine List.map_congr_left fun i hi => ?_
    have : i < w := List.mem_range.mp hi
    rw [← Nat.testBit_succ]; congr 1; omega
  · simp

@[simp] theorem val_nil : val [] = 0 := rfl

theorem val_concat (b : List Bool) (x : Bool) : val (b ++ [x]) = 2 * val b + x.toNat := by
  simp [val, List.foldl_append]

theorem val_append (a b : List Bool) : val (a ++ b) = val a * 2 ^ b.length + val b := by
  induction b using List.reverseRecOn with
  | nil => simp
  | append_singleton b x ih =>
    rw [← List.append_assoc, val_concat, ih, val_concat, List.length_append, List.length_singleton, pow_succ]
    ring

theorem val_lt (b : List Bool) : val b < 2 ^ b.length := by
  induction b using List.reverseRecOn with
  | nil => simp
  | append_singleton b x ih =>
    rw [val_concat, List.length_append, List.length_singleton, pow_succ]
    cases x <;> simp <;> omega

theorem val_msb {v w : Nat} (h : v < 2 ^ w) : val (msb v w) = v := by
  induction w generalizing v with
  | zero => simp at h; simp [h]
  | succ w ih =>
    rw [msb_succ, val_concat, ih (by rw [pow_succ] at h; omega), Nat.testBit_zero]
    rcases Nat.mod_two_eq_zero_or_one v with h0 | h0
    · simp [h0]; omega
    · simp [h0]; omega

theorem msb_val (b : List Bool) : msb (val b) b.length = b := by
  induction b using List.reverseRecOn with
  | nil => rfl
  | append_singleton b x ih =>
    rw [List.length_append, List.length_singleton, msb_succ, val_concat]
    have h2 : (2 * val b + x.toNat) / 2 = val b := by have := Bool.toNat_lt x; omega
    have h3 : (2 * val b + x.toNat).testBit 0 = x := by cases x <;> simp [Nat.testBit_zero]
    rw [h2, ih, h3]

theorem msb_append (a b j k : Nat) (h : b < 2 ^ k) : msb (a * 2 ^ k + b) (j + k) = msb a j ++ msb b k := by
  induction k generalizing b with
  | zero => simp at h; simp [h]
  | succ k ih =>
    rw [← Nat.add_assoc, msb_succ, msb_succ b]
    have h1 : (a * 2 ^ (k + 1) + b) / 2 = a * 2 ^ k + b / 2 := by rw [pow_succ, ← Nat.mul_assoc]; omega
    have h2 : (a * 2 ^ (k + 1) + b).testBit 0 = b.testBit 0 := by
      simp only [Nat.testBit_zero, pow_succ]; congr 1; rw [← Nat.mul_assoc, Nat.mul_add_mod_self_right]
    rw [h1, ih (b / 2) (by rw [pow_succ] at h; omega), h2, List.append_assoc]

theorem val_replicate_false (n : Nat) : val (List.replicate n false) = 0 := by
  induction n with
  | zero => rfl
  | succ n ih => rw [List.replicate_succ', val_concat, ih]; rfl

/-! ### The 16 bits of a word -/

@[simp] theorem wordBits_length (w : Cell16) : (wordBits w).length = 16 := by simp [wordBits]

theorem wordBits_getElem (w : Cell16) (i : Nat) (h : i < (wordBits w).length) :
    (wordBits w)[i] = w.getLsbD (15 - i) := by
  simp only [wordBits, msb_getElem, BitVec.getLsbD]

theorem wordBits_inj {a b : Cell16} (h : wordBits a = wordBits b) : a = b := by
  have ha : val (wordBits a) = a.toNat := val_msb a.isLt
  have hb : val (wordBits b) = b.toNat := val_msb b.isLt
  exact BitVec.eq_of_toNat_eq (by rw [← ha, ← hb, h])

theorem hi16_getLsbD (k j : Nat) (hk : k ≤ 16) (hj : j < 16) : (hi16 k).getLsbD j = decide (16 - k ≤ j) := by
  have : ∀ k ≤ 16, ∀ j < 16, (hi16 k).getLsbD j = decide (16 - k ≤ j) := by decide
  exact this k hk j hj

theorem wordBits_and_hi16 (w : Cell16) (k : Nat) (hk : k ≤ 16) :
    wordBits (w &&& hi16 k) = (wordBits w).take k ++ List.replicate (16 - k) false := by
  refine List.ext_getElem (by simp; omega) fun i h1 _ => ?_
  have hi : i < 16 := by simpa using h1
  rw [wordBits_getElem, BitVec.getLsbD_and, hi16_getLsbD _ _ hk (by omega)]
  by_cases hik : i < k
  · rw [List.getElem_append_left (by simp; omega), List.getElem_take, wordBits_getElem]
    simp; omega
  · rw [List.getElem_append_right (by simp; omega)]
    simp; omega

theorem wordBits_ushiftRight (w : Cell16) (k : Nat) (hk : k ≤ 16) :
    wordBits (w >>> k) = List.replicate k false ++ (wordBits w).take (16 - k) := by
  refine List.ext_getElem (by simp; omega) fun i h1 _ => ?_
  have hi : i < 16 := by simpa using h1
  rw [wordBits_getElem, BitVec.getLsbD_ushiftRight]
  by_cases hik : i < k
  · rw [List.getElem_append_left (by simpa using hik)]
    simp only [List.getElem_replicate]
    exact BitVec.getLsbD_of_ge _ _ (by omega)
  · rw [List.getElem_append_right (by simp; omega), List.getElem_take, wordBits_getElem]
    congr 1; simp; omega

theorem wordBits_shiftLeft (w : Cell16) (k : Nat) (hk : k ≤ 16) :
    wordBits (w <<< k) = (wordBits w).drop k ++ List.replicate k false := by
  refine List.ext_getElem (by simp; omega) fun i h1 _ => ?_
  have hi : i < 16 := by simpa using h1
  rw [wordBits_getElem, BitVec.getLsbD_shiftLeft]
  by_cases hik : i < 16 - k
  · rw [List.getElem_append_left (by simp; omega), List.getElem_drop, wordBits_getElem]
    have : ¬ (15 - i < k) := by omega
    simp only [this, decide_false, Bool.not_false, Bool.and_true]
    have h15 : 15 - i < 16 := by omega
    simp only [h15, decide_true, Bool.true_and]
    congr 1; omega
  · rw [List.getElem_append_right (by simp; omega)]
    have : 15 - i < k := by omega
    simp [this]

theorem wordBits_or (a b : Cell16) : wordBits (a ||| b) = List.zipWith (· || ·) (wordBits a) (wordBits b) := by
  refine List.ext_getElem (by simp) fun i h1 _ => ?_
  simp [wordBits_getElem]

/-! ### packWord, words, unwords -/

theorem wordBits_packWord (b : List Bool) :
    wordBits (packWord b) = b.take 16 ++ List.replicate (16 - b.length) false := by
  have hv : val (b.take 16) * 2 ^ (16 - b.length) = val (b.take 16 ++ List.replicate (16 - b.length) false) := by
    rw [val_append, val_replicate_false, List.length_replicate, Nat.add_zero]
  have hl : (b.take 16 ++ List.replicate (16 - b.length) false).length = 16 := by simp; omega
  have hlt := val_lt (b.take 16 ++ List.replicate (16 - b.length) false)
  rw [hl] at hlt
  rw [packWord, hv, wordBits, BitVec.toNat_ofNat, Nat.mod_eq_of_lt hlt]
  have hm := msb_val (b.take 16 ++ List.replicate (16 - b.length) false)
  rwa [hl] at hm

theorem packWord_eq {b : List Bool} {w : Cell16}
    (h : wordBits w = b.take 16 ++ List.replicate (16 - b.length) false) : packWord b = w :=
  wordBits_inj (by rw [wordBits_packWord, h])

theorem packWord_eq_of_short {b : List Bool} {w : Cell16} (hb : b.length ≤ 16)
    (h : wordBits w = b ++ List.replicate (16 - b.length) false) : packWord b = w :=
  packWord_eq (by rw [h, List.take_of_length_le hb])

theorem packWord_wordBits_append (w : Cell16) (b : List Bool) : packWord (wordBits w ++ b) = w :=
  packWord_eq (by simp)

@[simp] theorem words_nil : words [] = [] := rfl

@[simp] theorem words_length (b : List Bool) : (words b).length = ceil16 b.length := by simp [words]

theorem words_wordBits_append (w : Cell16) (b : List Bool) : words (wordBits w ++ b) = w :: words b := by
  have hc : ceil16 (wordBits w ++ b).length = ceil16 b.length + 1 := by
    simp only [ceil16, List.length_append, wordBits_length]; omega
  rw [words, hc, List.range_succ_eq_map, List.map_cons, List.map_map]
  simp only [Nat.mul_zero, List.drop_zero, packWord_wordBits_append, words]
  refine congrArg (w :: ·) (List.map_congr_left fun i _ => ?_)
  simp only [Function.comp, Nat.mul_succ, Nat.add_comm _ 16]
  rw [← List.drop_drop, List.drop_left' (by simp)]

theorem words_single {b : List Bool} (h0 : b ≠ []) (h : b.length ≤ 16) : words b = [packWord b] := by
  have h1 : 0 < b.length := List.length_pos_iff.mpr h0
  have : ceil16 b.length = 1 := by simp only [ceil16]; omega
  simp [words, this]

@[simp] theorem unwords_nil : unwords [] = [] := rfl

@[simp] theorem unwords_cons (w : Cell16) (ws : List Cell16) : unwords (w :: ws) = wordBits w ++ unwords ws := rfl

@[simp] theorem unwords_append (a b : List Cell16) : unwords (a ++ b) = unwords a ++ unwords b := by
  simp [unwords, List.flatMap_append]

@[simp] theorem unwords_length (ws : List Cell16) : (unwords ws).length = ws.length * 16 := by
  induction ws with
  | nil => rfl
  | cons w ws ih => simp [ih]; omega

theorem words_unwords_append (ws : List Cell16) (b : List Bool) : words (unwords ws ++ b) = ws ++ words b := by
  induction ws with
  | nil => simp
  | cons w ws ih => simp [words_wordBits_append, ih]

theorem words_unwords (ws : List Cell16) : words (unwords ws) = ws := by
  simpa using words_unwords_append ws []

theorem drop_unwords (ws : List Cell16) (n : Nat) : (unwords ws).drop (16 * n) = unwords (ws.drop n) := by
  induction n generalizing ws with
  | zero => simp
  | succ n ih =>
    cases ws with
    | nil => simp
    | cons w ws => rw [List.drop_succ_cons, unwords_cons, ← ih, Nat.mul_succ, Nat.add_comm, ← List.drop_drop,
        List.drop_left' (by simp)]

/-- `unwords` of the words of b is b with its padding (R10, R55). -/
theorem unwords_words (b : List Bool) :
    unwords (words b) = b ++ List.replicate (16 * ceil16 b.length - b.length) false := by
  induction hn : b.length using Nat.strong_induction_on generalizing b with
  | _ n ih =>
    subst hn
    by_cases hlong : 16 ≤ b.length
    · have hb : b = wordBits (packWord (b.take 16)) ++ b.drop 16 := by
        rw [wordBits_packWord]
        simp [Nat.min_eq_left hlong, List.take_take]
      have hlt : (b.drop 16).length < b.length := by simp; omega
      have hi := ih _ hlt (b.drop 16) rfl
      conv_lhs => rw [hb, words_wordBits_append, unwords_cons, hi]
      rw [← List.append_assoc, ← hb]
      congr 2
      simp only [ceil16, List.length_drop]; omega
    · by_cases h0 : b = []
      · subst h0; rfl
      · have hp : 0 < b.length := List.length_pos_iff.mpr h0
        rw [words_single h0 (by omega), unwords_cons, unwords_nil, List.append_nil, wordBits_packWord,
          List.take_of_length_le (by omega)]
        congr 2
        simp only [ceil16]; omega

theorem take_unwords_words (b : List Bool) : (unwords (words b)).take b.length = b := by
  rw [unwords_words, List.take_left' rfl]

end Sys2Proof.Machine
end

