-- ==== Sys2Proof/Laws/State.lean ====
section
/-! SUPPORT. One lemma per field per update of State, Run and Writing, and what the shared operations of the completion
procedure do, said once: no later proof unfolds a record update or the procedure. -/

namespace Sys2Proof.Machine

/-! ### respond, takeError, takeIllegal, takeReset, present -/

@[simp] theorem State.respond_stream (s : State) (r : Response) : (s.respond r).stream = s.stream := rfl
@[simp] theorem State.respond_strict (s : State) (r : Response) : (s.respond r).strict = s.strict := rfl
@[simp] theorem State.respond_status (s : State) (r : Response) : (s.respond r).status = s.status := rfl
@[simp] theorem State.respond_config (s : State) (r : Response) : (s.respond r).config = s.config := rfl
@[simp] theorem State.respond_pending (s : State) (r : Response) : (s.respond r).pending = s.pending := rfl
@[simp] theorem State.respond_responses (s : State) (r : Response) : (s.respond r).responses = s.responses ++ [r] := rfl

@[simp] theorem State.takeError_stream (s : State) (c : Code) (a : Anomalies) : (s.takeError c a).stream = s.stream := rfl
@[simp] theorem State.takeError_strict (s : State) (c : Code) (a : Anomalies) : (s.takeError c a).strict = s.strict := rfl
@[simp] theorem State.takeError_status (s : State) (c : Code) (a : Anomalies) :
    (s.takeError c a).status = s.status ||| a := rfl
@[simp] theorem State.takeError_config (s : State) (c : Code) (a : Anomalies) : (s.takeError c a).config = s.config := rfl
@[simp] theorem State.takeError_pending (s : State) (c : Code) (a : Anomalies) : (s.takeError c a).pending = s.pending := rfl
@[simp] theorem State.takeError_responses (s : State) (c : Code) (a : Anomalies) :
    (s.takeError c a).responses = s.responses ++ [Response.errorOf c] := rfl

@[simp] theorem State.takeReset_stream (s : State) : s.takeReset.stream = Stream.empty := rfl
@[simp] theorem State.takeReset_strict (s : State) : s.takeReset.strict = false := rfl
@[simp] theorem State.takeReset_status (s : State) : s.takeReset.status = 0 := rfl
@[simp] theorem State.takeReset_config (s : State) : s.takeReset.config = s.config := rfl
@[simp] theorem State.takeReset_pending (s : State) : s.takeReset.pending = s.pending := rfl
@[simp] theorem State.takeReset_responses (s : State) : s.takeReset.responses = s.responses := rfl

@[simp] theorem State.present_stream (s : State) (c : Command) : (s.present c).stream = s.stream := rfl
@[simp] theorem State.present_strict (s : State) (c : Command) : (s.present c).strict = s.strict := rfl
@[simp] theorem State.present_status (s : State) (c : Command) : (s.present c).status = s.status := rfl
@[simp] theorem State.present_config (s : State) (c : Command) : (s.present c).config = s.config := rfl
@[simp] theorem State.present_pending (s : State) (c : Command) : (s.present c).pending = .command c :: s.pending := rfl
@[simp] theorem State.present_responses (s : State) (c : Command) : (s.present c).responses = s.responses := rfl

/-! ### Run and the memory primitives -/

@[simp] theorem Run.noteIf_stream (r : Run) (b : Bool) (x : Anomalies) : (r.noteIf b x).stream = r.stream := rfl
@[simp] theorem Run.noteIf_anomalies (r : Run) (b : Bool) (x : Anomalies) :
    (r.noteIf b x).anomalies = addNote b x r.anomalies := rfl
@[simp] theorem Run.noteOverflow_stream (r : Run) (c : Config) : (r.noteOverflow c).stream = r.stream := rfl
@[simp] theorem Run.noteOverflow_anomalies (r : Run) (c : Config) :
    (r.noteOverflow c).anomalies = addNote (!c.admits r.stream.cells.length) Anomaly.overflow r.anomalies := rfl
@[simp] theorem Run.writing_run (r : Run) : r.writing.run = r := rfl
@[simp] theorem Run.writing_bits (r : Run) : r.writing.bits = 0 := rfl
@[simp] theorem addNote_false (x a : Anomalies) : addNote false x a = a := rfl
@[simp] theorem addNote_true (x a : Anomalies) : addNote true x a = a ||| x := rfl

/-- Noting an anomaly again has no further effect (R251). -/
theorem addNote_addNote (b c : Bool) (x a : Anomalies) : addNote c x (addNote b x a) = addNote (b || c) x a := by
  cases b <;> cases c <;> simp [BitVec.or_assoc]

@[simp] theorem Stream.memWrite_ho (t : Stream) (i : Nat) (v : Cell16) : (t.memWrite i v).ho = t.ho := rfl
@[simp] theorem Stream.memWrite_tf (t : Stream) (i : Nat) (v : Cell16) : (t.memWrite i v).tf = t.tf := rfl
@[simp] theorem Stream.memWrite_cells (t : Stream) (i : Nat) (v : Cell16) : (t.memWrite i v).cells = t.cells.set i v := rfl
@[simp] theorem Stream.append_ho (t : Stream) (v : Cell16) : (t.append v).ho = t.ho := rfl
@[simp] theorem Stream.append_tf (t : Stream) (v : Cell16) : (t.append v).tf = t.tf := rfl
@[simp] theorem Stream.append_cells (t : Stream) (v : Cell16) : (t.append v).cells = t.cells ++ [v] := rfl
@[simp] theorem Stream.dropHead_ho (t : Stream) : t.dropHead.ho = t.ho := rfl
@[simp] theorem Stream.dropHead_tf (t : Stream) : t.dropHead.tf = t.tf := rfl
@[simp] theorem Stream.dropHead_cells (t : Stream) : t.dropHead.cells = t.cells.tail := rfl

/-- Reading a cell after writing it gives the value written. -/
theorem Stream.memRead_memWrite_same (t : Stream) (i : Nat) (v : Cell16) (h : i < t.cells.length) :
    (t.memWrite i v).memRead i = v := by simp [Stream.memRead, h]

/-- Writing a cell leaves every other cell alone. -/
theorem Stream.memRead_memWrite_other (t : Stream) (i j : Nat) (v : Cell16) (h : i ≠ j) :
    (t.memWrite i v).memRead j = t.memRead j := by simp [Stream.memRead, h]

/-! ### The completion procedure, said once -/

/-- Everything the completion procedure can do: commit the body's stream with an OK response, or give an error response. -/
theorem State.complete_cases (s : State) (r : Run) (a : Answer) :
    (errorCode s.strict r.anomalies = none ∧
      s.complete r a = { s with stream := r.stream, status := s.status ||| r.anomalies,
                                responses := s.responses ++ [Response.okOf a] }) ∨
    ∃ c, errorCode s.strict r.anomalies = some c ∧ s.complete r a = s.takeError c r.anomalies := by
  unfold State.complete
  cases h : errorCode s.strict r.anomalies with
  | none => exact .inl ⟨rfl, rfl⟩
  | some c => exact .inr ⟨c, rfl, rfl⟩

@[simp] theorem State.complete_strict (s : State) (r : Run) (a : Answer) : (s.complete r a).strict = s.strict := by
  obtain ⟨-, h⟩ | ⟨c, -, h⟩ := State.complete_cases s r a <;> simp [h]

@[simp] theorem State.complete_config (s : State) (r : Run) (a : Answer) : (s.complete r a).config = s.config := by
  obtain ⟨-, h⟩ | ⟨c, -, h⟩ := State.complete_cases s r a <;> simp [h]

@[simp] theorem State.complete_pending (s : State) (r : Run) (a : Answer) : (s.complete r a).pending = s.pending := by
  obtain ⟨-, h⟩ | ⟨c, -, h⟩ := State.complete_cases s r a <;> simp [h]

@[simp] theorem State.complete_status (s : State) (r : Run) (a : Answer) :
    (s.complete r a).status = s.status ||| r.anomalies := by
  obtain ⟨-, h⟩ | ⟨c, -, h⟩ := State.complete_cases s r a <;> simp [h]

/-- The stream after a command is the one its body left, or the one before it. -/
theorem State.complete_stream (s : State) (r : Run) (a : Answer) :
    (s.complete r a).stream = if errorCode s.strict r.anomalies = none then r.stream else s.stream := by
  obtain ⟨h1, h⟩ | ⟨c, h1, h⟩ := State.complete_cases s r a
  · rw [h, h1]; rfl
  · rw [h, h1]; rfl

/-- A command of a well-formed block completes. -/
theorem State.perform_of_wf {s : State} (h : s.WellFormed) (body : Run → Run × Answer) :
    s.perform body = .next (s.complete (body { stream := s.stream, anomalies := 0 }).1
      (body { stream := s.stream, anomalies := 0 }).2) := by
  rw [State.perform, if_pos h]

/-- A next state of a command comes from a well-formed block, by the completion procedure. -/
theorem State.perform_inv {s t : State} {body : Run → Run × Answer} (h : s.perform body = .next t) :
    s.WellFormed ∧ t = s.complete (body { stream := s.stream, anomalies := 0 }).1
      (body { stream := s.stream, anomalies := 0 }).2 := by
  unfold State.perform at h
  split at h
  · rename_i hw
    exact ⟨hw, (Host.Outcome.next.inj h).symm⟩
  · cases h

/-- Outside R25 a command faults, whatever it is (log 8). -/
theorem State.perform_of_not_wf {s : State} (h : ¬ s.WellFormed) (body : Run → Run × Answer) :
    s.perform body = .fault .illFormedState := by
  rw [State.perform, if_neg h]

/-- No command is refused. -/
theorem State.perform_ne_refused (s : State) (body : Run → Run × Answer) (r : Refusal) : s.perform body ≠ .refused r := by
  unfold State.perform; split <;> simp

/-- No anomaly, no error. -/
theorem errorCode_zero (strict : Bool) : errorCode strict 0 = none := by cases strict <;> decide

@[simp] theorem errorCode_zero' (strict : Bool) : errorCode strict 0#5 = none := errorCode_zero strict

end Sys2Proof.Machine
end

