-- ==== Sys2Proof/Laws/Stream.lean ====
section
/-! SUPPORT. The laws of the two engine procedures (40_engine.md R113): `writeWords` appends bits (L1), `moveBits` takes bits
from the head (L2), and both keep W1 to W5 of 10_state.md R25. -/

namespace Sys2Proof.Machine

/-! ### Well-formed streams -/

theorem cursor_toNat_ofNat (n : Nat) : (BitVec.ofNat 4 (n % 16)).toNat = n % 16 := by simp

theorem cursor_eq_zero_iff (c : Cursor) : c = 0 ↔ c.toNat = 0 := by
  constructor
  · rintro rfl; rfl
  · intro h; exact BitVec.eq_of_toNat_eq h

@[simp] theorem Stream.empty_wf : Stream.empty.WellFormed := by decide

theorem Stream.unfilled_zero {t : Stream} (h : t.tf = 0) : t.unfilled = 0 := by simp [Stream.unfilled, h]

theorem Stream.unfilled_pos {t : Stream} (h : t.tf ≠ 0) : t.unfilled = 16 - t.tf.toNat := by
  have h1 : t.tf.toNat ≠ 0 := fun h0 => h ((cursor_eq_zero_iff _).mpr h0)
  have h2 := t.tf.isLt
  simp only [Stream.unfilled]; omega

/-- The two shapes of a well-formed stream: a full (or no) tail cell, or a tail cell filled to TF with zeros below. -/
theorem Stream.wf_shape {t : Stream} (h : t.WellFormed) :
    (t.tf = 0 ∧ t.stored = unwords t.cells) ∨
    ∃ pre c, t.cells = pre ++ [c] ∧ t.tf ≠ 0 ∧ c &&& hi16 t.tf.toNat = c ∧
      t.stored = unwords pre ++ (wordBits c).take t.tf.toNat := by
  obtain ⟨-, -, h4, h5⟩ := h
  by_cases h0 : t.tf = 0
  · refine .inl ⟨h0, ?_⟩
    rw [Stream.stored, Stream.unfilled_zero h0, List.take_of_length_le (by simp)]
  · refine .inr ?_
    obtain ⟨pre, c, hc⟩ : ∃ pre c, t.cells = pre ++ [c] :=
      ⟨t.cells.dropLast, t.cells.getLast (h4 h0), (List.dropLast_append_getLast (h4 h0)).symm⟩
    refine ⟨pre, c, hc, h0, ?_, ?_⟩
    · have h6 := h5 h0
      have hl : t.memRead t.last = c := by simp [Stream.memRead, Stream.last, hc]
      rw [hl] at h6
      ext i hi
      have h7 := congrArg (fun x : Cell16 => x.getLsbD i) h6
      simp only [BitVec.getLsbD_and, BitVec.getLsbD_not, hi, decide_true, Bool.true_and] at h7
      rw [← BitVec.getLsbD_eq_getElem, ← BitVec.getLsbD_eq_getElem, BitVec.getLsbD_and]
      revert h7; cases c.getLsbD i <;> cases (hi16 t.tf.toNat).getLsbD i <;> simp
    · have h2 := t.tf.isLt
      have hlen : t.cells.length * 16 - t.unfilled = (unwords pre).length + t.tf.toNat := by
        rw [Stream.unfilled_pos h0, hc]; simp; omega
      rw [Stream.stored, hlen, hc, unwords_append, unwords_cons, unwords_nil, List.append_nil, List.take_length_add_append]

/-- `len(cells)` follows from the stored bits. -/
theorem Stream.stored_length (t : Stream) : t.stored.length = t.cells.length * 16 - t.unfilled := by
  simp [Stream.stored]

theorem Stream.wf_stored_length {t : Stream} (h : t.WellFormed) : t.stored.length = t.ho.toNat + t.size := by
  have := h.2.1
  rw [Stream.stored_length, Stream.size]; omega

theorem Stream.stored_mod {t : Stream} (h : t.WellFormed) : t.stored.length % 16 = t.tf.toNat := by
  have h2 := t.tf.isLt
  obtain ⟨h0, hs⟩ | ⟨pre, c, -, -, -, hs⟩ := Stream.wf_shape h
  · rw [hs, h0]; simp
  · rw [hs]; simp; omega

theorem Stream.bits_eq_drop {t : Stream} (h : t.WellFormed) : t.bits = t.stored.drop t.ho.toNat := by
  have h1 := h.2.1
  rw [Stream.bits, Stream.stored, List.drop_take, Stream.size]
  congr 1; omega

theorem Stream.bits_length {t : Stream} (h : t.WellFormed) : t.bits.length = t.size := by
  rw [Stream.bits_eq_drop h, List.length_drop, Stream.wf_stored_length h]; omega

/-- The cells are the words of the stored bits: the canonical form (R26). -/
theorem Stream.words_stored {t : Stream} (h : t.WellFormed) : words t.stored = t.cells := by
  obtain ⟨-, hs⟩ | ⟨pre, c, hc, h0, hm, hs⟩ := Stream.wf_shape h
  · rw [hs, words_unwords]
  · have h2 := t.tf.isLt
    have h3 : t.tf.toNat ≠ 0 := fun hz => h0 ((cursor_eq_zero_iff _).mpr hz)
    rw [hs, words_unwords_append, hc, words_single]
    · congr 2
      have hb := wordBits_and_hi16 c t.tf.toNat (by omega)
      rw [hm] at hb
      have htl : ((wordBits c).take t.tf.toNat).length = t.tf.toNat := by simp; omega
      exact packWord_eq_of_short (by omega) (by rw [htl]; exact hb)
    · intro hn; simpa [h3] using congrArg List.length hn
    · simp

/-- In a well-formed stream `len(cells) = ceil16(HO + size)` (R27). -/
theorem Stream.wf_cells_length {t : Stream} (h : t.WellFormed) : t.cells.length = ceil16 (t.ho.toNat + t.size) := by
  rw [← Stream.wf_stored_length h, ← words_length, Stream.words_stored h]

theorem Stream.appendBits_nil {t : Stream} (h : t.WellFormed) : t.appendBits [] = t := by
  have h2 := t.tf.isLt
  obtain ⟨cells, ho, tf⟩ := t
  simp only [Stream.appendBits, List.append_nil, List.length_nil, Nat.add_zero, Stream.words_stored h]
  congr
  exact BitVec.eq_of_toNat_eq (by rw [cursor_toNat_ofNat]; exact Nat.mod_eq_of_lt h2)

/-! ### Streams that are the words of their bits -/

theorem wordBits_packWord_mask {b : List Bool} (h : b.length ≤ 16) :
    packWord b &&& ~~~(hi16 b.length) = 0 := by
  refine wordBits_inj ?_
  refine List.ext_getElem (by simp) fun i h1 _ => ?_
  have hi : i < 16 := by simpa using h1
  simp only [wordBits_getElem, BitVec.getLsbD_and, BitVec.getLsbD_not,
    hi16_getLsbD _ _ h (show 15 - i < 16 by omega)]
  by_cases hb : i < b.length
  · have : 16 - b.length ≤ 15 - i := by omega
    simp [this]
  · have hw : (packWord b).getLsbD (15 - i) = false := by
      rw [← wordBits_getElem _ i (by simpa using hi)]
      simp only [wordBits_packWord]
      rw [List.getElem_append_right (by simp; omega)]
      simp
    simp [hw]

theorem words_append_full (a b : List Bool) (k : Nat) (h : a.length = 16 * k) : words (a ++ b) = words a ++ words b := by
  induction k generalizing a with
  | zero => have : a = [] := List.length_eq_zero_iff.mp (by omega); subst this; simp
  | succ k ih =>
    have ha : a = wordBits (packWord (a.take 16)) ++ a.drop 16 := by
      rw [wordBits_packWord]
      have : 16 ≤ a.length := by omega
      simp [List.take_take, Nat.min_eq_left this]
    rw [ha, List.append_assoc, words_wordBits_append, words_wordBits_append, ih _ (by simp; omega), List.cons_append]

/-- A stream whose cells are the words of some bits, with matching cursors, is well formed and stores those bits. -/
theorem Stream.of_words {t : Stream} {b : List Bool} (hc : t.cells = words b) (hf : t.tf.toNat = b.length % 16)
    (hh : t.ho.toNat ≤ b.length) : t.WellFormed ∧ t.stored = b := by
  have hlen : t.cells.length = ceil16 b.length := by rw [hc, words_length]
  have hu : t.unfilled = 16 * ceil16 b.length - b.length := by
    simp only [Stream.unfilled, hf, ceil16]; omega
  have hst : t.stored = b := by
    rw [Stream.stored, hu, hc, words_length,
      show ceil16 b.length * 16 - (16 * ceil16 b.length - b.length) = b.length by simp only [ceil16]; omega]
    exact take_unwords_words b
  refine ⟨⟨fun h0 => ?_, ?_, fun h0 h1 => ?_, fun h0 => ?_⟩, hst⟩
  · have : b.length = 0 := by rw [h0] at hlen; simp only [List.length_nil, ceil16] at hlen; omega
    rw [cursor_eq_zero_iff, cursor_eq_zero_iff]; omega
  · rw [hu, hlen]; simp only [ceil16]; omega
  · rw [h1] at hlen
    have : t.tf.toNat ≠ 0 := fun h => h0 ((cursor_eq_zero_iff _).mpr h)
    simp only [List.length_nil, ceil16] at hlen; omega
  · have h1 : t.tf.toNat ≠ 0 := fun h => h0 ((cursor_eq_zero_iff _).mpr h)
    have hsplit : b = b.take (16 * (b.length / 16)) ++ b.drop (16 * (b.length / 16)) := (List.take_append_drop _ _).symm
    have hdl : (b.drop (16 * (b.length / 16))).length = b.length % 16 := by simp; omega
    have hw : t.cells = words (b.take (16 * (b.length / 16))) ++ [packWord (b.drop (16 * (b.length / 16)))] := by
      rw [hc]
      conv_lhs => rw [hsplit]
      rw [words_append_full _ _ (b.length / 16) (by simp; omega), words_single (b := b.drop _)]
      · intro hn; have := congrArg List.length hn; rw [hdl] at this; simp at this; omega
      · omega
    have hl : t.memRead t.last = packWord (b.drop (16 * (b.length / 16))) := by
      simp [Stream.memRead, Stream.last, hw]
    rw [hl, hf, ← hdl]
    exact wordBits_packWord_mask (by omega)

theorem Stream.ofBits_wf (b : List Bool) : (Stream.ofBits b).WellFormed ∧ (Stream.ofBits b).stored = b :=
  Stream.of_words rfl (by simp [Stream.ofBits]) (by simp [Stream.ofBits])

theorem Stream.ofBits_bits (b : List Bool) : (Stream.ofBits b).bits = b := by
  rw [Stream.bits_eq_drop (Stream.ofBits_wf b).1, (Stream.ofBits_wf b).2]; rfl

theorem Stream.ofBits_size (b : List Bool) : (Stream.ofBits b).size = b.length := by
  rw [← Stream.bits_length (Stream.ofBits_wf b).1, Stream.ofBits_bits]

theorem Stream.appendBits_spec {t : Stream} (h : t.WellFormed) (b : List Bool) :
    (t.appendBits b).WellFormed ∧ (t.appendBits b).stored = t.stored ++ b := by
  refine Stream.of_words rfl ?_ ?_
  · have := Stream.stored_mod h
    simp only [Stream.appendBits, cursor_toNat_ofNat, List.length_append]; omega
  · have := Stream.wf_stored_length h
    simp only [Stream.appendBits, List.length_append]; omega

theorem Stream.appendBits_wf {t : Stream} (h : t.WellFormed) (b : List Bool) : (t.appendBits b).WellFormed :=
  (Stream.appendBits_spec h b).1

/-- L1 of R113, the content: `bits(T') = b ++ ...`. -/
theorem Stream.appendBits_bits {t : Stream} (h : t.WellFormed) (b : List Bool) : (t.appendBits b).bits = t.bits ++ b := by
  rw [Stream.bits_eq_drop (Stream.appendBits_wf h b), (Stream.appendBits_spec h b).2, Stream.bits_eq_drop h]
  have := Stream.wf_stored_length h
  exact List.drop_append_of_le_length (by simp only [Stream.appendBits]; omega)

/-- L3 of R113 for a write. -/
theorem Stream.appendBits_size {t : Stream} (h : t.WellFormed) (b : List Bool) :
    (t.appendBits b).size = t.size + b.length := by
  rw [← Stream.bits_length (Stream.appendBits_wf h b), Stream.appendBits_bits h, List.length_append, Stream.bits_length h]

theorem Stream.appendBits_append {t : Stream} (h : t.WellFormed) (b c : List Bool) :
    (t.appendBits b).appendBits c = t.appendBits (b ++ c) := by
  have e := (Stream.appendBits_spec h b).2
  unfold Stream.appendBits at e ⊢
  simp only [e, List.append_assoc, List.length_append, cursor_toNat_ofNat]
  congr 2; omega

theorem Stream.appendBits_cells_length {t : Stream} (h : t.WellFormed) (b : List Bool) :
    (t.appendBits b).cells.length = t.cellsAfter b.length := by
  have := Stream.wf_stored_length h
  simp only [Stream.appendBits, words_length, List.length_append, Stream.cellsAfter, this]

/-! ### L1: writing -/

theorem zipWith_or_false_right (a : List Bool) (n : Nat) (h : a.length = n) :
    List.zipWith (· || ·) a (List.replicate n false) = a := by
  subst h; induction a with
  | nil => rfl
  | cons x xs ih => simp [List.replicate_succ, ih]

theorem zipWith_or_false_left (a : List Bool) (n : Nat) (h : a.length = n) :
    List.zipWith (· || ·) (List.replicate n false) a = a := by
  subst h; induction a with
  | nil => rfl
  | cons x xs ih => simp [List.replicate_succ, ih]

/-- The masking rule of R110: the filled high-order bits stay, the new bits follow them. -/
theorem wordBits_masking_rule (c x : Cell16) (j : Nat) (hj : j ≤ 16) :
    wordBits ((c &&& hi16 j) ||| (x >>> j)) = (wordBits c).take j ++ (wordBits x).take (16 - j) := by
  rw [wordBits_or, wordBits_and_hi16 _ _ hj, wordBits_ushiftRight _ _ hj, List.zipWith_append (by simp; omega),
    zipWith_or_false_right _ _ (by simp; omega), zipWith_or_false_left _ _ (by simp)]

/-- One pass of the write loop when no tail cell has room: a fresh cell takes all k bits (R110 (a)). -/
theorem Stream.appendChunk_fresh {t : Stream} (h0 : t.tf = 0) (w : Cell16) (k : Nat) (hk16 : k ≤ 16) :
    t.appendChunk w k = { t with cells := t.cells ++ [w &&& hi16 k], tf := BitVec.ofNat 4 (k % 16) } := by
  have hz : ¬ (k - min k (16 - 0) > 0) := by omega
  have h1 : t.tf.toNat = 0 := (cursor_eq_zero_iff _).mp h0
  simp only [Stream.appendChunk, h1, hz, if_false, Nat.zero_add]
  simp [h0, Stream.append, Stream.memWrite, Stream.memRead, Stream.last]

/-- One pass of the write loop when the tail cell has room: the masking rule, and the spill (R110 (b), (c)). -/
theorem Stream.appendChunk_tail {t : Stream} {pre : List Cell16} {c : Cell16} (hc : t.cells = pre ++ [c]) (h0 : t.tf ≠ 0)
    (w : Cell16) (k : Nat) :
    t.appendChunk w k = { t with
      cells := pre ++ ((c &&& hi16 t.tf.toNat) ||| ((w &&& hi16 k) >>> t.tf.toNat)) ::
        (if t.tf.toNat + k > 16 then [(w &&& hi16 k) <<< (16 - t.tf.toNat)] else []),
      tf := BitVec.ofNat 4 ((t.tf.toNat + k) % 16) } := by
  have h2 := t.tf.isLt
  have hiff : (k - min k (16 - t.tf.toNat) > 0) ↔ t.tf.toNat + k > 16 := by omega
  simp only [Stream.appendChunk, h0, if_false, hiff]
  by_cases hs : t.tf.toNat + k > 16
  · have hf : min k (16 - t.tf.toNat) = 16 - t.tf.toNat := by omega
    simp [hs, hf, Stream.append, Stream.memWrite, Stream.memRead, Stream.last, hc]
  · simp [hs, Stream.memWrite, Stream.memRead, Stream.last, hc]

/-- One pass of the write loop adds the k high-order bits of the source word. -/
theorem Stream.appendChunk_eq {t : Stream} (h : t.WellFormed) (w : Cell16) (k : Nat) (hk : 0 < k) (hk16 : k ≤ 16) :
    t.appendChunk w k = t.appendBits ((wordBits w).take k) := by
  have hl : ((wordBits w).take k).length = k := by simp; omega
  have hB := wordBits_and_hi16 w k hk16
  obtain ⟨h0, hs⟩ | ⟨pre, c, hc, h0, -, hs⟩ := Stream.wf_shape h
  · have hp : packWord ((wordBits w).take k) = w &&& hi16 k :=
      packWord_eq_of_short (by omega) (by rw [hB, hl])
    rw [Stream.appendChunk_fresh h0 w k hk16, Stream.appendBits, hs, words_unwords_append,
      words_single (List.ne_nil_of_length_pos (by omega)) (by omega), hp, hl, h0]
    simp
  · have h2 := t.tf.isLt
    have h3 : t.tf.toNat ≠ 0 := fun hz => h0 ((cursor_eq_zero_iff _).mpr hz)
    have hx := wordBits_masking_rule c (w &&& hi16 k) t.tf.toNat (by omega)
    rw [hB] at hx
    have htl : ((wordBits c).take t.tf.toNat).length = t.tf.toNat := by simp; omega
    rw [Stream.appendChunk_tail hc h0, Stream.appendBits, hs, List.append_assoc, words_unwords_append, hl]
    by_cases hfit : t.tf.toNat + k > 16
    · have hsp : (wordBits c).take t.tf.toNat ++ (wordBits w).take k
          = wordBits ((c &&& hi16 t.tf.toNat) ||| ((w &&& hi16 k) >>> t.tf.toNat))
            ++ ((wordBits w).take k).drop (16 - t.tf.toNat) := by
        rw [hx, List.append_assoc, List.take_append_of_le_length (by rw [hl]; omega), List.take_append_drop]
      have hdl : (((wordBits w).take k).drop (16 - t.tf.toNat)).length = k - (16 - t.tf.toNat) := by
        rw [List.length_drop, hl]
      have hp : packWord (((wordBits w).take k).drop (16 - t.tf.toNat)) = (w &&& hi16 k) <<< (16 - t.tf.toNat) := by
        refine packWord_eq_of_short (by omega) ?_
        rw [wordBits_shiftLeft _ _ (by omega), hB, List.drop_append_of_le_length (by rw [hl]; omega), List.append_assoc,
          List.replicate_append_replicate, hdl]
        congr 2; omega
      rw [if_pos hfit, hsp, words_wordBits_append, words_single (List.ne_nil_of_length_pos (by omega)) (by omega), hp]
    · have hp : packWord ((wordBits c).take t.tf.toNat ++ (wordBits w).take k)
          = (c &&& hi16 t.tf.toNat) ||| ((w &&& hi16 k) >>> t.tf.toNat) := by
        have hyl : ((wordBits c).take t.tf.toNat ++ (wordBits w).take k).length = t.tf.toNat + k := by
          rw [List.length_append, htl, hl]
        have hin : ((wordBits w).take k).take (16 - t.tf.toNat) = (wordBits w).take k :=
          List.take_of_length_le (by omega)
        refine packWord_eq_of_short (by omega) ?_
        rw [hx, hyl, List.append_assoc, List.take_append, hl, hin, List.take_replicate]
        congr 3; omega
      rw [if_neg hfit, words_single (List.ne_nil_of_length_pos (by rw [List.length_append, hl]; omega))
        (by rw [List.length_append, htl, hl]; omega), hp]

/-- L1 of R113: the write loop appends the first n bits of the source words. -/
theorem Stream.writeWords_eq (src : List Cell16) : ∀ (n : Nat) {t : Stream}, t.WellFormed → n ≤ 16 * src.length →
    Stream.writeWords src n t = t.appendBits ((unwords src).take n) := by
  induction src with
  | nil =>
    intro n t h hn
    simp only [Stream.writeWords, unwords_nil, List.take_nil]
    exact (Stream.appendBits_nil h).symm
  | cons w ws ih =>
    intro n t h hn
    rw [List.length_cons] at hn
    by_cases h0 : n = 0
    · simp only [Stream.writeWords, h0, if_true, List.take_zero]
      exact (Stream.appendBits_nil h).symm
    · simp only [Stream.writeWords, h0, if_false]
      rw [Stream.appendChunk_eq h w _ (by omega) (by omega),
        ih _ (Stream.appendBits_wf h _) (by omega), Stream.appendBits_append h, unwords_cons, List.take_append,
        wordBits_length]
      have e1 : (wordBits w).take (min 16 n) = (wordBits w).take n := by
        by_cases hc : n ≤ 16
        · rw [Nat.min_eq_right hc]
        · rw [Nat.min_eq_left (by omega), List.take_of_length_le (by simp), List.take_of_length_le (by simp; omega)]
      rw [e1, show n - min 16 n = n - 16 by omega]

/-! ### L2: reading -/

theorem Stream.dropBits_zero (t : Stream) : t.dropBits 0 = t := by
  have h2 := t.ho.isLt
  obtain ⟨cells, ho, tf⟩ := t
  simp only [Stream.dropBits, Nat.add_zero, Nat.div_eq_of_lt h2, List.drop_zero]
  congr
  exact BitVec.eq_of_toNat_eq (by rw [cursor_toNat_ofNat]; exact Nat.mod_eq_of_lt h2)

/-- Dropping bits from the head leaves a well-formed stream that stores what is left. -/
theorem Stream.dropBits_spec {t : Stream} (h : t.WellFormed) {n : Nat} (hn : n ≤ t.size) :
    (t.dropBits n).WellFormed ∧
    (t.dropBits n).stored = t.stored.drop (16 * ((t.ho.toNat + n) / 16)) := by
  have hlen := Stream.wf_stored_length h
  have hmod := Stream.stored_mod h
  have hq : 16 * ((t.ho.toNat + n) / 16) ≤ t.ho.toNat + n := Nat.mul_div_le _ _
  have hw : (t.dropBits n).cells = words (t.stored.drop (16 * ((t.ho.toNat + n) / 16))) := by
    simp only [Stream.dropBits]
    set q := (t.ho.toNat + n) / 16
    have hsplit : words t.stored = words (t.stored.take (16 * q)) ++ words (t.stored.drop (16 * q)) := by
      rw [← words_append_full _ _ q (by simp; omega), List.take_append_drop]
    have hq2 : (words (t.stored.take (16 * q))).length = q := by
      rw [words_length, List.length_take, Nat.min_eq_left (by omega)]; simp only [ceil16]; omega
    rw [← Stream.words_stored h, hsplit, List.drop_left' hq2]
  refine Stream.of_words hw ?_ ?_
  · simp only [Stream.dropBits, List.length_drop]; omega
  · simp only [Stream.dropBits, cursor_toNat_ofNat, List.length_drop]; omega

theorem Stream.dropBits_wf {t : Stream} (h : t.WellFormed) {n : Nat} (hn : n ≤ t.size) : (t.dropBits n).WellFormed :=
  (Stream.dropBits_spec h hn).1

/-- L2 of R113, the content that stays: `bits(T') = drop(n, b)`. -/
theorem Stream.dropBits_bits {t : Stream} (h : t.WellFormed) {n : Nat} (hn : n ≤ t.size) :
    (t.dropBits n).bits = t.bits.drop n := by
  rw [Stream.bits_eq_drop (Stream.dropBits_wf h hn), (Stream.dropBits_spec h hn).2, Stream.bits_eq_drop h,
    List.drop_drop, List.drop_drop]
  congr 1
  simp only [Stream.dropBits, cursor_toNat_ofNat]; omega

/-- L3 of R113 for a read. -/
theorem Stream.dropBits_size {t : Stream} (h : t.WellFormed) {n : Nat} (hn : n ≤ t.size) :
    (t.dropBits n).size = t.size - n := by
  rw [← Stream.bits_length (Stream.dropBits_wf h hn), Stream.dropBits_bits h hn, List.length_drop, Stream.bits_length h]

theorem Stream.dropBits_dropBits (t : Stream) (m n : Nat) : (t.dropBits m).dropBits n = t.dropBits (m + n) := by
  simp only [Stream.dropBits, cursor_toNat_ofNat, List.drop_drop]
  congr 2 <;> omega

theorem Stream.dropBits_cells_le (t : Stream) (n : Nat) : (t.dropBits n).cells.length ≤ t.cells.length := by
  simp [Stream.dropBits]

/-- One pass of the read loop drops the bits it took. -/
theorem Stream.advanceHead_eq (t : Stream) {k : Nat} (hk : k ≤ 16 - t.ho.toNat) : t.advanceHead k = t.dropBits k := by
  have h2 := t.ho.isLt
  simp only [Stream.advanceHead, Stream.dropBits]
  split
  · rename_i h16; simp [h16, Stream.dropHead]
  · have h1 : (t.ho.toNat + k) / 16 = 0 := by omega
    have h3 : (t.ho.toNat + k) % 16 = t.ho.toNat + k := by omega
    simp [h1, h3]

/-- The bits one pass of the read loop extracts are the next k bits of the content. -/
theorem Stream.piece_bits {t : Stream} (h : t.WellFormed) {k : Nat} (hk : k ≤ 16 - t.ho.toNat) (hs : k ≤ t.size)
    (h0 : 0 < k) :
    (wordBits ((t.memRead 0 <<< t.ho.toNat) &&& hi16 k)).take k = t.bits.take k := by
  have h2 := t.ho.isLt
  have hne : t.cells ≠ [] := by
    intro hn; have := Stream.wf_cells_length h; rw [hn] at this
    simp only [List.length_nil, ceil16] at this; omega
  obtain ⟨c, cs, hc⟩ := List.exists_cons_of_ne_nil hne
  have hm : t.memRead 0 = c := by simp [Stream.memRead, hc]
  rw [hm, wordBits_and_hi16 _ _ (by omega), List.take_append_of_le_length (by simp; omega), List.take_take,
    Nat.min_self, wordBits_shiftLeft _ _ (by omega), List.take_append_of_le_length (by simp; omega), Stream.bits,
    List.take_take, Nat.min_eq_left hs, hc, unwords_cons, List.drop_append_of_le_length (by simp; omega),
    List.take_append_of_le_length (by simp; omega)]

/-- L2 of R113: the read loop drops n bits from t and appends them to o. -/
theorem Stream.moveBits_eq (fuel : Nat) : ∀ (n : Nat) {t o : Stream}, n ≤ fuel → t.WellFormed → o.WellFormed →
    n ≤ t.size → Stream.moveBits fuel n t o = (t.dropBits n, o.appendBits (t.bits.take n)) := by
  induction fuel with
  | zero =>
    intro n t o hf _ ho _
    have : n = 0 := by omega
    subst this
    simp [Stream.moveBits, Stream.dropBits_zero, Stream.appendBits_nil ho]
  | succ fuel ih =>
    intro n t o hf ht ho hn
    by_cases h0 : n = 0
    · subst h0
      simp [Stream.moveBits, Stream.dropBits_zero, Stream.appendBits_nil ho]
    · have h2 := t.ho.isLt
      simp only [Stream.moveBits, h0, if_false]
      set k := min (16 - t.ho.toNat) n with hkdef
      have hk : 0 < k := by omega
      rw [Stream.advanceHead_eq t (by omega), Stream.writeWords_eq _ _ ho (by simp; omega), unwords_cons, unwords_nil,
        List.append_nil, Stream.piece_bits ht (by omega) (by omega) hk,
        ih (n - k) (by omega) (Stream.dropBits_wf ht (by omega)) (Stream.appendBits_wf ho _)
          (by rw [Stream.dropBits_size ht (by omega)]; omega),
        Stream.dropBits_dropBits, Stream.appendBits_append ho, Stream.dropBits_bits ht (by omega)]
      congr 2
      · omega
      · rw [← List.take_add]; congr 2; omega

/-! ### Every memory operation keeps the canonical form -/

theorem Stream.appendChunk_wf {t : Stream} (h : t.WellFormed) (w : Cell16) (k : Nat) (hk : 0 < k) (hk16 : k ≤ 16) :
    (t.appendChunk w k).WellFormed := by
  rw [Stream.appendChunk_eq h w k hk hk16]; exact Stream.appendBits_wf h _

theorem Stream.writeWords_wf {t : Stream} (h : t.WellFormed) (src : List Cell16) (n : Nat) (hn : n ≤ 16 * src.length) :
    (Stream.writeWords src n t).WellFormed := by
  rw [Stream.writeWords_eq src n h hn]; exact Stream.appendBits_wf h _

theorem Stream.advanceHead_wf {t : Stream} (h : t.WellFormed) {k : Nat} (hk : k ≤ 16 - t.ho.toNat) (hs : k ≤ t.size) :
    (t.advanceHead k).WellFormed := by
  rw [Stream.advanceHead_eq t hk]; exact Stream.dropBits_wf h hs

theorem Stream.moveBits_wf {t o : Stream} (ht : t.WellFormed) (ho : o.WellFormed) (n : Nat) (hn : n ≤ t.size) :
    (Stream.moveBits n n t o).1.WellFormed ∧ (Stream.moveBits n n t o).2.WellFormed := by
  rw [Stream.moveBits_eq n n (le_refl n) ht ho hn]
  exact ⟨Stream.dropBits_wf ht hn, Stream.appendBits_wf ho _⟩

/-- The memory of the machine after reset has its canonical form. -/
theorem Memory.reset_wf (c : Config) : Memory.wf (State.resetWith c).stream := Stream.empty_wf

theorem Stream.appendBits_empty (b : List Bool) : Stream.empty.appendBits b = Stream.ofBits b := by
  simp [Stream.appendBits, Stream.ofBits, Stream.empty, Stream.stored]

end Sys2Proof.Machine
end

