-- ==== Sys2Proof/Laws/Commands.lean ====
section
/-! SUPPORT. The codecs' procedures on contents: `wr` and `rd` (41_primitive.md R140, R141, R152), strings (43_text.md R200,
R202), compact integers (42_compact_int.md R170 to R172). Each says what the procedure does to the run and what it answers;
proofs about the commands cite these and unfold none of them. -/

namespace Sys2Proof.Machine

/-! ### The engine procedures inside a run -/

/-- writeBits on a well-formed stream (R110, R113 L1). -/
theorem Run.writeBits_eq {r : Run} (h : r.stream.WellFormed) (src : List Cell16) (count : Nat) :
    r.writeBits src count =
      ({ stream := r.stream.appendBits ((unwords src).take (clampedCount src count)),
         anomalies := addNote (decide (count > 16 * src.length)) Anomaly.overrun r.anomalies },
       clampedCount src count) := by
  have hw := Stream.writeWords_eq src (clampedCount src count) h (by simp only [clampedCount]; omega)
  simp only [Run.writeBits, Run.noteIf]
  rw [hw]

/-- readBits on a well-formed stream (R111, R113 L2). -/
theorem Run.readBits_eq {r : Run} (h : r.stream.WellFormed) (count : Nat) :
    r.readBits count =
      ({ stream := r.stream.dropBits (min count r.stream.size),
         anomalies := addNote (decide (count > r.stream.size)) Anomaly.underrun r.anomalies },
       Stream.ofBits (r.stream.bits.take (min count r.stream.size))) := by
  have hm := Stream.moveBits_eq (min count r.stream.size) (min count r.stream.size) (le_refl _) h Stream.empty_wf
    (by omega)
  simp only [Run.readBits, Run.noteIf]
  rw [hm, Stream.appendBits_empty]

/-! ### wr -/

theorem msb_mul_pow (m w k : Nat) : (msb (m * 2 ^ k) (w + k)).take w = msb m w := by
  have h := msb_append m 0 w k (by positivity)
  rw [Nat.add_zero] at h
  rw [h, List.take_left' (by simp)]

/-- The source words of `wr(v, w)` hold `msb(v mod 2^w, w)` (R140). -/
theorem take_unwords_fieldWords (v w : Nat) (hw : w ≤ 16 ∨ w = 32) :
    (unwords (fieldWords v w)).take w = msb (v % 2 ^ w) w := by
  by_cases h16 : w ≤ 16
  · have hlt : v % 2 ^ w < 2 ^ w := Nat.mod_lt _ (by positivity)
    have hlt2 : v % 2 ^ w * 2 ^ (16 - w) < 2 ^ 16 := by
      calc v % 2 ^ w * 2 ^ (16 - w) < 2 ^ w * 2 ^ (16 - w) := Nat.mul_lt_mul_of_pos_right hlt (by positivity)
        _ = 2 ^ 16 := by rw [← pow_add]; congr 1; omega
    have := msb_mul_pow (v % 2 ^ w) w (16 - w)
    rw [show w + (16 - w) = 16 by omega] at this
    simp only [fieldWords, h16, if_true, unwords_cons, unwords_nil, List.append_nil, wordBits, BitVec.toNat_ofNat,
      Nat.shiftLeft_eq, Nat.mod_eq_of_lt hlt2, this]
  · have h32 : w = 32 := by omega
    subst h32
    have hlt : v % 2 ^ 32 < 2 ^ 32 := Nat.mod_lt _ (by positivity)
    have hd : v % 2 ^ 32 / 2 ^ 16 < 2 ^ 16 := by omega
    have hsplit := msb_append (v % 2 ^ 32 / 2 ^ 16) (v % 2 ^ 32 % 2 ^ 16) 16 16 (Nat.mod_lt _ (by positivity))
    rw [Nat.div_add_mod'] at hsplit
    rw [List.take_of_length_le (by simp [fieldWords])]
    simp only [fieldWords, h16, if_false, unwords_cons, unwords_nil, List.append_nil, wordBits, BitVec.toNat_ofNat,
      Nat.shiftRight_eq_div_pow, Nat.mod_eq_of_lt hd]
    exact hsplit.symm

theorem fieldWords_length (v w : Nat) (hw : w ≤ 16 ∨ w = 32) : w ≤ 16 * (fieldWords v w).length := by
  simp only [fieldWords]; split <;> simp <;> omega

/-- `wr(v, w)` appends the w low-order bits of v and notes nothing (R140). -/
theorem Writing.wr_eq {p : Writing} (h : p.run.stream.WellFormed) (v w : Nat) (hw : w ≤ 16 ∨ w = 32) :
    p.wr v w = { run := { stream := p.run.stream.appendBits (msb (v % 2 ^ w) w), anomalies := p.run.anomalies },
                 bits := p.bits + w } := by
  have hl := fieldWords_length v w hw
  have hc : clampedCount (fieldWords v w) w = w := by simp only [clampedCount]; omega
  have hn : decide (w > 16 * (fieldWords v w).length) = false := by simp; omega
  simp only [Writing.wr, Run.writeBits_eq h, hc, hn, addNote_false, take_unwords_fieldWords v w hw]

/-- A write in progress that has appended b, n bits of it so far in the command, and noted nothing more. -/
def Writing.after (p : Writing) (b : List Bool) : Writing :=
  { run := { stream := p.run.stream.appendBits b, anomalies := p.run.anomalies }, bits := p.bits + b.length }

theorem Writing.after_wf {p : Writing} (h : p.run.stream.WellFormed) (b : List Bool) :
    (p.after b).run.stream.WellFormed := Stream.appendBits_wf h b

theorem Writing.after_after {p : Writing} (h : p.run.stream.WellFormed) (b c : List Bool) :
    (p.after b).after c = p.after (b ++ c) := by
  simp only [Writing.after, Stream.appendBits_append h, List.length_append, Nat.add_assoc]

theorem Writing.after_nil {p : Writing} (h : p.run.stream.WellFormed) : p.after [] = p := by
  simp [Writing.after, Stream.appendBits_nil h]

theorem Writing.wr_after {p : Writing} (h : p.run.stream.WellFormed) (v w : Nat) (hw : w ≤ 16 ∨ w = 32) :
    p.wr v w = p.after (msb (v % 2 ^ w) w) := by
  rw [Writing.wr_eq h v w hw]; simp [Writing.after]

theorem Alphabet.width_le (a : Alphabet) : a.width ≤ 16 := by cases a <;> decide

theorem Writing.chars_after (a : Alphabet) (u : List Cell16) : ∀ {p : Writing}, p.run.stream.WellFormed →
    p.chars a u = p.after (u.flatMap fun c => msb (a.enc c % 2 ^ a.width) a.width) := by
  induction u with
  | nil => intro p h; exact (Writing.after_nil h).symm
  | cons c cs ih =>
    intro p h
    rw [Writing.chars, Writing.wr_after h _ _ (.inl (Alphabet.width_le a)), ih (Writing.after_wf h _),
      Writing.after_after h]
    rfl

/-- writeString appends the layout of the string (R200). -/
theorem Writing.string_after {p : Writing} (h : p.run.stream.WellFormed) (u : List Cell16) :
    p.string u = p.after (stringBits u) := by
  have hid : (classify u).id % 2 ^ 4 = (classify u).id := by cases classify u <;> rfl
  simp only [Writing.string]
  rw [Writing.wr_after h _ 4 (.inl (by decide)), Writing.wr_after (Writing.after_wf h _) _ 16 (.inl (by decide)),
    Writing.after_after h, Writing.chars_after _ _ (Writing.after_wf h _), Writing.after_after h, hid]
  rfl

/-- WINT's writes append the layout of the integer (R170, R171). -/
theorem Writing.compactInt_after {p : Writing} (h : p.run.stream.WellFormed) (v : Int) :
    p.compactInt v = p.after (intBits v) := by
  have f : ∀ {q : Writing}, q.run.stream.WellFormed → q.wr 0 1 = q.after [false] := fun hq => Writing.wr_after hq 0 1 (.inl (by decide))
  have t : ∀ {q : Writing}, q.run.stream.WellFormed → q.wr 1 1 = q.after [true] := fun hq => Writing.wr_after hq 1 1 (.inl (by decide))
  have w1 := Writing.after_wf h
  unfold Writing.compactInt intBits
  split
  · rename_i hv
    rw [t h, Writing.wr_after (w1 _) _ 8 (.inl (by decide)), Writing.after_after h,
      Nat.mod_eq_of_lt (show v.toNat < 2 ^ 8 by omega)]
  · split
    · rename_i hv
      rw [f h, t (w1 _), Writing.after_after h, Writing.wr_after (w1 _) _ 16 (.inl (by decide)), Writing.after_after h,
        Nat.mod_eq_of_lt (show v.toNat < 2 ^ 16 by omega)]
      rfl
    · split
      · rename_i hv
        rw [f h, f (w1 _), Writing.after_after h, t (w1 _), Writing.after_after h, Writing.wr_after (w1 _) _ 32 (.inr rfl),
          Writing.after_after h, Nat.mod_eq_of_lt (show v.toNat < 2 ^ 32 by omega)]
        rfl
      · rw [f h, f (w1 _), Writing.after_after h, f (w1 _), Writing.after_after h, Writing.string_after (w1 _),
          Writing.after_after h]
        rfl

/-! ### rd -/

theorem words_getD (b : List Bool) (i : Nat) : (words b).getD i 0 = packWord (b.drop (16 * i)) := by
  by_cases hi : i < ceil16 b.length
  · simp [words, hi]
  · have : b.drop (16 * i) = [] := List.drop_eq_nil_of_le (by simp only [ceil16] at hi; omega)
    rw [this, List.getD_eq_default _ _ (by simp; omega)]; rfl

theorem packWord_toNat (b : List Bool) : (packWord b).toNat = val (b.take 16) * 2 ^ (16 - b.length) := by
  have h := val_msb (packWord b).isLt
  have hb := wordBits_packWord b
  rw [wordBits] at hb
  rw [← h, hb, val_append, val_replicate_false, List.length_replicate, Nat.add_zero]

/-- The value `rd` takes from the left-justified result is that of the law of a short read (R141, R152). -/
theorem rd_value (b : List Bool) (w : Nat) (hw : w ≤ 16 ∨ w = 32) :
    (if w ≤ 16 then ((words (b.take w)).getD 0 0).toNat >>> (16 - w)
      else ((words (b.take w)).getD 0 0).toNat <<< 16 ||| ((words (b.take w)).getD 1 0).toNat) = fieldAt b w := by
  rw [words_getD, words_getD, packWord_toNat, packWord_toNat]
  simp only [Nat.mul_zero, List.drop_zero, Nat.mul_one, fieldAt, List.length_take]
  by_cases h16 : w ≤ 16
  · rw [if_pos h16, List.take_take, Nat.min_eq_right h16, Nat.shiftRight_eq_div_pow,
      show 16 - min w b.length = (w - b.length) + (16 - w) by omega, pow_add, ← Nat.mul_assoc,
      Nat.mul_div_cancel _ (by positivity)]
  · have h32 : w = 32 := by omega
    subst h32
    rw [if_neg h16]
    set p := b.take 32 with hp
    have hpl : p.length = min 32 b.length := by simp [hp]
    have hlt : val ((p.drop 16).take 16) * 2 ^ (16 - (p.drop 16).length) < 2 ^ 16 := by
      rw [← packWord_toNat]; exact (packWord (p.drop 16)).isLt
    rw [← Nat.shiftLeft_add_eq_or_of_lt hlt, Nat.shiftLeft_eq,
      List.take_of_length_le (show (p.drop 16).length ≤ 16 by simp; omega)]
    have hv : val p = val (p.take 16) * 2 ^ (p.drop 16).length + val (p.drop 16) := by
      rw [← val_append, List.take_append_drop]
    by_cases hl : b.length ≤ 16
    · have hd : p.drop 16 = [] := List.drop_eq_nil_of_le (by omega)
      have ht : p.take 16 = p := List.take_of_length_le (by omega)
      rw [hd, ht, Nat.mul_assoc, ← pow_add]
      simp only [val_nil, Nat.zero_mul, Nat.add_zero]
      congr 2; omega
    · have hdl : (p.drop 16).length = min 32 b.length - 16 := by simp [hpl]
      have e1 : (p.drop 16).length + (32 - b.length) = (16 - p.length) + 16 := by omega
      have e2 : 32 - b.length = 16 - (p.drop 16).length := by omega
      rw [hv, Nat.add_mul, Nat.mul_assoc, Nat.mul_assoc, ← pow_add, ← pow_add, e1, e2, hpl]

/-- A read in progress that has asked for n bits at the head. -/
def Run.after (r : Run) (n : Nat) : Run :=
  { stream := r.stream.dropBits (min n r.stream.size),
    anomalies := addNote (decide (n > r.stream.size)) Anomaly.underrun r.anomalies }

theorem Run.after_wf {r : Run} (h : r.stream.WellFormed) (n : Nat) : (r.after n).stream.WellFormed :=
  Stream.dropBits_wf h (by omega)

theorem Run.after_size {r : Run} (h : r.stream.WellFormed) (n : Nat) : (r.after n).stream.size = r.stream.size - n := by
  rw [Run.after, Stream.dropBits_size h (by omega)]; omega

theorem Run.after_bits {r : Run} (h : r.stream.WellFormed) (n : Nat) : (r.after n).stream.bits = r.stream.bits.drop n := by
  rw [Run.after, Stream.dropBits_bits h (by omega)]
  by_cases hn : n ≤ r.stream.size
  · rw [Nat.min_eq_left hn]
  · rw [Nat.min_eq_right (by omega), List.drop_eq_nil_of_le (by rw [Stream.bits_length h]),
      List.drop_eq_nil_of_le (by rw [Stream.bits_length h]; omega)]

theorem Run.after_after {r : Run} (h : r.stream.WellFormed) (m n : Nat) : (r.after m).after n = r.after (m + n) ∨ n = 0 := by
  by_cases h0 : n = 0
  · exact .inr h0
  · refine .inl ?_
    have hs := Run.after_size h m
    rw [Run.after, hs]
    have e : (decide (m > r.stream.size) || decide (n > r.stream.size - m)) = decide (m + n > r.stream.size) := by
      rw [← Bool.decide_or]; congr 1; simp only [eq_iff_iff]; omega
    simp only [Run.after, Stream.dropBits_dropBits, addNote_addNote, e]
    congr 2; omega

/-- Asking for m bits and then for n is asking for m + n. -/
theorem Run.after_add {r : Run} (h : r.stream.WellFormed) (m n : Nat) (hn : 0 < n) :
    (r.after m).after n = r.after (m + n) := by
  rcases Run.after_after h m n with h1 | h1
  · exact h1
  · omega

/-- `rd(w)` on a well-formed stream (R141, R152). -/
theorem Run.rd_eq {r : Run} (h : r.stream.WellFormed) (w : Nat) (hw : w ≤ 16 ∨ w = 32) :
    r.rd w = (r.after w, fieldAt r.stream.bits w) := by
  have ht : r.stream.bits.take (min w r.stream.size) = r.stream.bits.take w := by
    by_cases hn : w ≤ r.stream.size
    · rw [Nat.min_eq_left hn]
    · rw [Nat.min_eq_right (by omega), List.take_of_length_le (by rw [Stream.bits_length h]),
        List.take_of_length_le (by rw [Stream.bits_length h]; omega)]
  have hv := rd_value r.stream.bits w hw
  simp only [Run.rd, Run.readBits_eq h, ht, Stream.ofBits]
  rw [hv]; rfl

theorem fieldAt_lt (b : List Bool) (w : Nat) : fieldAt b w < 2 ^ w := by
  have h := val_lt (b.take w)
  rw [List.length_take] at h
  have hp : min w b.length + (w - b.length) = w := by omega
  calc fieldAt b w < 2 ^ min w b.length * 2 ^ (w - b.length) := Nat.mul_lt_mul_of_pos_right h (by positivity)
    _ = 2 ^ w := by rw [← pow_add, hp]

/-! ### Strings and compact integers -/

theorem Alphabet.width_pos (a : Alphabet) : 0 < a.width := by cases a <;> decide

theorem Run.readChars_eq (a : Alphabet) (l : Nat) : ∀ {r : Run}, r.stream.WellFormed →
    Run.readChars a l r =
      (if l = 0 then r else r.after (a.width * l),
       (List.range l).map fun i => a.dec (fieldAt (r.stream.bits.drop (a.width * i)) a.width)) := by
  induction l with
  | zero => intro r h; rfl
  | succ l ih =>
    intro r h
    have hp := Alphabet.width_pos a
    simp only [Run.readChars, Run.rd_eq h _ (.inl (Alphabet.width_le a)), ih (Run.after_wf h _), Run.after_bits h,
      Nat.succ_ne_zero, if_false, List.range_succ_eq_map, List.map_cons, List.map_map, Nat.mul_zero, List.drop_zero,
      List.drop_drop]
    refine Prod.ext ?_ ?_
    · by_cases h0 : l = 0
      · simp [h0]
      · simp only [h0, if_false]
        rw [Run.after_add h _ _ (Nat.mul_pos hp (Nat.pos_of_ne_zero h0))]; congr 1; ring
    · simp only [Function.comp_def, Nat.mul_succ, Nat.add_comm]

/-- readString on a well-formed stream: the discriminator, the length, the characters, by the law of a short read, and
`20 + w * L` bits asked for (R202). -/
theorem Run.readString_eq {r : Run} (h : r.stream.WellFormed) :
    r.readString = (r.after (textBits r.stream.bits), textDiscriminator r.stream.bits, textChars r.stream.bits) := by
  have h4 := Run.after_wf h 4
  have h16 : ((r.after 4).after 16) = r.after 20 := Run.after_add h 4 16 (by decide)
  simp only [Run.readString, Run.rd_eq h 4 (.inl (by decide)), Run.rd_eq h4 16 (.inl (by decide)), h16,
    Run.readChars_eq _ _ (Run.after_wf h 20), Run.after_bits h, List.drop_drop]
  have e1 : (if fieldAt (r.stream.bits.drop 4) 16 = 0 then r.after 20
      else (r.after 20).after ((Alphabet.ofDiscriminator (fieldAt r.stream.bits 4)).width * fieldAt (r.stream.bits.drop 4) 16))
      = r.after (textBits r.stream.bits) := by
    have hp := Alphabet.width_pos (Alphabet.ofDiscriminator (fieldAt r.stream.bits 4))
    simp only [textBits, textAlphabet, textDiscriminator, textLength]
    split
    · rename_i h0; simp [h0]
    · rename_i h0; exact Run.after_add h _ _ (Nat.mul_pos hp (Nat.pos_of_ne_zero h0))
  rw [e1]
  rfl

/-- RINT's reads on a well-formed stream: the bits asked for, the value, and BADNUM where the text is *bad* (R172). -/
theorem Run.readCompactInt_eq {r : Run} (h : r.stream.WellFormed) :
    r.readCompactInt =
      ((r.after (intBitsAt r.stream.bits)).noteIf (intAt r.stream.bits).isNone Anomaly.badnum,
       (intAt r.stream.bits).getD 0) := by
  have n1 : ∀ q : Run, q.noteIf false Anomaly.badnum = q := fun q => rfl
  simp only [Run.readCompactInt, Run.readDecimal, Run.rd_eq h 1 (.inl (by decide)),
    Run.rd_eq (Run.after_wf h 1) 8 (.inl (by decide)), Run.rd_eq (Run.after_wf h 1) 1 (.inl (by decide)),
    Run.after_bits h, Run.after_add h 1 8 (by decide), Run.after_add h 1 1 (by decide), Nat.reduceAdd,
    Run.rd_eq (Run.after_wf h 2) 16 (.inl (by decide)), Run.rd_eq (Run.after_wf h 2) 1 (.inl (by decide)),
    Run.after_add h 2 16 (by decide), Run.after_add h 2 1 (by decide),
    Run.rd_eq (Run.after_wf h 3) 32 (.inr rfl), Run.readString_eq (Run.after_wf h 3), Run.after_add h 3 32 (by decide),
    intBitsAt, intAt]
  split
  · simp [n1]
  · split
    · simp [n1]
    · split
      · simp [n1]
      · have ht : 0 < textBits (r.stream.bits.drop 3) := by simp only [textBits]; omega
        rw [Run.after_add h 3 _ ht]
        cases parseInt (textChars (r.stream.bits.drop 3)) <;> simp [n1]

/-! ### Whole commands -/

/-- A write command whose writes append b and note at most OVERRUN (R253, R254). -/
theorem State.performWrite_eq {s : State} (h : s.WellFormed) {body : Writing → Writing} {b : List Bool} {clamped : Bool}
    (hb : body { run := { stream := s.stream, anomalies := 0 }, bits := 0 } =
      { run := { stream := s.stream.appendBits b, anomalies := if clamped then 0b00010 else 0 }, bits := b.length }) :
    s.performWrite body = .next (s.afterWrite b clamped) := by
  have hl := Stream.appendBits_cells_length h.1 b
  rw [State.performWrite, State.perform_of_wf h]
  simp only [Run.writing, hb, Run.noteOverflow, Run.noteIf, hl, State.complete, State.afterWrite]
  cases hs : s.strict <;> cases clamped <;> cases ha : s.config.admits (s.stream.cellsAfter b.length) <;>
    simp [hs, addNote, errorCode, noted, Anomaly.overflow, Anomaly.underrun, Anomaly.overrun, Anomaly.badnum,
      State.takeError, State.respond, State.afterError, State.afterOk, Response.errorOf, Response.okOf, stickyFlags]

/-- A write command whose writes append b and note nothing. -/
theorem State.performWrite_after {s : State} (h : s.WellFormed) {body : Writing → Writing} {b : List Bool}
    (hb : body (Run.writing { stream := s.stream, anomalies := 0 }) =
      (Run.writing { stream := s.stream, anomalies := 0 }).after b) :
    s.performWrite body = .next (s.afterWrite b false) :=
  State.performWrite_eq h (by simpa [Writing.after, Run.writing] using hb)

/-- A read command whose reads ask for n bits and answer a, noting BADNUM where `bad` says so (R253, R254). -/
theorem State.performRead_eq {s : State} (h : s.WellFormed) {body : Run → Run × Answer} {n : Nat} {bad : Bool} {a : Answer}
    (hb : body { stream := s.stream, anomalies := 0 } =
      ((Run.after { stream := s.stream, anomalies := 0 } n).noteIf bad Anomaly.badnum, a)) :
    s.perform body = .next (s.afterRead n bad a.val a.nb a.pay) := by
  rw [State.perform_of_wf h, hb]
  simp only [Run.noteIf, Run.after, State.complete, State.afterRead, State.readFlags]
  cases hs : s.strict <;> cases bad <;> by_cases hn : s.stream.size < n <;>
    simp [hs, hn, addNote, errorCode, noted, Anomaly.overflow, Anomaly.underrun, Anomaly.overrun, Anomaly.badnum,
      State.takeError, State.respond, State.afterError, State.afterOk, Response.errorOf, Response.okOf, stickyFlags]

/-- A command that neither reads nor writes the stream. -/
theorem State.performIdle_eq {s : State} (h : s.WellFormed) (v : Scalar) :
    s.performIdle v = .next (s.afterOk s.stream 0 v 0 []) := by
  rw [State.performIdle, State.perform_of_wf h]
  simp only [State.complete, errorCode_zero]
  simp [State.respond, State.afterOk, Response.okOf, stickyFlags]

end Sys2Proof.Machine
end

