-- ==== Sys2Proof/Laws/Decode.lean ====
section
/-! SUPPORT. Laws of the payload check and of the opcode map (30_encoding.md R80, R85). -/

namespace Sys2Proof

theorem payloadFits_iff (pay : List Cell16) : payloadFits pay = true ↔ pay.length ≤ 65535 :=
  ⟨of_decide_eq_true, decide_eq_true⟩

theorem payloadFits_eq_false_iff (pay : List Cell16) : payloadFits pay = false ↔ 65535 < pay.length := by
  rw [← Bool.not_eq_true, payloadFits_iff, Nat.not_le]

theorem Opcode.mem_all (o : Opcode) : o ∈ Opcode.all := by cases o <;> decide

/-- The 23 OP values are different (R85). -/
theorem Opcode.code_injective {o p : Opcode} (h : o.code = p.code) : o = p := by
  have : ∀ o ∈ Opcode.all, ∀ p ∈ Opcode.all, o.code = p.code → o = p := by decide
  exact this o (Opcode.mem_all o) p (Opcode.mem_all p) h

theorem Opcode.ofCode_eq_some_iff (b : BitVec 8) (o : Opcode) : Opcode.ofCode b = some o ↔ o.code = b := by
  constructor
  · intro h; simpa using List.find?_some h
  · rintro rfl; cases o <;> decide

theorem Opcode.ofCode_eq_none_iff (b : BitVec 8) : Opcode.ofCode b = none ↔ ∀ o : Opcode, o.code ≠ b := by
  simp only [Opcode.ofCode, List.find?_eq_none, beq_iff_eq]
  exact ⟨fun h o => h o (Opcode.mem_all o), fun h o _ => h o⟩

/-- A well-formed command decodes as its header does. -/
theorem decode_of_wellFormed {c : Command} (h : c.wellFormed = true) :
    decode c = match decodeHeader c.hdr with
      | .ok o => .ok (o.instr c)
      | .error e => .error e := by
  exact (if_pos h).trans (by cases decodeHeader c.hdr <;> rfl)

/-- The decoder refuses a command beyond what the port can carry. -/
theorem decode_of_not_wellFormed {c : Command} (h : c.wellFormed = false) : decode c = .error .payloadTooLong := by
  rw [decode, if_neg (by simp [h])]

/-- The decoder names the payload only for a command the port cannot carry. -/
theorem decode_ne_payloadTooLong {c : Command} (h : c.wellFormed = true) : decode c ≠ .error .payloadTooLong := by
  rw [decode_of_wellFormed h, decodeHeader]
  intro he
  revert he
  split
  · simp
  · rename_i e he
    intro h; cases h; revert he
    repeat' split
    all_goals simp

@[simp] theorem Opcode.instr_opcode (o : Opcode) (c : Command) : (o.instr c).opcode = o := by cases o <;> rfl

end Sys2Proof
end

