-- ==== Sys2Proof/Laws/Exec.lean ====
section
/-! SUPPORT. Each arm of exec as the shared operation it is, the fixed-width fields, and the steps that run no command; so
that no later proof unfolds exec or a meaning. -/

namespace Sys2Proof.Machine

/-! ### The arms of exec -/

theorem exec_size (s : State) : exec .size s = s.performIdle (sizeVal s.stream.size) := rfl

theorem exec_wbits (cnt : BitVec 20) (pay : List Cell16) (s : State) :
    exec (.wbits cnt pay) s = s.performWrite fun p =>
      { run := (p.run.writeBits pay cnt.toNat).1, bits := (p.run.writeBits pay cnt.toNat).2 } := rfl

theorem exec_rbits (cnt : BitVec 20) (s : State) :
    exec (.rbits cnt) s = s.perform fun r =>
      ((r.readBits cnt.toNat).1, { val := BitVec.ofNat 64 (r.readBits cnt.toNat).2.size,
                                   nb := BitVec.ofNat 20 (r.readBits cnt.toNat).2.size,
                                   pay := (r.readBits cnt.toNat).2.cells }) := rfl

theorem exec_clr (s : State) : exec .clr s = s.perform fun r => ({ r with stream := Stream.empty }, {}) := rfl

theorem exec_wflag (arg : Scalar) (s : State) :
    exec (.wflag arg) s = s.performWrite (Writing.wr (argBit arg).toNat 1) := rfl

theorem exec_rflag (s : State) : exec .rflag s = s.performRead 1 (BitVec.ofNat 64) := rfl

theorem exec_wu4 (arg : Scalar) (s : State) : exec (.wu4 arg) s = s.performWrite (Writing.wr arg.toNat 4) := rfl

theorem exec_ru4 (s : State) : exec .ru4 s = s.performRead 4 (BitVec.ofNat 64) := rfl

theorem exec_wu8 (arg : Scalar) (s : State) : exec (.wu8 arg) s = s.performWrite (Writing.wr arg.toNat 8) := rfl

theorem exec_ru8 (s : State) : exec .ru8 s = s.performRead 8 (BitVec.ofNat 64) := rfl

theorem exec_wu16 (arg : Scalar) (s : State) : exec (.wu16 arg) s = s.performWrite (Writing.wr arg.toNat 16) := rfl

theorem exec_ru16 (s : State) : exec .ru16 s = s.performRead 16 (BitVec.ofNat 64) := rfl

theorem exec_wu32 (arg : Scalar) (s : State) : exec (.wu32 arg) s = s.performWrite (Writing.wr arg.toNat 32) := rfl

theorem exec_ru32 (s : State) : exec .ru32 s = s.performRead 32 (BitVec.ofNat 64) := rfl

theorem exec_wflt (arg : Scalar) (s : State) : exec (.wflt arg) s = s.performWrite (Writing.wr (quant arg) 8) := rfl

theorem exec_rflt (s : State) : exec .rflt s = s.performRead 8 binary64Of255ths := rfl

theorem exec_wint (arg : Scalar) (s : State) :
    exec (.wint arg) s = s.performWrite (Writing.compactInt (argInt arg)) := rfl

theorem exec_rint (s : State) :
    exec .rint s = s.perform fun r => (r.readCompactInt.1, { val := BitVec.ofInt 64 r.readCompactInt.2 }) := rfl

theorem exec_wstr (fold : Bool) (pay : List Cell16) (s : State) :
    exec (.wstr fold pay) s = s.performWrite (Writing.string (foldText fold pay)) := rfl

theorem exec_rstr (s : State) :
    exec .rstr s = s.perform fun r =>
      (r.readString.1, { val := BitVec.ofNat 64 r.readString.2.1, nb := BitVec.ofNat 20 r.readString.2.2.length,
                         pay := r.readString.2.2 }) := by
  unfold exec execRstr
  congr 1

theorem exec_getst (s : State) : exec .getst s = s.performIdle (s.statusWord ||| (s.ctrlWord <<< 8)) := rfl

theorem exec_setmode (arg : Scalar) (s : State) :
    exec (.setmode arg) s = ({ s with strict := argBit arg }).performIdle 0 := rfl

theorem exec_clrst (arg : Scalar) (s : State) :
    exec (.clrst arg) s = ({ s with status := clearFlags s.status (argFlags arg) }).performIdle 0 := rfl

/-- A next state of a command comes from a well-formed block. -/
theorem exec_next_wf {i : Instr} {s t : State} (h : exec i s = .next t) : s.WellFormed := by
  have idle : ∀ {u v : State} {x : Scalar}, u.performIdle x = .next v → u.WellFormed :=
    fun h => (State.perform_inv h).1
  have wr : ∀ {u v : State} {f : Writing → Writing}, u.performWrite f = .next v → u.WellFormed :=
    fun h => (State.perform_inv h).1
  have rd : ∀ {u v : State} {w : Nat} {f : Nat → Scalar}, u.performRead w f = .next v → u.WellFormed :=
    fun h => (State.perform_inv h).1
  cases i with
  | size => exact idle h
  | wbits cnt pay => exact wr (exec_wbits cnt pay s ▸ h)
  | rbits cnt => exact (State.perform_inv (exec_rbits cnt s ▸ h)).1
  | clr => exact (State.perform_inv (exec_clr s ▸ h)).1
  | wflag arg => exact wr (exec_wflag arg s ▸ h)
  | rflag => exact rd (exec_rflag s ▸ h)
  | wu4 arg => exact wr (exec_wu4 arg s ▸ h)
  | ru4 => exact rd (exec_ru4 s ▸ h)
  | wu8 arg => exact wr (exec_wu8 arg s ▸ h)
  | ru8 => exact rd (exec_ru8 s ▸ h)
  | wu16 arg => exact wr (exec_wu16 arg s ▸ h)
  | ru16 => exact rd (exec_ru16 s ▸ h)
  | wu32 arg => exact wr (exec_wu32 arg s ▸ h)
  | ru32 => exact rd (exec_ru32 s ▸ h)
  | wflt arg => exact wr (exec_wflt arg s ▸ h)
  | rflt => exact rd (exec_rflt s ▸ h)
  | wint arg => exact wr (exec_wint arg s ▸ h)
  | rint => exact (State.perform_inv (exec_rint s ▸ h)).1
  | wstr fold pay => exact wr (exec_wstr fold pay s ▸ h)
  | rstr => exact (State.perform_inv (exec_rstr s ▸ h)).1
  | getst => exact idle (exec_getst s ▸ h)
  | setmode arg => exact idle (u := { s with strict := argBit arg }) (exec_setmode arg s ▸ h)
  | clrst arg => exact idle (u := { s with status := clearFlags s.status (argFlags arg) }) (exec_clrst arg s ▸ h)

/-! ### Fixed-width fields -/

/-- A command that writes one field of w bits (R140, R253). -/
theorem State.performWrite_wr {s : State} (h : s.WellFormed) (v w : Nat) (hw : w ≤ 16 ∨ w = 32) :
    s.performWrite (Writing.wr v w) = .next (s.afterWrite (msb (v % 2 ^ w) w) false) :=
  State.performWrite_after h (Writing.wr_after h.1 _ _ hw)

/-- A command that reads one field of w bits (R141, R152, R253). -/
theorem State.performRead_field {s : State} (h : s.WellFormed) (w : Nat) (hw : w ≤ 16 ∨ w = 32) (f : Nat → Scalar) :
    s.performRead w f = .next (s.afterRead w false (f (fieldAt s.stream.bits w)) 0 []) := by
  refine (State.performRead_eq h (n := w) (bad := false) (a := { val := f (fieldAt s.stream.bits w) }) ?_).trans rfl
  rw [Run.rd_eq h.1 w hw]; rfl

/-! ### Lists of commands -/

@[simp] theorem execsTo_nil (s t : State) : ExecsTo [] s t ↔ s = t := Iff.rfl

@[simp] theorem execsTo_cons (i : Instr) (rest : List Instr) (s t : State) :
    ExecsTo (i :: rest) s t ↔ ∃ u, exec i s = .next u ∧ ExecsTo rest u t := Iff.rfl

@[simp] theorem cutResponses_nil (b : List Bool) : cutResponses [] b = [] := rfl

@[simp] theorem cutResponses_cons (i : Instr) (rest : List Instr) (b : List Bool) :
    cutResponses (i :: rest) b =
      cutResponse i (b.take ((cutWidth i).getD 0)) :: cutResponses rest (b.drop ((cutWidth i).getD 0)) := rfl

/-! ### Steps that run no command -/

theorem step_reset {s : State} {rest : List PortEvent} (h : s.pending = .reset :: rest) :
    step s = .next { s with pending := rest }.takeReset := by
  simp [step, State.fetch, h]

theorem step_illegal {s : State} {c : Command} {rest : List PortEvent} {e : DecodeError}
    (h : s.pending = .command c :: rest) (hd : decode c = .error e) (he : e ≠ .payloadTooLong) :
    step s = .next { s with pending := rest }.takeIllegal := by
  cases e with
  | payloadTooLong => exact absurd rfl he
  | reservedOpcode | reservedBits | foldOutsideWstr | countOutsideBits => simp [step, State.fetch, h, hd]

theorem step_tooLong {s : State} {c : Command} {rest : List PortEvent} (h : s.pending = .command c :: rest)
    (hd : decode c = .error .payloadTooLong) : step s = .refused .payloadTooLong := by
  simp [step, State.fetch, h, hd]

end Sys2Proof.Machine
end

