-- ==== Sys2Proof/Laws/PerInstr.lean ====
section
/-! SUPPORT. Families of statements about every instruction as syntax, one lemma per constructor. EncodesItsRow: the header an
instruction encodes to matches the mask and match words of its own row of the opcode table (30_encoding.md R85). -/

namespace Sys2Proof.Laws.EncodesItsRow

def Statement (i : Instr) : Prop := i.opcode.selectedBy (encode i).hdr = true

/-- A count stands in bits 19:0, which the masks of WBITS and RBITS leave out. -/
theorem count_outside_mask (a : Header) (cnt : BitVec 20) : (a ||| cnt.setWidth 32) &&& 0xFFF00000 = a &&& 0xFFF00000 := by
  refine BitVec.eq_of_getLsbD_eq fun i hi => ?_
  rw [BitVec.getLsbD_and, BitVec.getLsbD_and, BitVec.getLsbD_or]
  by_cases h : i < 20
  · have low : ∀ j (_ : j < 20), (0xFFF00000 : BitVec 32).getLsbD j = false := by decide
    rw [low i h, Bool.and_false, Bool.and_false]
  · simp [BitVec.getLsbD_of_ge cnt i (by omega)]

theorem size : Statement .size := rfl

theorem wbits (cnt : BitVec 20) (pay : List Cell16) : Statement (.wbits cnt pay) := by
  simp only [Statement, Instr.opcode, Opcode.selectedBy, encode, headerWord, Opcode.maskWord, count_outside_mask]
  decide

theorem rbits (cnt : BitVec 20) : Statement (.rbits cnt) := by
  simp only [Statement, Instr.opcode, Opcode.selectedBy, encode, headerWord, Opcode.maskWord, count_outside_mask]
  decide

theorem clr : Statement .clr := rfl

theorem wflag (arg : Scalar) : Statement (.wflag arg) := by
  simp only [Statement, Instr.opcode, encode]; decide

theorem rflag : Statement .rflag := rfl

theorem wu4 (arg : Scalar) : Statement (.wu4 arg) := by
  simp only [Statement, Instr.opcode, encode]; decide

theorem ru4 : Statement .ru4 := rfl

theorem wu8 (arg : Scalar) : Statement (.wu8 arg) := by
  simp only [Statement, Instr.opcode, encode]; decide

theorem ru8 : Statement .ru8 := rfl

theorem wu16 (arg : Scalar) : Statement (.wu16 arg) := by
  simp only [Statement, Instr.opcode, encode]; decide

theorem ru16 : Statement .ru16 := rfl

theorem wu32 (arg : Scalar) : Statement (.wu32 arg) := by
  simp only [Statement, Instr.opcode, encode]; decide

theorem ru32 : Statement .ru32 := rfl

theorem wflt (arg : Scalar) : Statement (.wflt arg) := by
  simp only [Statement, Instr.opcode, encode]; decide

theorem rflt : Statement .rflt := rfl

theorem wint (arg : Scalar) : Statement (.wint arg) := by
  simp only [Statement, Instr.opcode, encode]; decide

theorem rint : Statement .rint := rfl

theorem wstr (fold : Bool) (pay : List Cell16) : Statement (.wstr fold pay) := by
  simp only [Statement, Instr.opcode, encode]; cases fold <;> decide

theorem rstr : Statement .rstr := rfl

theorem getst : Statement .getst := rfl

theorem setmode (arg : Scalar) : Statement (.setmode arg) := by
  simp only [Statement, Instr.opcode, encode]; decide

theorem clrst (arg : Scalar) : Statement (.clrst arg) := by
  simp only [Statement, Instr.opcode, encode]; decide

end Sys2Proof.Laws.EncodesItsRow
end

