-- ==== Sys2Proof/Tests/Slice0.lean ====
section
/-! SUPPORT. The session's own tests. Expected values come from spec/95_test_vectors.md (a vector's name stands in the test's
comment), from the examples of the rules, or from R85's table; none is the model's own answer. The witnesses at the end meet
the hypotheses of the statements of Certificates/Slice0/Obligations.lean. -/

namespace Sys2Proof.Tests

open Sys2Proof Sys2Proof.Machine

set_option Elab.async false

/-- A block that holds a stream, with CAP = inf and nothing presented. -/
def held (cells : List Cell16) (ho tf : Cursor) (strict : Bool) (status : BitVec 5) : State :=
  { State.reset with stream := { cells := cells, ho := ho, tf := tf }, strict := strict, status := status }

/-- A block of CAP cells that holds a stream. -/
def bounded (cap : Nat) (cells : List Cell16) (ho tf : Cursor) : State :=
  { State.resetWith { cap := some cap } with stream := { cells := cells, ho := ho, tf := tf } }

/-- One step on the presented command gives this response and leaves this stream and STATUS, and the mode as it was. -/
def gives (s : State) (hdr : Header) (arg : Scalar) (pay : List Cell16) (r : Response) (cells : List Cell16)
    (ho tf : Cursor) (status : BitVec 5) : Bool :=
  match step (s.present ⟨hdr, arg, pay⟩) with
  | .next t => decide (t.responses = s.responses ++ [r] ∧ t.stream = { cells := cells, ho := ho, tf := tf } ∧
      t.status = status ∧ t.strict = s.strict ∧ t.pending = s.pending ∧ t.config = s.config)
  | .fault _ => false
  | .refused _ => false

/-- The outcome is this next state. -/
def isNext (o : Host.Outcome State Fault Refusal) (t : State) : Bool :=
  match o with
  | .next u => decide (u = t)
  | .fault _ => false
  | .refused _ => false

/-- The outcome is a next state. -/
def answers (o : Host.Outcome State Fault Refusal) : Bool :=
  match o with
  | .next _ => true
  | .fault _ => false
  | .refused _ => false

theorem of_answers {o : Host.Outcome State Fault Refusal} (h : answers o = true) : ∃ t, o = .next t := by
  cases o with
  | next t => exact ⟨t, rfl⟩
  | fault f => cases h
  | refused r => cases h

/-- The outcome is a next state whose last response is r, the earlier ones being those of s. -/
def answersWith (i : Instr) (s : State) (r : Response) : Bool :=
  match exec i s with
  | .next t => decide (t.responses = s.responses ++ [r])
  | .fault _ => false
  | .refused _ => false

theorem responds_of {i : Instr} {s : State} {r : Response} (h : answersWith i s r = true) : ∃ t, Responds i s t r := by
  unfold answersWith at h
  cases he : exec i s with
  | next t => rw [he] at h; exact ⟨t, he, of_decide_eq_true h⟩
  | fault f => rw [he] at h; cases h
  | refused q => rw [he] at h; cases h

/-- An OK response. -/
def ok (nb : BitVec 20) (val : Scalar) (pay : List Cell16) : Response := { code := .ok, nb := nb, val := val, pay := pay }

/-- An error response. -/
def err (c : Code) : Response := { code := c, nb := 0, val := 0, pay := [] }

/-! ### WellFormed smoke: ill-formed terms are refused -/

theorem smoke_wbits_payload_too_long : (Instr.wbits 5 (List.replicate 65536 0)).wellFormed = false :=
  (payloadFits_eq_false_iff _).mpr (by rw [List.length_replicate]; decide)

theorem smoke_wstr_payload_too_long : (Instr.wstr false (List.replicate 65536 0x61)).wellFormed = false :=
  (payloadFits_eq_false_iff _).mpr (by rw [List.length_replicate]; decide)

theorem smoke_command_payload_too_long : (Command.mk 0x01000000 0 (List.replicate 65536 0)).wellFormed = false :=
  (payloadFits_eq_false_iff _).mpr (by rw [List.length_replicate]; decide)

theorem smoke_longest_payload_fits : (Instr.wstr true (List.replicate 65535 0x41)).wellFormed = true :=
  (payloadFits_iff _).mpr (by rw [List.length_replicate])

/-- The decoder names it, and the step refuses it by name (R80, U17). -/
theorem smoke_decode_payload_too_long :
    decode ⟨0x30000000, 0, List.replicate 65536 0x61⟩ = .error .payloadTooLong ∧
    step (State.reset.present ⟨0x30000000, 0, List.replicate 65536 0x61⟩) = .refused .payloadTooLong := by
  have h : (Command.mk 0x30000000 0 (List.replicate 65536 0x61)).wellFormed = false :=
    (payloadFits_eq_false_iff _).mpr (by rw [List.length_replicate]; decide)
  exact ⟨decode_of_not_wellFormed h, step_tooLong (rest := []) rfl (decode_of_not_wellFormed h)⟩

/-! ### Decoding: words written out from R81 and R85 -/

/-- A header written out field by field: OP 31:24, FOLD 23, RSV 22:20, CNT 19:0 (R81). -/
def fields (op : BitVec 8) (fold : BitVec 1) (rsv : BitVec 3) (cnt : BitVec 20) : Header := op ++ fold ++ rsv ++ cnt

theorem test_decode_engine :
    decode ⟨fields 0b00000001 0b0 0b000 0, 0, []⟩ = .ok .size ∧
    decode ⟨fields 0b00000010 0b0 0b000 0b11111111111111111111, 0, [0x8000]⟩ = .ok (.wbits 1048575 [0x8000]) ∧
    decode ⟨fields 0b00000011 0b0 0b000 0b00000000000000000011, 0, []⟩ = .ok (.rbits 3) ∧
    decode ⟨fields 0b00000100 0b0 0b000 0, 9, [1]⟩ = .ok .clr := by decide +kernel

theorem test_decode_primitive_writes :
    decode ⟨0x10000000, 3, []⟩ = .ok (.wflag 3) ∧ decode ⟨0x12000000, 0x1F, []⟩ = .ok (.wu4 0x1F) ∧
    decode ⟨0x14000000, 0x1FF, []⟩ = .ok (.wu8 0x1FF) ∧ decode ⟨0x16000000, 0x12345, []⟩ = .ok (.wu16 0x12345) ∧
    decode ⟨0x18000000, 0x1FFFFFFFF, []⟩ = .ok (.wu32 0x1FFFFFFFF) ∧
    decode ⟨fields 0b00011010 0b0 0b000 0, 0x3FE0000000000000, []⟩ = .ok (.wflt 0x3FE0000000000000) := by
  decide +kernel

theorem test_decode_primitive_reads :
    decode ⟨0x11000000, 0, []⟩ = .ok .rflag ∧ decode ⟨0x13000000, 0, []⟩ = .ok .ru4 ∧
    decode ⟨0x15000000, 0, []⟩ = .ok .ru8 ∧ decode ⟨0x17000000, 0, []⟩ = .ok .ru16 ∧
    decode ⟨0x19000000, 0, []⟩ = .ok .ru32 ∧ decode ⟨fields 0b00011011 0b0 0b000 0, 0, []⟩ = .ok .rflt := by
  decide +kernel

theorem test_decode_integer_and_text :
    decode ⟨fields 0b00100000 0b0 0b000 0, 519, []⟩ = .ok (.wint 519) ∧ decode ⟨0x21000000, 0, []⟩ = .ok .rint ∧
    decode ⟨fields 0b00110000 0b0 0b000 0, 0, [0x41]⟩ = .ok (.wstr false [0x41]) ∧
    decode ⟨fields 0b00110000 0b1 0b000 0, 0, [0x41]⟩ = .ok (.wstr true [0x41]) ∧
    decode ⟨0x31000000, 0, []⟩ = .ok .rstr := by decide +kernel

theorem test_decode_system :
    decode ⟨0x40000000, 0, []⟩ = .ok .getst ∧ decode ⟨0x41000000, 3, []⟩ = .ok (.setmode 3) ∧
    decode ⟨fields 0b01000010 0b0 0b000 0, 0x1F, []⟩ = .ok (.clrst 0x1F) := by decide +kernel

/-- T-SYS-2 to T-SYS-8: the illegal encodings. -/
theorem test_illegal_headers :
    ([0x00000000, 0x05000000, 0x1C000000, 0x43000000, 0xFF000000, 0x01000001, 0x30000001, 0x10000010, 0x01800000,
      0x02800005, 0x01100000, 0x42400000, 0x30900000, 0x03F00000, 0x42000001] : List Header).all
      (fun h => gives State.reset h 0 [] (err .illegal) [] 0 0 0x10) = true := by decide +kernel

/-- The 23 match words of R85 decode to the 23 commands, and no two rows overlap. -/
theorem test_rows_disjoint :
    Opcode.all.all (fun o => Opcode.all.all fun p => p.selectedBy o.matchWord == (p == o)) = true := by decide +kernel

/-- The table's words through decodeTableWord, and through withFetchWord as the first command after reset. -/
theorem test_table_words :
    Opcode.all.all (fun o =>
      (match decodeTableWord 32 o.matchWord.toNat with
        | some i => i.opcode == o
        | none => false) &&
      (match step (State.reset.withFetchWord 32 o.matchWord.toNat) with
        | .next t => t.responses.length == 1 && t.responses.all (fun r => r.code == .ok)
        | .fault _ => false
        | .refused _ => false)) = true := by decide +kernel

theorem test_table_word_beyond_header : decodeTableWord 48 0x01000000 = none := by decide +kernel

/-! ### Encoding -/

/-- R91: the written forms of the syntax table. -/
theorem test_encode :
    encode (.rbits 14) = ⟨0x0300000E, 0, []⟩ ∧ encode (.wbits 40 [0x1234, 0xABCD]) = ⟨0x02000028, 0, [0x1234, 0xABCD]⟩ ∧
    encode (.wint (BitVec.ofInt 64 (-1))) = ⟨0x20000000, 0xFFFFFFFFFFFFFFFF, []⟩ ∧
    encode (.wstr true [0x61]) = ⟨0x30800000, 0, [0x61]⟩ := by decide +kernel

/-! ### One step of each command -/

/-- T-ENG-1 #3, and a drained cell (P1 step 29). -/
theorem test_size :
    gives (held [0xBFFF, 0xF800] 0 5 false 0) 0x01000000 0x0 [] (ok 0 0x15 []) [0xBFFF, 0xF800] 0 5 0x0 = true ∧
    gives (held [0xC080] 9 9 false 0) 0x01000000 0x0 [] (ok 0 0x0 []) [0xC080] 9 9 0x0 = true := by decide +kernel

/-- T-ENG-1 #2 and #7: a spill, and both cursors with the over-write clamp. -/
theorem test_wbits :
    gives (held [0xB800] 0 5 false 0) 0x02000010 0x0 [0xFFFF] (ok 0 0x10 []) [0xBFFF, 0xF800] 0 5 0x0 = true ∧
    gives (held [0xF800] 5 5 false 1) 0x02000028 0x0 [0x1234, 0xABCD]
      (ok 0 0x20 []) [0xF891, 0xA55E, 0x6800] 5 5 0x3 = true := by decide +kernel

/-- T-STR-1 #2, T-CAP-1 #11: OVERRUN undoes in strict mode; OVERFLOW is reported before it. -/
theorem test_wbits_strict_and_bounded :
    gives (held [] 0 0 true 0) 0x02000011 0x0 [0xFFFF] (err .overrun) [] 0 0 0x2 = true ∧
    gives (bounded 2 [0x2244, 0x5555] 0 0) 0x02000028 0x0 [0xAAAA, 0xBBBB]
      (err .overflow) [0x2244, 0x5555] 0 0 0xA = true := by decide +kernel

/-- T-ENG-1 #5 and #6: across a cell, and the over-read clamp. -/
theorem test_rbits :
    gives (held [0xBFFF, 0xF800] 3 5 false 0) 0x0300000E 0x0 [] (ok 14 0xE [0xFFFC]) [0xF800] 1 5 0x0 = true ∧
    gives (held [0xF800] 1 5 false 0) 0x0300000A 0x0 []
      (ok 4 0x4 [0xF000]) [0xF800] 5 5 0x1 = true := by decide +kernel

/-- T-STR-1 #4. -/
theorem test_rbits_strict :
    gives (held [0xFFFF] 0 0 true 2) 0x03000011 0x0 [] (err .underrun) [0xFFFF] 0 0 0x3 = true := by decide +kernel

/-- T-ENG-5 #5. -/
theorem test_clr :
    gives (held [0xFF00] 8 8 true 1) 0x04000000 0x0 [] (ok 0 0x0 []) [] 0 0 0x1 = true := by decide +kernel

/-- T-PRM-11 #5 and #6: bit 0 of ARG alone. -/
theorem test_wflag :
    gives (held [0xFFF2, 0x345F, 0xFFFF, 0xFFF0] 0 12 false 0) 0x10000000 0x2 []
      (ok 0 0x1 []) [0xFFF2, 0x345F, 0xFFFF, 0xFFF0] 0 13 0x0 = true ∧
    gives (held [0xFFF2, 0x345F, 0xFFFF, 0xFFF0] 0 13 false 0) 0x10000000 0x3 []
      (ok 0 0x1 []) [0xFFF2, 0x345F, 0xFFFF, 0xFFF4] 0 14 0x0 = true := by decide +kernel

/-- T-PRM-14, T-PRM-28. -/
theorem test_rflag :
    gives (held [0xEF56, 0xDF77, 0x8000] 0 1 false 0) 0x11000000 0x0 []
      (ok 0 0x1 []) [0xEF56, 0xDF77, 0x8000] 1 1 0x0 = true ∧
    gives (held [0xA530] 12 12 true 1) 0x11000000 0x0 [] (err .underrun) [0xA530] 12 12 0x1 = true := by decide +kernel

/-- T-PRM-11 #1. -/
theorem test_wu4 :
    gives State.reset 0x12000000 0x1F [] (ok 0 0x4 []) [0xF000] 0 4 0x0 = true := by decide +kernel

/-- T-PRM-12 (the fourth read drops the cell), T-PRM-23. -/
theorem test_ru4 :
    gives (held [0xA987] 12 0 false 0) 0x13000000 0x0 [] (ok 0 0x7 []) [] 0 0 0x0 = true ∧
    gives (held [0x8000] 0 1 false 0) 0x13000000 0x0 [] (ok 0 0x8 []) [0x8000] 1 1 0x1 = true := by decide +kernel

/-- T-PRM-11 #2, T-CAP-2 (the retained cell counts). -/
theorem test_wu8 :
    gives (held [0xF000] 0 4 false 0) 0x14000000 0x1FF [] (ok 0 0x8 []) [0xFFF0] 0 12 0x0 = true ∧
    gives (bounded 1 [0xABCD] 8 0) 0x14000000 0xEF [] (err .overflow) [0xABCD] 8 0 0x8 = true := by decide +kernel

/-- T-ENG-5 #3, T-PRM-26. -/
theorem test_ru8 :
    gives (held [0xFF00] 4 8 false 0) 0x15000000 0x0 [] (ok 0 0xF0 []) [0xFF00] 8 8 0x1 = true ∧
    gives (held [0xA530] 0 12 true 1) 0x15000000 0x0 [] (ok 0 0xA5 []) [0xA530] 8 12 0x1 = true := by decide +kernel

/-- T-PRM-11 #3, T-CAP-1 #3. -/
theorem test_wu16 :
    gives (held [0xFFF0] 0 12 false 0) 0x16000000 0x12345 [] (ok 0 0x10 []) [0xFFF2, 0x3450] 0 12 0x0 = true ∧
    gives (bounded 2 [0x1111, 0x2200] 0 8) 0x16000000 0x3333 []
      (err .overflow) [0x1111, 0x2200] 0 8 0x8 = true := by decide +kernel

/-- T-PRM-14, T-PRM-25. -/
theorem test_ru16 :
    gives (held [0xEF56, 0xDF77, 0x8000] 1 1 false 0) 0x17000000 0x0 []
      (ok 0 0xDEAD []) [0xDF77, 0x8000] 1 1 0x0 = true ∧
    gives (held [0xA530] 0 12 true 0) 0x17000000 0x0 [] (err .underrun) [0xA530] 0 12 0x1 = true := by decide +kernel

/-- T-PRM-11 #4. -/
theorem test_wu32 :
    gives (held [0xFFF2, 0x3450] 0 12 false 0) 0x18000000 0x1FFFFFFFF []
      (ok 0 0x20 []) [0xFFF2, 0x345F, 0xFFFF, 0xFFF0] 0 12 0x0 = true := by decide +kernel

/-- T-PRM-22, T-PRM-10. -/
theorem test_ru32 :
    gives (held [0xDEAD, 0xB000] 0 4 false 0) 0x19000000 0x0 [] (ok 0 0xDEADB000 []) [0xB000] 4 4 0x1 = true ∧
    gives (held [0xFFFF, 0xFFFF] 0 0 false 0) 0x19000000 0x0 []
      (ok 0 0xFFFFFFFF []) [] 0 0 0x0 = true := by decide +kernel

/-- T-FLT-22, T-FLT-12 (a tie, and the wrap). -/
theorem test_wflt :
    gives (held [0x2200] 0 8 false 0) 0x1A000000 0x3FE0000000000000 [] (ok 0 0x8 []) [0x2280] 0 0 0x0 = true ∧
    gives State.reset 0x1A000000 0x3FF8000000000000 [] (ok 0 0x8 []) [0x7F00] 0 8 0x0 = true := by decide +kernel

/-- T-FLT-4, T-FLT-25. -/
theorem test_rflt :
    gives (held [0xC500] 0 8 false 0) 0x1B000000 0x0 [] (ok 0 0x3FE8B8B8B8B8B8B9 []) [0xC500] 8 8 0x0 = true ∧
    gives (held [0xC800] 0 5 false 0) 0x1B000000 0x0 []
      (ok 0 0x3FE9191919191919 []) [0xC800] 5 5 0x1 = true := by decide +kernel

/-- T-INT-5, T-INT-11. -/
theorem test_wint :
    gives State.reset 0x20000000 0x207 [] (ok 0 0x12 []) [0x4081, 0xC000] 0 2 0x0 = true ∧
    gives State.reset 0x20000000 0xFFFFFFFFFFFFFFFF []
      (ok 0 0x1F []) [0xA00, 0x44C] 0 15 0x0 = true := by decide +kernel

/-- T-INT-16, T-INT-26. -/
theorem test_rint :
    gives (held [0xA00, 0x285C, 0xEF11, 0x8EB1, 0x7B53, 0x995A, 0xBA00] 0 7 false 0) 0x21000000 0x0 []
      (ok 0 0x8000000000000000 []) [0xBA00] 7 7 0x0 = true ∧
    gives (held [0xA00, 0x240] 0 11 true 0) 0x21000000 0x0 []
      (err .badnum) [0xA00, 0x240] 0 11 0x4 = true := by decide +kernel

/-- R201's example, and T-TXT-31: folding reaches alphabet 4. -/
theorem test_wstr :
    gives State.reset 0x30000000 0x0 [0x68, 0x65, 0x6C, 0x6C, 0x6F, 0x20, 0x77, 0x6F, 0x72, 0x6C, 0x64]
      (ok 0 0x4B []) [0x4000, 0xB391, 0x6B76, 0xACE8, 0xAC60] 0 11 0x0 = true ∧
    gives State.reset 0x30800000 0x0 [0x41, 0x42, 0x43, 0x2C, 0x20, 0x44, 0x45, 0x46]
      (ok 0 60 []) [0x4000, 0x8004, 0x5FD0, 0xC850] 0 12 0x0 = true := by decide +kernel

/-- R202's example, and T-TXT-41 (a text that ends early). -/
theorem test_rstr :
    gives (held [0x4000, 0xB391, 0x6B76, 0xACE8, 0xAC60] 0 11 false 0) 0x31000000 0x0 []
      (ok 11 0x4 [0x68, 0x65, 0x6C, 0x6C, 0x6F, 0x20, 0x77, 0x6F, 0x72, 0x6C, 0x64]) [0xAC60] 11 11 0x0 = true ∧
    gives (held [0x5000, 0x36C0] 0 10 false 0) 0x31000000 0x0 []
      (ok 3 0x5 [0x31, 0x37, 0x2B]) [0x36C0] 10 10 0x1 = true := by decide +kernel

/-- T-SYS-1 #5 and #12. -/
theorem test_getst :
    gives (held [] 0 0 true 1) 0x40000000 0x0 [] (ok 0 0x101 []) [] 0 0 0x1 = true ∧
    gives (held [] 0 0 false 5) 0x40000000 0x0 [] (ok 0 0x5 []) [] 0 0 0x5 = true := by decide +kernel

/-- T-SYS-1 #13 and #16. -/
theorem test_clrst :
    gives (held [] 0 0 false 5) 0x42000000 0x1 [] (ok 0 0x0 []) [] 0 0 0x4 = true ∧
    gives (held [] 0 0 false 4) 0x42000000 0xFFFFFFFFFFFFFFFF [] (ok 0 0x0 []) [] 0 0 0x0 = true := by decide +kernel

/-- T-SYS-1 #7 and #9: only bit 0 of ARG is used; the response is (OK, 0, 0, []). -/
theorem test_setmode :
    isNext (step ((held [0x5A00] 0 8 false 1).present ⟨0x41000000, 3, []⟩))
      { held [0x5A00] 0 8 true 1 with responses := [ok 0 0 []] } = true ∧
    isNext (step ((held [0x5A00] 0 8 true 1).present ⟨0x41000000, 2, []⟩))
      { held [0x5A00] 0 8 false 1 with responses := [ok 0 0 []] } = true := by decide +kernel

/-- T-SYS-8a: an illegal command in strict mode consumes nothing. -/
theorem test_illegal_in_strict_mode :
    gives (held [0x5A00] 0 8 true 0) 0x15100000 0 [] (err .illegal) [0x5A00] 0 8 0x10 = true := by decide +kernel

/-- R280: the reset input, between commands. -/
theorem test_reset_input :
    isNext (step { held [0x5A00] 4 8 true 0x1F with pending := [.reset] }) State.reset = true := by decide +kernel

/-- T-FLT-1 to T-FLT-21: QUANT. -/
theorem test_quant :
    ([(0x0, 0), (0x3FC126E978D4FDF4, 0x22), (0x3FE8AC083126E979, 0xC5), (0x3FF0000000000000, 0xFF), (0x3FB999999999999A, 0x1A),
      (0x3F60101010101010, 0), (0x4000000000000000, 0xFE), (0xBFF0000000000000, 1), (0xBFD3333333333333, 0xB4),
      (0x7E37E43C8800759C, 0), (0x1, 0), (0xFFF0000000000000, 0), (0x7FF0000000000001, 0)] : List (Scalar × Nat)).all
      (fun x => quant x.1 == x.2) = true := by decide +kernel

/-- R193's examples: `12/3`, `1,2`, `hello world`, `Hello`, `a0`, `-.`, one space, the empty string. -/
theorem test_classify :
    classify [0x31, 0x32, 0x2F, 0x33] = .a2 ∧ classify [0x31, 0x2C, 0x32] = .a3 ∧
    classify [0x68, 0x65, 0x6C, 0x6C, 0x6F, 0x20, 0x77, 0x6F, 0x72, 0x6C, 0x64] = .a4 ∧
    classify [0x48, 0x65, 0x6C, 0x6C, 0x6F] = .a3 ∧ classify [0x61, 0x30] = .a3 ∧ classify [0x2D, 0x2E] = .a5 ∧
    classify [0x20] = .a5 ∧ classify [] = .a5 ∧ classify [0xFF, 0x80] = .a1 ∧ classify [0x100] = .a0 := by
  decide +kernel

/-! ### Witnesses: the hypotheses of each statement can be met -/

/-- 18 bits behind a partly consumed head cell, STATUS.UNDERRUN set. -/
def sample : State := held [0xBFFF, 0xF800] 3 5 false 1

/-- The same bits in strict mode. -/
def strictSample : State := held [0xBFFF, 0xF800] 3 5 true 0

/-- Well-formed blocks at the edges of R25: empty, drained in the middle of a cell (HO = TF), a full tail cell, HO = 15, a
store at CAP. -/
theorem witness_wellFormed :
    State.reset.WellFormed ∧ sample.WellFormed ∧ strictSample.WellFormed ∧ (held [0xC080] 9 9 true 0x1F).WellFormed ∧
    (held [0xFFFF] 15 0 false 0).WellFormed ∧ (held [0xFFFF, 0x8000] 15 1 false 0).WellFormed ∧
    (bounded 1 [0xABCD] 8 0).WellFormed :=
  ⟨by decide, by decide, by decide, by decide, by decide, by decide, by decide⟩

/-- Streams that break W2, W3, W4, W5 and W6 are not well formed, and a command faults on one (log 8). -/
theorem smoke_state_ill_formed :
    ¬ (held [] 1 0 false 0).WellFormed ∧ ¬ (held [0x8000] 2 1 false 0).WellFormed ∧ ¬ (held [] 0 3 false 0).WellFormed ∧
    ¬ (held [0x8001] 0 1 false 0).WellFormed ∧ ¬ (bounded 1 [1, 2] 0 0).WellFormed ∧ ¬ (bounded 0 [] 0 0).WellFormed ∧
    exec .ru8 (held [0x8001] 0 1 false 0) = .fault .illFormedState := by
  refine ⟨by decide, by decide, by decide, by decide, by decide, by decide, rfl⟩

theorem witness_DecodeReversesEncode :
    (Instr.wstr true (List.replicate 65535 0x41)).wellFormed = true ∧ (Instr.wbits 0xFFFFF []).wellFormed = true :=
  ⟨smoke_longest_payload_fits, by decide +kernel⟩

theorem witness_DecodingUsesOnlyTheFormatsParts :
    decode ⟨0x14000000, 0x5A, []⟩ = .ok (.wu8 0x5A) ∧ (Command.mk 0x14000000 0x5A [1]).wellFormed = true ∧
    decode ⟨0x02000005, 0, [0xB800]⟩ = .ok (.wbits 5 [0xB800]) ∧
    (Command.mk 0x02000005 7 [0xB800]).wellFormed = true := by decide +kernel

theorem witness_HeaderSelectsOneRowOrIsIllegal :
    (Command.mk 0x01000000 0 []).wellFormed = true ∧ decode ⟨0x01000000, 0, []⟩ = .ok .size ∧
    (sample.present ⟨0x43000000, 0, []⟩).pending = .command ⟨0x43000000, 0, []⟩ :: [] ∧
    IllegalHeader 0x43000000 ∧ IllegalHeader 0x01100000 ∧ IllegalHeader 0x01800000 ∧ IllegalHeader 0x01000001 :=
  ⟨by decide, by decide +kernel, rfl, .inl (fun o => by cases o <;> decide), .inr (.inl (by decide)),
    .inr (.inr (.inl (by decide))), .inr (.inr (.inr (by decide)))⟩

theorem witness_StepExecutesThePresentedCommand :
    (sample.present ⟨0x13000000, 0, []⟩).pending = .command ⟨0x13000000, 0, []⟩ :: [] ∧
    decode ⟨0x13000000, 0, []⟩ = .ok .ru4 := by decide +kernel

theorem witness_IdleBlockHoldsItsState : sample.pending = [] := rfl

theorem witness_ResetGivesTheResetValues :
    (({ sample with pending := [.reset] } : State).pending = .reset :: []) ∧
    ∃ t, step { sample with pending := [.reset] } = .next t := ⟨rfl, _, rfl⟩

theorem witness_ResetIsWellFormed : (Config.mk (some 1)).Valid ∧ (Config.mk none).Valid := by decide

theorem witness_EveryStepKeepsWellFormed :
    (sample.present ⟨0x13000000, 0, []⟩).WellFormed ∧ ∃ t, step (sample.present ⟨0x13000000, 0, []⟩) = .next t :=
  ⟨by decide, of_answers (by decide +kernel)⟩

theorem witness_WellFormedBlockNeverStops :
    ({ sample with pending := [.command ⟨0x13000000, 0, []⟩, .reset, .command ⟨0, 0, []⟩] } : State).Safe :=
  ⟨by decide, fun e he => by
    simp only [List.mem_cons, List.not_mem_nil, or_false] at he
    rcases he with rfl | rfl | rfl <;> trivial⟩

theorem witness_SizeAnswersTheBitCount :
    (Command.mk 0x01000000 0 []).wellFormed = true ∧
    decode ⟨0x01000000, 0, []⟩ = .ok .size ∧ sample.WellFormed ∧ ∃ t, exec .size sample = .next t :=
  ⟨by decide, by decide +kernel, by decide, of_answers (by decide +kernel)⟩

/-- A size below 2^64, the second hypothesis of SizeAnswersTheBitCount. -/
theorem witness_SizeAnswersTheBitCount_small : sample.stream.size < 2 ^ 64 := by decide

theorem witness_WbitsAppendsTheClampedPayload :
    (Command.mk 0x02000011 0 [0xFFFF]).wellFormed = true ∧
    decode ⟨0x02000011, 0, [0xFFFF]⟩ = .ok (.wbits 17 [0xFFFF]) ∧ sample.WellFormed ∧ ∃ t, exec (.wbits 17 [0xFFFF]) sample = .next t :=
  ⟨by decide, by decide +kernel, by decide, of_answers (by decide +kernel)⟩

theorem witness_RbitsRemovesTheFirstBits :
    (Command.mk 0x03000013 0 []).wellFormed = true ∧
    decode ⟨0x03000013, 0, []⟩ = .ok (.rbits 19) ∧ sample.WellFormed ∧ ∃ t, exec (.rbits 19) sample = .next t :=
  ⟨by decide, by decide +kernel, by decide, of_answers (by decide +kernel)⟩

theorem witness_ClrEmptiesTheStream :
    (Command.mk 0x04000000 0 []).wellFormed = true ∧
    decode ⟨0x04000000, 0, []⟩ = .ok .clr ∧ sample.WellFormed ∧ ∃ t, exec .clr sample = .next t :=
  ⟨by decide, by decide +kernel, by decide, of_answers (by decide +kernel)⟩

theorem witness_WflagAppendsOneBit :
    (Command.mk 0x10000000 0x3 []).wellFormed = true ∧
    decode ⟨0x10000000, 0x3, []⟩ = .ok (.wflag 0x3) ∧ sample.WellFormed ∧ ∃ t, exec (.wflag 0x3) sample = .next t :=
  ⟨by decide, by decide +kernel, by decide, of_answers (by decide +kernel)⟩

theorem witness_Wu4AppendsFourBits :
    (Command.mk 0x12000000 0x1F []).wellFormed = true ∧
    decode ⟨0x12000000, 0x1F, []⟩ = .ok (.wu4 0x1F) ∧ sample.WellFormed ∧ ∃ t, exec (.wu4 0x1F) sample = .next t :=
  ⟨by decide, by decide +kernel, by decide, of_answers (by decide +kernel)⟩

theorem witness_Wu8AppendsEightBits :
    (Command.mk 0x14000000 0x1FF []).wellFormed = true ∧
    decode ⟨0x14000000, 0x1FF, []⟩ = .ok (.wu8 0x1FF) ∧ sample.WellFormed ∧ ∃ t, exec (.wu8 0x1FF) sample = .next t :=
  ⟨by decide, by decide +kernel, by decide, of_answers (by decide +kernel)⟩

theorem witness_Wu16AppendsSixteenBits :
    (Command.mk 0x16000000 0x12345 []).wellFormed = true ∧
    decode ⟨0x16000000, 0x12345, []⟩ = .ok (.wu16 0x12345) ∧ sample.WellFormed ∧ ∃ t, exec (.wu16 0x12345) sample = .next t :=
  ⟨by decide, by decide +kernel, by decide, of_answers (by decide +kernel)⟩

theorem witness_Wu32AppendsHighHalfFirst :
    (Command.mk 0x18000000 0xDEADBEEF []).wellFormed = true ∧
    decode ⟨0x18000000, 0xDEADBEEF, []⟩ = .ok (.wu32 0xDEADBEEF) ∧ sample.WellFormed ∧ ∃ t, exec (.wu32 0xDEADBEEF) sample = .next t :=
  ⟨by decide, by decide +kernel, by decide, of_answers (by decide +kernel)⟩

theorem witness_WfltAppendsTheQuantisedByte :
    (Command.mk 0x1A000000 0x3FE0000000000000 []).wellFormed = true ∧
    decode ⟨0x1A000000, 0x3FE0000000000000, []⟩ = .ok (.wflt 0x3FE0000000000000) ∧ sample.WellFormed ∧ ∃ t, exec (.wflt 0x3FE0000000000000) sample = .next t :=
  ⟨by decide, by decide +kernel, by decide, of_answers (by decide +kernel)⟩

theorem witness_RflagReadsOneBit :
    (Command.mk 0x11000000 0 []).wellFormed = true ∧
    decode ⟨0x11000000, 0, []⟩ = .ok .rflag ∧ sample.WellFormed ∧ ∃ t, exec .rflag sample = .next t :=
  ⟨by decide, by decide +kernel, by decide, of_answers (by decide +kernel)⟩

theorem witness_Ru4ReadsFourBits :
    (Command.mk 0x13000000 0 []).wellFormed = true ∧
    decode ⟨0x13000000, 0, []⟩ = .ok .ru4 ∧ sample.WellFormed ∧ ∃ t, exec .ru4 sample = .next t :=
  ⟨by decide, by decide +kernel, by decide, of_answers (by decide +kernel)⟩

theorem witness_Ru8ReadsEightBits :
    (Command.mk 0x15000000 0 []).wellFormed = true ∧
    decode ⟨0x15000000, 0, []⟩ = .ok .ru8 ∧ sample.WellFormed ∧ ∃ t, exec .ru8 sample = .next t :=
  ⟨by decide, by decide +kernel, by decide, of_answers (by decide +kernel)⟩

theorem witness_Ru16ReadsSixteenBits :
    (Command.mk 0x17000000 0 []).wellFormed = true ∧
    decode ⟨0x17000000, 0, []⟩ = .ok .ru16 ∧ sample.WellFormed ∧ ∃ t, exec .ru16 sample = .next t :=
  ⟨by decide, by decide +kernel, by decide, of_answers (by decide +kernel)⟩

theorem witness_Ru32ReadsThirtyTwoBits :
    (Command.mk 0x19000000 0 []).wellFormed = true ∧
    decode ⟨0x19000000, 0, []⟩ = .ok .ru32 ∧ sample.WellFormed ∧ ∃ t, exec .ru32 sample = .next t :=
  ⟨by decide, by decide +kernel, by decide, of_answers (by decide +kernel)⟩

theorem witness_RfltAnswersTheNearestQuotient :
    (Command.mk 0x1B000000 0 []).wellFormed = true ∧
    decode ⟨0x1B000000, 0, []⟩ = .ok .rflt ∧ sample.WellFormed ∧ ∃ t, exec .rflt sample = .next t :=
  ⟨by decide, by decide +kernel, by decide, of_answers (by decide +kernel)⟩

/-- The bytes 0 and 255, the two named clauses of RfltAnswersTheNearestQuotient. -/
theorem witness_RfltAnswersTheNearestQuotient_ends :
    fieldAt State.reset.stream.bits 8 = 0 ∧ fieldAt (held [0xFF00] 0 8 false 0).stream.bits 8 = 255 := by
  decide +kernel

/-- A finite pattern for each clause: 0.134, 1.0, -0.0, and one that is not finite. -/
theorem witness_QuantRoundsHalfUp :
    IsFinite 0x3FC126E978D4FDF4 ∧ (IsFinite 0x3FF0000000000000 ∧ realOf 0x3FF0000000000000 = 1) ∧
    (IsFinite 0x8000000000000000 ∧ realOf 0x8000000000000000 = 0) ∧ ¬ IsFinite 0x7FF0000000000000 := by
  refine ⟨by decide, ⟨by decide, ?_⟩, ⟨by decide, ?_⟩, by decide⟩
  · have h : biasedExponent 0x3FF0000000000000 = 1023 := by decide
    have h0 : ¬ (0x3FF0000000000000 : Scalar).toNat / 2 ^ 63 = 1 := by decide
    have h1 : (0x3FF0000000000000 : Scalar).toNat % 2 ^ 52 = 0 := by decide
    rw [realOf, h, h1, if_neg h0, if_neg (by decide), show (1075 : ℕ) = 52 + 1023 from rfl, pow_add]
    simp only [one_mul, Nat.cast_zero, add_zero]
    field_simp
  · have h : biasedExponent 0x8000000000000000 = 0 := by decide
    have h1 : (0x8000000000000000 : Scalar).toNat % 2 ^ 52 = 0 := by decide
    rw [realOf, h, h1]
    simp

theorem witness_FloatRoundTripError :
    State.reset.WellFormed ∧ State.reset.stream.bits = [] ∧
    State.reset.config.admits (State.reset.stream.cellsAfter 8) = true ∧ IsFinite 0x3FF0000000000000 ∧
    0 ≤ realOf 0x3FF0000000000000 ∧ realOf 0x3FF0000000000000 ≤ 1 ∧ 255 < 256 := by
  have h := witness_QuantRoundsHalfUp.2.1.2
  refine ⟨by decide, by decide, by decide, by decide, ?_, ?_, by decide⟩
  · rw [h]; exact zero_le_one
  · rw [h]

theorem witness_WintAppendsTheNarrowestForm :
    (Command.mk 0x20000000 0x100 []).wellFormed = true ∧
    decode ⟨0x20000000, 0x100, []⟩ = .ok (.wint 0x100) ∧ sample.WellFormed ∧ ∃ t, exec (.wint 0x100) sample = .next t :=
  ⟨by decide, by decide +kernel, by decide, of_answers (by decide +kernel)⟩

/-- The boundary values of the four ranges of WintAppendsTheNarrowestForm (S2, and the two ends of 64 bits). -/
theorem witness_WintAppendsTheNarrowestForm_ranges :
    (0 ≤ (0 : Scalar).toInt ∧ (255 : Scalar).toInt ≤ 255) ∧ (256 ≤ (256 : Scalar).toInt ∧ (65535 : Scalar).toInt ≤ 65535) ∧
    (65536 ≤ (65536 : Scalar).toInt ∧ (4294967295 : Scalar).toInt ≤ 4294967295) ∧
    (4294967296 ≤ (4294967296 : Scalar).toInt ∧ (0xFFFFFFFFFFFFFFFF : Scalar).toInt < 0 ∧
      (0x8000000000000000 : Scalar).toInt < 0) := by decide

theorem witness_RintReadsWhatTheTagsAnnounce :
    (Command.mk 0x21000000 0 []).wellFormed = true ∧
    decode ⟨0x21000000, 0, []⟩ = .ok .rint ∧ sample.WellFormed ∧ ∃ t, exec .rint sample = .next t :=
  ⟨by decide, by decide +kernel, by decide, of_answers (by decide +kernel)⟩

/-- The four tags of RintReadsWhatTheTagsAnnounce: `1`, `01`, `001`, `000`. -/
theorem witness_RintReadsWhatTheTagsAnnounce_tags :
    fieldAt [true] 1 = 1 ∧ (fieldAt [false, true] 1 = 0 ∧ fieldAt ([false, true].drop 1) 1 = 1) ∧
    (fieldAt [false, false, true] 1 = 0 ∧ fieldAt ([false, false, true].drop 1) 1 = 0 ∧
      fieldAt ([false, false, true].drop 2) 1 = 1) ∧
    (fieldAt [] 1 = 0 ∧ fieldAt ([].drop 1) 1 = 0 ∧ fieldAt ([].drop 2) 1 = 0) ∧
    (held [0x8180] 0 9 false 0).stream.bits.take 1 = [true] := by decide +kernel

theorem witness_DecimalTextIsCanonical :
    (-(2 ^ 63) ≤ (-(2 ^ 63) : Int) ∧ (-(2 ^ 63) : Int) < 0) ∧ ((2 ^ 32 : Int) ≤ 2 ^ 63 - 1 ∧ (2 ^ 63 - 1 : Int) < 2 ^ 63) ∧
    decimalText (-42) = [0x2D, 0x34, 0x32] ∧ decimalText 4294967296 =
      [0x34, 0x32, 0x39, 0x34, 0x39, 0x36, 0x37, 0x32, 0x39, 0x36] := by decide +kernel

/-- T-INT-19, T-INT-20, T-INT-24, T-INT-26 and a text beyond 64 bits: what `parse` takes and what it does not. -/
theorem witness_ParseAcceptsExactlyDecimals :
    parseInt [0x30, 0x30, 0x37] = some 7 ∧ parseInt [0x2D, 0x30] = some 0 ∧ parseInt [0x31, 0x32, 0x61] = none ∧
    parseInt [0x2D] = none ∧ parseInt [] = none := by decide +kernel

theorem witness_WintRintRoundTrip :
    State.reset.WellFormed ∧ State.reset.stream.bits = [] ∧
    State.reset.config.admits (State.reset.stream.cellsAfter (intBits (0x8000000000000000 : Scalar).toInt).length) = true ∧
    (held [0x8180] 0 9 false 0).WellFormed ∧ (held [0x8180] 0 9 false 0).stream.bits = intBits (3 : Scalar).toInt ++ [] ∧
    (held [0x81E0] 0 11 false 0).stream.bits = intBits (3 : Scalar).toInt ++ [true, true] := by decide +kernel

/-- Members and non-members for ClassifierPicksTheNarrowest: a comma is in 4 and not in 5; `A` is in 3 and not in 4. -/
theorem witness_ClassifierPicksTheNarrowest :
    InAlphabet .a4 0x2C ∧ ¬ InAlphabet .a5 0x2C ∧ InAlphabet .a3 0x41 ∧ ¬ InAlphabet .a4 0x41 ∧ Alphabet.id .a3 < Alphabet.id .a4 ∧
    ¬ InAlphabet .a5 0x2F ∧ InAlphabet .a2 0x7F ∧ ¬ InAlphabet .a2 0x80 ∧ InAlphabet .a1 0xFF ∧ ¬ InAlphabet .a1 0x100 := by
  simp [InAlphabet, Alphabet.id]

theorem witness_SymbolMapsAreInverse :
    InAlphabet .a5 0x39 ∧ Alphabet.enc .a5 0x39 = 14 ∧ InAlphabet .a4 0x2C ∧ Alphabet.enc .a4 0x2C = 31 ∧
    InAlphabet .a3 0x20 ∧ Alphabet.enc .a3 0x20 = 63 ∧ (Alphabet.a3 ≠ .a5 ∧ 63 < 2 ^ Alphabet.width .a3) ∧
    (0x39 : Cell16) ≠ 0x20 ∧ (15 < 16 ∧ 15 ≠ 4) ∧ Alphabet.id .a2 ≤ 2 ∧ InAlphabet .a2 0x7F := by
  refine ⟨by simp [InAlphabet], by decide, by simp [InAlphabet], by decide, by simp [InAlphabet], by decide, by decide,
    by decide, by decide, by decide, by simp [InAlphabet]⟩

/-- The ends of the ranges of the codes of alphabets 4 and 3 (R195, R196). -/
theorem witness_SymbolMapsAreInverse_ranges :
    (Alphabet.enc .a4 0x61 = 0 ∧ Alphabet.enc .a4 0x7A = 25) ∧ (Alphabet.enc .a3 0x30 = 0 ∧ Alphabet.enc .a3 0x39 = 9) ∧
    (Alphabet.enc .a3 0x41 = 10 ∧ Alphabet.enc .a3 0x5A = 35) ∧ (Alphabet.enc .a3 0x61 = 36 ∧ Alphabet.enc .a3 0x7A = 61) ∧
    (Alphabet.dec .a5 0 = 0x2B ∧ Alphabet.dec .a5 14 = 0x39) := by decide

theorem witness_ReaderTakesTheNamedAlphabet : (15 : Nat) < 16 ∧ (Alphabet.ofDiscriminator 15).id = 0 := by decide

theorem witness_WstrAppendsTheString :
    (Command.mk 0x30800000 0 [0x41]).wellFormed = true ∧
    decode ⟨0x30800000, 0, [0x41]⟩ = .ok (.wstr true [0x41]) ∧ sample.WellFormed ∧ ∃ t, exec (.wstr true [0x41]) sample = .next t :=
  ⟨by decide, by decide +kernel, by decide, of_answers (by decide +kernel)⟩

theorem witness_RstrReadsTheString :
    (Command.mk 0x31000000 0 []).wellFormed = true ∧
    decode ⟨0x31000000, 0, []⟩ = .ok .rstr ∧ (held [0x5000, 0x1600] 0 8 false 0).WellFormed ∧ ∃ t, exec .rstr (held [0x5000, 0x1600] 0 8 false 0) = .next t :=
  ⟨by decide, by decide +kernel, by decide, of_answers (by decide +kernel)⟩

theorem witness_WstrRstrRoundTrip :
    State.reset.WellFormed ∧ State.reset.stream.bits = [] ∧ ([0x41, 0x61] : List Cell16).length ≤ 65535 ∧
    State.reset.config.admits (State.reset.stream.cellsAfter (stringBits (foldText true [0x41, 0x61])).length) = true ∧
    (held [0x5000, 0x16C0] 0 10 false 0).WellFormed ∧
    (held [0x5000, 0x16C0] 0 10 false 0).stream.bits = stringBits [0x31] ++ [true, true] := by decide +kernel

theorem witness_GetstAnswersStatusAndMode :
    (Command.mk 0x40000000 0 []).wellFormed = true ∧
    decode ⟨0x40000000, 0, []⟩ = .ok .getst ∧ sample.WellFormed ∧ ∃ t, exec .getst sample = .next t :=
  ⟨by decide, by decide +kernel, by decide, of_answers (by decide +kernel)⟩

theorem witness_SetmodeWritesStrict :
    (Command.mk 0x41000000 3 []).wellFormed = true ∧
    decode ⟨0x41000000, 3, []⟩ = .ok (.setmode 3) ∧ sample.WellFormed ∧ ∃ t, exec (.setmode 3) sample = .next t :=
  ⟨by decide, by decide +kernel, by decide, of_answers (by decide +kernel)⟩

theorem witness_ClrstClearsTheChosenFlags :
    (Command.mk 0x42000000 0x1F []).wellFormed = true ∧
    decode ⟨0x42000000, 0x1F, []⟩ = .ok (.clrst 0x1F) ∧ sample.WellFormed ∧ ∃ t, exec (.clrst 0x1F) sample = .next t :=
  ⟨by decide, by decide +kernel, by decide, of_answers (by decide +kernel)⟩

theorem witness_ClrSetmodeClrstAmountToReset :
    (held [0x5A00] 4 8 true 0x1F).WellFormed ∧ ({ sample with pending := [.reset] } : State).WellFormed ∧
    ({ sample with pending := [.reset] } : State).pending = .reset :: [] := by decide

theorem witness_WriteCommandsFrame :
    isWrite (.wu8 0x5A) = true ∧ (∃ t, exec (.wu8 0x5A) sample = .next t) ∧ (Instr.wu8 0x5A).opcode ≠ .wbits ∧
    isWrite (.wbits 9 []) = true ∧ (∃ t, exec (.wbits 9 []) strictSample = .next t) ∧
    (0 < sample.stream.cells.length ∧ 0 + 1 < sample.stream.cells.length) :=
  ⟨rfl, of_answers (by decide +kernel), by decide, rfl, of_answers (by decide +kernel), by decide⟩

theorem witness_ReadCommandsFrame :
    isRead .ru8 = true ∧ (∃ t, exec .ru8 sample = .next t) ∧ Instr.ru8.opcode ≠ .rint ∧ isRead .rint = true ∧
    (∃ t, exec .rint strictSample = .next t) :=
  ⟨rfl, of_answers (by decide +kernel), by decide, rfl, of_answers (by decide +kernel)⟩

theorem witness_EachRegisterHasItsWriters :
    (∃ t, exec .getst sample = .next t) ∧ (isRead .getst = false ∧ isWrite .getst = false ∧ Instr.getst ≠ .clr) ∧
    Instr.getst.opcode ≠ .setmode ∧ Instr.getst.opcode ≠ .clrst :=
  ⟨of_answers (by decide +kernel), by decide, by decide, by decide⟩

theorem witness_ErrorsArePrecise :
    (∃ t, Responds .ru32 strictSample t (err .underrun)) ∧ (err .underrun).code ≠ .ok :=
  ⟨responds_of (by decide +kernel), by decide⟩

/-- Each of the four error codes a legal command can answer (T-STR-1 #4 and #2, T-INT-26, T-CAP-1 #6). -/
theorem witness_ErrorCodesHaveTheirCauses :
    (∃ t, Responds .ru32 strictSample t (err .underrun)) ∧
    (∃ t, Responds (.wbits 17 [0xFFFF]) strictSample t (err .overrun)) ∧
    (∃ t, Responds .rint (held [0x0A00, 0x0240] 0 11 true 0) t (err .badnum)) ∧
    (∃ t, Responds (.wflag 1) (bounded 2 [0x1111, 0x2244] 0 0) t (err .overflow)) :=
  ⟨responds_of (by decide +kernel), responds_of (by decide +kernel), responds_of (by decide +kernel),
    responds_of (by decide +kernel)⟩

theorem witness_EachCommandGivesOneResponse :
    (sample.present ⟨0x13000000, 0, []⟩).pending = .command ⟨0x13000000, 0, []⟩ :: [] ∧
    (∃ t, step (sample.present ⟨0x13000000, 0, []⟩) = .next t) ∧ ∃ t, step (sample.present ⟨0, 0, []⟩) = .next t :=
  ⟨rfl, of_answers (by decide +kernel), of_answers (by decide +kernel)⟩

theorem witness_OnlyTheImpossibleStops :
    ¬ (held [0x8001] 0 1 false 0).WellFormed ∧
    (State.reset.present ⟨0x30000000, 0, List.replicate 65536 0x61⟩).pending =
      .command ⟨0x30000000, 0, List.replicate 65536 0x61⟩ :: [] ∧
    65535 < (List.replicate 65536 (0x61 : Cell16)).length ∧
    exec .ru4 (held [0x8001] 0 1 false 0) = .fault .illFormedState ∧
    step ((held [0x8001] 0 1 false 0).present ⟨0x13000000, 0, []⟩) = .fault .illFormedState :=
  ⟨by decide, rfl, by rw [List.length_replicate]; decide, rfl, rfl⟩

/-- A step that is refused, for the converse of OnlyTheImpossibleStops. -/
theorem witness_OnlyTheImpossibleStops_refusal :
    step (State.reset.present ⟨0x30000000, 0, List.replicate 65536 0x61⟩) = .refused .payloadTooLong := by
  refine step_tooLong rfl (decode_of_not_wellFormed ?_)
  rw [Command.wellFormed, payloadFits, List.length_replicate]; decide

theorem witness_LenientUnboundedBlockAnswersOk :
    sample.WellFormed ∧ sample.strict = false ∧ sample.config.cap = none := by decide

theorem witness_FlagsAreSticky :
    (∃ t, step (sample.present ⟨0x13000000, 0, []⟩) = .next t) ∧
    (∀ rest, (sample.present ⟨0x13000000, 0, []⟩).pending ≠ .reset :: rest) ∧
    decode ⟨0x13000000, 0, []⟩ = .ok .ru4 :=
  ⟨of_answers (by decide +kernel), fun _ => by simp, by decide +kernel⟩

theorem witness_DataResultsIgnoreStatus : (∃ t, exec .ru4 sample = .next t) ∧ Instr.ru4 ≠ .getst :=
  ⟨of_answers (by decide +kernel), by decide⟩

/-- Two blocks that differ in the three consumed bits of their head cell. -/
theorem witness_ConsumedBitsAreUnobservable :
    sample.WellFormed ∧ (held [0x1FFF, 0xF800] 3 5 false 1).WellFormed ∧ SameBlock sample (held [0x1FFF, 0xF800] 3 5 false 1) ∧
    sample.stream ≠ (held [0x1FFF, 0xF800] 3 5 false 1).stream ∧ ∃ t, exec .ru4 sample = .next t :=
  ⟨by decide, by decide, ⟨by decide +kernel, rfl, rfl, rfl, rfl, rfl, rfl, rfl⟩, by decide, of_answers (by decide +kernel)⟩

theorem witness_UnusedOperandBitsAreIgnored :
    (3 : Scalar).getLsbD 0 = (1 : Scalar).getLsbD 0 ∧ (0x1F : Scalar).setWidth 4 = (0xF : Scalar).setWidth 4 ∧
    (0x3F : Scalar).setWidth 5 = (0x1F : Scalar).setWidth 5 ∧ (0x1FF : Scalar).setWidth 8 = (0xFF : Scalar).setWidth 8 ∧
    (0x12345 : Scalar).setWidth 16 = (0x2345 : Scalar).setWidth 16 ∧
    (0x1FFFFFFFF : Scalar).setWidth 32 = (0xFFFFFFFF : Scalar).setWidth 32 := by decide

theorem witness_PayloadBeyondTheCountIsIgnored :
    sample.WellFormed ∧ ([0xB800] : List Cell16).length = ([0xBFFF] : List Cell16).length ∧
    (unwords [0xB800]).take (5 : BitVec 20).toNat = (unwords [0xBFFF]).take (5 : BitVec 20).toNat := by decide +kernel

theorem witness_WritesAppendTheSameBitsEverywhere :
    isWrite (.wu4 5) = true ∧ (Instr.wu4 5).wellFormed = true ∧ (∃ t, Responds (.wu4 5) sample t (ok 0 4 [])) ∧
    (ok 0 4 []).code = .ok :=
  ⟨rfl, rfl, responds_of (by decide +kernel), rfl⟩

theorem witness_MixedWidthsSeeTheSameBits :
    (held [0xC080] 9 9 true 0).WellFormed ∧ (held [0xC080] 9 9 true 0).stream.bits = [] ∧
    (held [0xC080] 9 9 true 0).config.admits ((held [0xC080] 9 9 true 0).stream.cellsAfter 16) = true := by
  decide +kernel

/-- WU32 and WFLAG in a bounded strict block, read as RU8, RBITS of 11 bits, RFLAG, RBITS of none, RU4, RFLAG and RU8: all 33
bits are read. -/
theorem witness_MixedWidthsSeeTheSameBits_cuts :
    { bounded 3 [] 0 0 with strict := true }.WellFormed ∧
    (∀ i ∈ [Instr.wu32 0xA987CDEF, .wflag 1], fieldBits i ≠ none) ∧
    (∀ i ∈ [Instr.ru8, .rbits 11, .rflag, .rbits 0, .ru4, .rflag, .ru8], cutWidth i ≠ none) ∧
    (bounded 3 [] 0 0).config.admits ((bounded 3 [] 0 0).stream.cellsAfter 33) = true ∧
    ([Instr.wu32 0xA987CDEF, .wflag 1].flatMap fun i => (fieldBits i).getD []).length = 33 ∧
    ([Instr.ru8, .rbits 11, .rflag, .rbits 0, .ru4, .rflag, .ru8].map fun i => (cutWidth i).getD 0).sum = 33 := by
  decide +kernel

theorem witness_StreamMovesBetweenBlocks :
    sample.WellFormed ∧ (bounded 2 [] 0 0).WellFormed ∧ (bounded 2 [] 0 0).stream = { cells := [], ho := 0, tf := 0 } ∧
    sample.stream.size ≤ 1048560 ∧ (bounded 2 [] 0 0).config.admits (ceil16 sample.stream.size) = true := by
  decide +kernel

end Sys2Proof.Tests
end

section
/-! Steps on a presented command: the command comes from the port (log 1), and a header that decodes is executed (R6, R60). -/

namespace Sys2Proof.Machine

theorem State.fetch_command {s : State} {c : Command} {rest : List PortEvent} (h : s.pending = .command c :: rest) :
    s.fetch = .command c { s with pending := rest } := by
  simp only [State.fetch, h]

/-- The counterpart of `step_illegal` for a header that decodes. -/
theorem step_legal {s : State} {c : Command} {rest : List PortEvent} {i : Instr}
    (h : s.pending = .command c :: rest) (hd : decode c = .ok i) : step s = exec i { s with pending := rest } := by
  simp only [step, State.fetch_command h, hd]

end Sys2Proof.Machine

namespace Sys2Proof.Proofs

open Sys2Proof.Machine

/-- Settles O5: the fetch takes the command from the port, and its decoding selects the executing branch of the step. -/
theorem stepExecutesThePresentedCommand : Obligations.StepExecutesThePresentedCommand :=
  fun _ _ _ _ hpending hdecode => step_legal hpending hdecode

end Sys2Proof.Proofs
end

section
/-! What the declarative outcomes of a command (`afterError`, `afterOk`, `afterWrite`, `afterRead`) do to each field, and what
`appendBits` and `dropBits` do to the cells. -/

namespace Sys2Proof.Machine

/-! ### afterError and afterOk, field by field -/

section
variable (s : State) (c : Code) (t : Stream) (flags : Anomalies) (val : Scalar) (nb : BitVec 20) (pay : List Cell16)

@[simp] theorem State.afterError_stream : (s.afterError c flags).stream = s.stream := rfl
@[simp] theorem State.afterError_strict : (s.afterError c flags).strict = s.strict := rfl
@[simp] theorem State.afterError_status : (s.afterError c flags).status = s.status ||| flags := rfl
@[simp] theorem State.afterError_config : (s.afterError c flags).config = s.config := rfl
@[simp] theorem State.afterError_pending : (s.afterError c flags).pending = s.pending := rfl
@[simp] theorem State.afterError_responses :
    (s.afterError c flags).responses = s.responses ++ [Response.errorOf c] := rfl

@[simp] theorem State.afterOk_stream : (s.afterOk t flags val nb pay).stream = t := rfl
@[simp] theorem State.afterOk_strict : (s.afterOk t flags val nb pay).strict = s.strict := rfl
@[simp] theorem State.afterOk_status : (s.afterOk t flags val nb pay).status = s.status ||| flags := rfl
@[simp] theorem State.afterOk_config : (s.afterOk t flags val nb pay).config = s.config := rfl
@[simp] theorem State.afterOk_pending : (s.afterOk t flags val nb pay).pending = s.pending := rfl
@[simp] theorem State.afterOk_responses :
    (s.afterOk t flags val nb pay).responses = s.responses ++ [Response.okOf ⟨val, nb, pay⟩] := rfl

end

/-! ### afterWrite and afterRead, said once -/

/-- A write command ends in an error response, or commits its bits within CAP. OVERFLOW is the only flag it can set, and
OVERRUN where the clamp applied. -/
theorem State.afterWrite_cases (s : State) (b : List Bool) (clamped : Bool) :
    ∃ flags : Anomalies, flags &&& 0b10101 = 0 ∧ (clamped = false → flags &&& 0b10111 = 0) ∧
      ((∃ c, s.afterWrite b clamped = s.afterError c flags) ∨
        s.config.admits (s.stream.cellsAfter b.length) = true ∧
          s.afterWrite b clamped = s.afterOk (s.stream.appendBits b) flags (BitVec.ofNat 64 b.length) 0 []) := by
  unfold State.afterWrite
  split
  · exact ⟨_, by cases clamped <;> decide, by rintro rfl; decide, .inl ⟨_, rfl⟩⟩
  · rename_i hroom
    split
    · rename_i hstrict
      exact ⟨_, by decide, by simp [hstrict.2], .inl ⟨_, rfl⟩⟩
    · exact ⟨_, by cases clamped <;> decide, by rintro rfl; decide, .inr ⟨by simpa using hroom, rfl⟩⟩

/-- UNDERRUN is the only flag a read command can set, and BADNUM where its text is *bad*. -/
theorem State.readFlags_masked (s : State) (n : Nat) (bad : Bool) :
    s.readFlags n bad &&& 0b11010 = 0 ∧ (bad = false → s.readFlags n bad &&& 0b11110 = 0) := by
  unfold State.readFlags
  by_cases hn : s.stream.size < n <;> cases bad <;> simp [hn]

/-- A read command ends in an error response, or commits the stream without the bits it took. -/
theorem State.afterRead_cases (s : State) (n : Nat) (bad : Bool) (val : Scalar) (nb : BitVec 20) (pay : List Cell16) :
    (∃ c, s.afterRead n bad val nb pay = s.afterError c (s.readFlags n bad)) ∨
      s.afterRead n bad val nb pay =
        s.afterOk (s.stream.dropBits (min n s.stream.size)) (s.readFlags n bad) val nb pay := by
  unfold State.afterRead
  split
  · exact .inl ⟨_, rfl⟩
  · split
    · exact .inl ⟨_, rfl⟩
    · exact .inr rfl

/-! ### The cells that a write and a read leave -/

@[simp] theorem Stream.appendBits_ho (t : Stream) (b : List Bool) : (t.appendBits b).ho = t.ho := rfl

@[simp] theorem Stream.dropBits_tf (t : Stream) (n : Nat) : (t.dropBits n).tf = t.tf := rfl

/-- A write changes the tail cell at most, and that one only when it has room (R22, R110). -/
theorem Stream.appendBits_memRead {t : Stream} (h : t.WellFormed) (b : List Bool) {j : Nat} (hj : j < t.cells.length)
    (hkept : j + 1 < t.cells.length ∨ t.tf = 0) : (t.appendBits b).memRead j = t.memRead j := by
  obtain ⟨-, hs⟩ | ⟨pre, c, hc, h0, -, hs⟩ := Stream.wf_shape h
  · have hcells : (t.appendBits b).cells = t.cells ++ words b := by
      rw [← words_unwords_append, ← hs]; rfl
    simp only [Stream.memRead, hcells, List.getD_append _ _ _ _ hj]
  · have hcells : (t.appendBits b).cells = pre ++ words ((wordBits c).take t.tf.toNat ++ b) := by
      rw [← words_unwords_append, ← List.append_assoc, ← hs]; rfl
    have hpre : j < pre.length := by
      have := hkept.resolve_right h0
      rw [hc, List.length_append, List.length_singleton] at this; omega
    simp only [Stream.memRead, hcells, hc, List.getD_append _ _ _ _ hpre]

/-- A read renumbers the cells it keeps and changes none (R21, R111). -/
theorem Stream.dropBits_memRead (t : Stream) (n j : Nat) :
    (t.dropBits n).memRead j = t.memRead (j + (t.ho.toNat + n) / 16) := by
  simp [Stream.memRead, Stream.dropBits, List.getD_eq_getElem?_getD, Nat.add_comm]

end Sys2Proof.Machine
end

section
/-! What a command can do, said once for all 23: a write ends in `afterWrite` of bits fixed by its operands, a read in
`afterRead` of numbers fixed by the content, and the other five have an equation each. -/

namespace Sys2Proof.Machine

/-- WBITS on a well-formed block (R121). -/
theorem exec_wbits_eq {s : State} (h : s.WellFormed) (cnt : BitVec 20) (pay : List Cell16) :
    exec (.wbits cnt pay) s = .next (s.afterWrite ((unwords pay).take (clampedCount pay cnt.toNat))
      (decide (cnt.toNat > 16 * pay.length))) := by
  rw [exec_wbits]
  refine State.performWrite_eq h ?_
  have hlen : ((unwords pay).take (clampedCount pay cnt.toNat)).length = clampedCount pay cnt.toNat := by
    simp [clampedCount, Nat.mul_comm]
  rw [Run.writeBits_eq h.1, hlen]
  simp [addNote, Anomaly.overrun]

/-- Command i appends the bits b to every well-formed block, up to the clamp and CAP (R121, R140). -/
def WritesBits (i : Instr) (b : List Bool) (clamped : Bool) : Prop :=
  ∀ s : State, s.WellFormed → exec i s = .next (s.afterWrite b clamped)

/-- Command i asks every well-formed block for n bits of its content, notes BADNUM by `bad` and answers a (R152). -/
def ReadsBits (i : Instr) (n : List Bool → Nat) (bad : List Bool → Bool) (a : List Bool → Answer) : Prop :=
  ∀ s : State, s.WellFormed → exec i s = .next (s.afterRead (n s.stream.bits) (bad s.stream.bits)
    (a s.stream.bits).val (a s.stream.bits).nb (a s.stream.bits).pay)

/-- Every write command appends bits that its operands alone determine; only WBITS can clamp. -/
theorem exec_write {i : Instr} (hi : isWrite i = true) :
    ∃ (b : List Bool) (clamped : Bool), (i.opcode ≠ .wbits → clamped = false) ∧ WritesBits i b clamped := by
  have field {i : Instr} (v w : Nat) (hw : w ≤ 16 ∨ w = 32) (heq : ∀ s, exec i s = s.performWrite (Writing.wr v w)) :
      ∃ (b : List Bool) (clamped : Bool), (i.opcode ≠ .wbits → clamped = false) ∧ WritesBits i b clamped :=
    ⟨_, false, fun _ => rfl, fun s h => (heq s).trans (State.performWrite_wr h v w hw)⟩
  cases i with
  | wbits cnt pay => exact ⟨_, _, fun hop => absurd rfl hop, fun s h => exec_wbits_eq h cnt pay⟩
  | wflag arg => exact field _ 1 (by decide) (exec_wflag arg)
  | wu4 arg => exact field _ 4 (by decide) (exec_wu4 arg)
  | wu8 arg => exact field _ 8 (by decide) (exec_wu8 arg)
  | wu16 arg => exact field _ 16 (by decide) (exec_wu16 arg)
  | wu32 arg => exact field _ 32 (by decide) (exec_wu32 arg)
  | wflt arg => exact field _ 8 (by decide) (exec_wflt arg)
  | wint arg =>
    exact ⟨_, false, fun _ => rfl, fun s h => State.performWrite_after h (Writing.compactInt_after h.1 (argInt arg))⟩
  | wstr fold pay =>
    exact ⟨_, false, fun _ => rfl, fun s h => State.performWrite_after h (Writing.string_after h.1 (foldText fold pay))⟩
  | size | rbits _ | clr | rflag | ru4 | ru8 | ru16 | ru32 | rflt | rint | rstr | getst | setmode _ | clrst _ => cases hi

/-- RBITS on a well-formed block (R122). -/
theorem exec_rbits_eq {s : State} (h : s.WellFormed) (cnt : BitVec 20) :
    exec (.rbits cnt) s = .next (s.afterRead cnt.toNat false
      (BitVec.ofNat 64 (s.stream.bits.take cnt.toNat).length) (BitVec.ofNat 20 (s.stream.bits.take cnt.toNat).length)
      (words (s.stream.bits.take cnt.toNat))) := by
  have htake : s.stream.bits.take (min cnt.toNat s.stream.size) = s.stream.bits.take cnt.toNat := by
    rw [← Stream.bits_length h.1, ← List.take_eq_take_min]
  rw [exec_rbits]
  refine (State.performRead_eq h (n := cnt.toNat) (bad := false) (a := ⟨_, _, _⟩) ?_).trans rfl
  rw [Run.readBits_eq h.1, htake, Stream.ofBits_size]
  rfl

/-- Every read command asks for a number of bits and gives an answer that the content alone determines; only RINT can note
BADNUM. -/
theorem exec_read {i : Instr} (hi : isRead i = true) :
    ∃ (n : List Bool → Nat) (bad : List Bool → Bool) (a : List Bool → Answer),
      (i.opcode ≠ .rint → ∀ b, bad b = false) ∧ ReadsBits i n bad a := by
  have field {i : Instr} (w : Nat) (hw : w ≤ 16 ∨ w = 32) (f : Nat → Scalar) (heq : ∀ s, exec i s = s.performRead w f) :
      ∃ (n : List Bool → Nat) (bad : List Bool → Bool) (a : List Bool → Answer),
        (i.opcode ≠ .rint → ∀ b, bad b = false) ∧ ReadsBits i n bad a :=
    ⟨fun _ => w, fun _ => false, fun b => { val := f (fieldAt b w) }, fun _ _ => rfl,
      fun s h => (heq s).trans (State.performRead_field h w hw f)⟩
  cases i with
  | rbits cnt =>
    exact ⟨fun _ => cnt.toNat, fun _ => false,
      fun b => ⟨BitVec.ofNat 64 (b.take cnt.toNat).length, BitVec.ofNat 20 (b.take cnt.toNat).length,
        words (b.take cnt.toNat)⟩, fun _ _ => rfl, fun s h => exec_rbits_eq h cnt⟩
  | rflag => exact field 1 (by decide) _ exec_rflag
  | ru4 => exact field 4 (by decide) _ exec_ru4
  | ru8 => exact field 8 (by decide) _ exec_ru8
  | ru16 => exact field 16 (by decide) _ exec_ru16
  | ru32 => exact field 32 (by decide) _ exec_ru32
  | rflt => exact field 8 (by decide) _ exec_rflt
  | rint =>
    refine ⟨intBitsAt, fun b => (intAt b).isNone, fun b => { val := BitVec.ofInt 64 ((intAt b).getD 0) },
      fun hop => absurd rfl hop, fun s h => ?_⟩
    rw [exec_rint]
    exact State.performRead_eq h (by rw [Run.readCompactInt_eq h.1])
  | rstr =>
    refine ⟨textBits, fun _ => false,
      fun b => ⟨BitVec.ofNat 64 (textDiscriminator b), BitVec.ofNat 20 (textChars b).length, textChars b⟩,
      fun _ _ => rfl, fun s h => ?_⟩
    rw [exec_rstr]
    exact State.performRead_eq h (by rw [Run.readString_eq h.1]; rfl)
  | size | wbits _ _ | clr | wflag _ | wu4 _ | wu8 _ | wu16 _ | wu32 _ | wflt _ | wint _ | wstr _ _ | getst | setmode _
  | clrst _ => cases hi

/-- CLR on a well-formed block (R123). -/
theorem exec_clr_eq {s : State} (h : s.WellFormed) : exec .clr s = .next (s.afterOk Stream.empty 0 0 0 []) := by
  rw [exec_clr, State.perform_of_wf h]
  simp [State.complete, State.respond, State.afterOk, Response.okOf, stickyFlags]

/-- The forms of a command: one for the writes, one for the reads, one for each of the other five. -/
inductive ExecForm : Instr → Prop
  | write {i : Instr} (b : List Bool) (clamped : Bool) (hi : isWrite i = true) (hop : i.opcode ≠ .wbits → clamped = false)
      (heq : WritesBits i b clamped) : ExecForm i
  | read {i : Instr} (n : List Bool → Nat) (bad : List Bool → Bool) (a : List Bool → Answer) (hi : isRead i = true)
      (hop : i.opcode ≠ .rint → ∀ b, bad b = false) (heq : ReadsBits i n bad a) : ExecForm i
  | size (heq : ∀ s : State, s.WellFormed → exec .size s = .next (s.afterOk s.stream 0 (sizeVal s.stream.size) 0 [])) :
      ExecForm .size
  | clr (heq : ∀ s : State, s.WellFormed → exec .clr s = .next (s.afterOk Stream.empty 0 0 0 [])) : ExecForm .clr
  | getst (heq : ∀ s : State, s.WellFormed →
      exec .getst s = .next (s.afterOk s.stream 0 (s.statusWord ||| (s.ctrlWord <<< 8)) 0 [])) : ExecForm .getst
  | setmode (arg : Scalar) (heq : ∀ s : State, s.WellFormed → exec (.setmode arg) s =
      .next ({ s with strict := argBit arg }.afterOk s.stream 0 0 0 [])) : ExecForm (.setmode arg)
  | clrst (arg : Scalar) (heq : ∀ s : State, s.WellFormed → exec (.clrst arg) s =
      .next ({ s with status := clearFlags s.status (argFlags arg) }.afterOk s.stream 0 0 0 [])) : ExecForm (.clrst arg)

/-- Every command has one of the forms: what a command can do, said once. -/
theorem execForm (i : Instr) : ExecForm i := by
  have write {i : Instr} (hi : isWrite i = true) : ExecForm i := by
    obtain ⟨b, clamped, hop, heq⟩ := exec_write hi
    exact .write b clamped hi hop heq
  have read {i : Instr} (hi : isRead i = true) : ExecForm i := by
    obtain ⟨n, bad, a, hop, heq⟩ := exec_read hi
    exact .read n bad a hi hop heq
  cases i with
  | size => exact .size fun s h => State.performIdle_eq h _
  | clr => exact .clr fun s h => exec_clr_eq h
  | getst => exact .getst fun s h => State.performIdle_eq h _
  | setmode arg => exact .setmode arg fun s h => State.performIdle_eq (s := { s with strict := argBit arg }) h 0
  | clrst arg =>
    exact .clrst arg fun s h =>
      State.performIdle_eq (s := { s with status := clearFlags s.status (argFlags arg) }) h 0
  | wbits _ _ | wflag _ | wu4 _ | wu8 _ | wu16 _ | wu32 _ | wflt _ | wint _ | wstr _ _ => exact write rfl
  | rbits _ | rflag | ru4 | ru8 | ru16 | ru32 | rflt | rint | rstr => exact read rfl

/-- A command of a well-formed block answers. -/
theorem exec_answers (i : Instr) {s : State} (h : s.WellFormed) : ∃ t, exec i s = .next t := by
  cases execForm i with
  | write _ _ _ _ heq | read _ _ _ _ _ heq | size heq | clr heq | getst heq | setmode _ heq | clrst _ heq =>
    exact ⟨_, heq s h⟩

/-- Outside R25 every command faults (log 8). -/
theorem exec_of_not_wf (i : Instr) {s : State} (h : ¬ s.WellFormed) : exec i s = .fault .illFormedState := by
  have wr (f : Writing → Writing) : s.performWrite f = .fault .illFormedState := State.perform_of_not_wf h _
  have rd (w : Nat) (f : Nat → Scalar) : s.performRead w f = .fault .illFormedState := State.perform_of_not_wf h _
  have idle {u : State} (hu : ¬ u.WellFormed) (x : Scalar) : u.performIdle x = .fault .illFormedState :=
    State.perform_of_not_wf hu _
  cases i with
  | wbits cnt pay => exact (exec_wbits cnt pay s).trans (wr _)
  | wflag _ | wu4 _ | wu8 _ | wu16 _ | wu32 _ | wflt _ | wint _ | wstr _ _ => exact wr _
  | rflag | ru4 | ru8 | ru16 | ru32 | rflt => exact rd _ _
  | rbits cnt => exact (exec_rbits cnt s).trans (State.perform_of_not_wf h _)
  | rint => exact (exec_rint s).trans (State.perform_of_not_wf h _)
  | rstr => exact (exec_rstr s).trans (State.perform_of_not_wf h _)
  | clr => exact (exec_clr s).trans (State.perform_of_not_wf h _)
  | size | getst => exact idle h _
  | setmode arg => exact idle (u := { s with strict := argBit arg }) h 0
  | clrst arg => exact idle (u := { s with status := clearFlags s.status (argFlags arg) }) h 0

/-- What a step can do, said once: idle, reset, refuse, answer ILLEGAL, or execute. -/
theorem step_cases (s : State) :
    (s.pending = [] ∧ step s = .next s) ∨
    (∃ rest, s.pending = .reset :: rest ∧ step s = .next { s with pending := rest }.takeReset) ∨
    (∃ c rest, s.pending = .command c :: rest ∧ c.wellFormed = false ∧ step s = .refused .payloadTooLong) ∨
    (∃ c rest, s.pending = .command c :: rest ∧ step s = .next { s with pending := rest }.takeIllegal) ∨
    (∃ c rest i, s.pending = .command c :: rest ∧ decode c = .ok i ∧ step s = exec i { s with pending := rest }) := by
  match hp : s.pending with
  | [] => exact .inl ⟨rfl, by simp only [step, State.fetch, hp]⟩
  | .reset :: rest => exact .inr (.inl ⟨rest, rfl, step_reset hp⟩)
  | .command c :: rest =>
    match hd : decode c with
    | .ok i => exact .inr (.inr (.inr (.inr ⟨c, rest, i, rfl, hd, step_legal hp hd⟩)))
    | .error e =>
      by_cases hw : c.wellFormed = true
      · have he : e ≠ .payloadTooLong := fun he => decode_ne_payloadTooLong hw (he ▸ hd)
        exact .inr (.inr (.inr (.inl ⟨c, rest, rfl, step_illegal hp hd he⟩)))
      · have hw' : c.wellFormed = false := by simpa using hw
        exact .inr (.inr (.inl ⟨c, rest, rfl, hw', step_tooLong hp (decode_of_not_wellFormed hw')⟩))

end Sys2Proof.Machine
end

section
/-! Every step keeps W1 to W6 (10_state.md R25), with the reset as its base. -/

namespace Sys2Proof.Machine

theorem Config.admits_zero (c : Config) : c.admits 0 = true := by
  unfold Config.admits; cases c.cap <;> simp

theorem Config.admits_of_le {c : Config} {m n : Nat} (h : c.admits n = true) (hmn : m ≤ n) : c.admits m = true := by
  unfold Config.admits at h ⊢
  cases hc : c.cap with
  | none => rfl
  | some k => rw [hc] at h; simp only [decide_eq_true_eq] at h ⊢; omega

theorem State.empty_wf {s : State} (hs : s.stream = Stream.empty) (hc : s.config.Valid) : s.WellFormed :=
  ⟨hs ▸ Stream.empty_wf, hs ▸ Config.admits_zero _, hc⟩

theorem State.afterWrite_wf {s : State} (h : s.WellFormed) (b : List Bool) (clamped : Bool) :
    (s.afterWrite b clamped).WellFormed := by
  obtain ⟨flags, -, -, ⟨c, he⟩ | ⟨hroom, he⟩⟩ := State.afterWrite_cases s b clamped
  · rw [he]; exact h
  · obtain ⟨hstream, -, hvalid⟩ := h
    rw [he]
    exact ⟨Stream.appendBits_wf hstream b, (Stream.appendBits_cells_length hstream b).symm ▸ hroom, hvalid⟩

theorem State.afterRead_wf {s : State} (h : s.WellFormed) (n : Nat) (bad : Bool) (val : Scalar) (nb : BitVec 20)
    (pay : List Cell16) : (s.afterRead n bad val nb pay).WellFormed := by
  obtain ⟨c, he⟩ | he := State.afterRead_cases s n bad val nb pay
  · rw [he]; exact h
  · obtain ⟨hstream, hroom, hvalid⟩ := h
    rw [he]
    exact ⟨Stream.dropBits_wf hstream (Nat.min_le_right _ _),
      Config.admits_of_le hroom (Stream.dropBits_cells_le s.stream _), hvalid⟩

theorem exec_keeps_wf {i : Instr} {s t : State} (ht : exec i s = .next t) : t.WellFormed := by
  have h := exec_next_wf ht
  cases execForm i with
  | write b clamped _ _ heq => cases (heq s h).symm.trans ht; exact State.afterWrite_wf h b clamped
  | read n bad a _ _ heq => cases (heq s h).symm.trans ht; exact State.afterRead_wf h _ _ _ _ _
  | clr heq => cases (heq s h).symm.trans ht; exact State.empty_wf rfl h.2.2
  | size heq | getst heq | setmode _ heq | clrst _ heq => cases (heq s h).symm.trans ht; exact h

end Sys2Proof.Machine

namespace Sys2Proof.Proofs

open Sys2Proof.Machine

/-- Settles O9: of the five things a step can do, only executing changes the stream other than by emptying it. -/
theorem everyStepKeepsWellFormed : Obligations.EveryStepKeepsWellFormed := by
  intro s t hs hstep
  obtain ⟨-, he⟩ | ⟨rest, -, he⟩ | ⟨c, rest, -, -, he⟩ | ⟨c, rest, -, he⟩ | ⟨c, rest, i, -, -, he⟩ := step_cases s
  · cases he.symm.trans hstep; exact hs
  · cases he.symm.trans hstep; exact State.empty_wf rfl hs.2.2
  · cases he.symm.trans hstep
  · cases he.symm.trans hstep; exact hs
  · exact exec_keeps_wf (he ▸ hstep)

/-- Settles O7: the reset input is taken whatever the block holds, and leaves the empty stream. -/
theorem resetGivesTheResetValues : Obligations.ResetGivesTheResetValues := by
  refine ⟨?_, fun s rest hp => ⟨_, step_reset hp⟩⟩
  rintro s (rfl | ⟨s0, rest, hp, hstep⟩)
  · decide
  · cases (step_reset hp).symm.trans hstep
    exact ⟨rfl, rfl, rfl, rfl, rfl, (by decide : Stream.empty.size = 0)⟩

/-- Settles O8: the empty stream is canonical and fits every CAP. -/
theorem resetIsWellFormed : Obligations.ResetIsWellFormed :=
  ⟨State.empty_wf rfl (by decide), fun _ hc => State.empty_wf rfl hc⟩

end Sys2Proof.Proofs
end

section
/-! Blocks that differ only in the consumed bits of the head cell stay alike (10_state.md R27, R28). -/

namespace Sys2Proof.Machine

section
variable {s u : State} (h : SameBlock s u)
include h

theorem SameBlock.afterError (c : Code) (flags : Anomalies) :
    SameBlock (s.afterError c flags) (u.afterError c flags) where
  bits := h.bits
  ho := h.ho
  tf := h.tf
  strict := h.strict
  status := by simp [h.status]
  config := h.config
  pending := h.pending
  responses := by simp [h.responses]

/-- Committing streams that look alike, with one answer, leaves blocks that look alike. -/
theorem SameBlock.afterOk {t v : Stream} (hbits : t.bits = v.bits) (hho : t.ho = v.ho) (htf : t.tf = v.tf)
    (flags : Anomalies) (val : Scalar) (nb : BitVec 20) (pay : List Cell16) :
    SameBlock (s.afterOk t flags val nb pay) (u.afterOk v flags val nb pay) where
  bits := hbits
  ho := hho
  tf := htf
  strict := h.strict
  status := by simp [h.status]
  config := h.config
  pending := h.pending
  responses := by simp [h.responses]

/-- The size is a function of the content. -/
theorem SameBlock.size (hs : s.WellFormed) (hu : u.WellFormed) : s.stream.size = u.stream.size := by
  rw [← Stream.bits_length hs.1, ← Stream.bits_length hu.1, h.bits]

theorem SameBlock.afterWrite (hs : s.WellFormed) (hu : u.WellFormed) (b : List Bool) (clamped : Bool) :
    SameBlock (s.afterWrite b clamped) (u.afterWrite b clamped) := by
  have hcells : s.stream.cellsAfter b.length = u.stream.cellsAfter b.length := by
    simp only [Stream.cellsAfter, h.ho, h.size hs hu]
  have hbits : (s.stream.appendBits b).bits = (u.stream.appendBits b).bits := by
    rw [Stream.appendBits_bits hs.1, Stream.appendBits_bits hu.1, h.bits]
  have htf : (s.stream.appendBits b).tf = (u.stream.appendBits b).tf := by simp only [Stream.appendBits, h.tf]
  unfold State.afterWrite
  rw [hcells, h.config, h.strict]
  split
  · exact h.afterError _ _
  · split
    · exact h.afterError _ _
    · exact h.afterOk hbits h.ho htf _ _ _ _

theorem SameBlock.afterRead (hs : s.WellFormed) (hu : u.WellFormed) (n : Nat) (bad : Bool) (val : Scalar)
    (nb : BitVec 20) (pay : List Cell16) :
    SameBlock (s.afterRead n bad val nb pay) (u.afterRead n bad val nb pay) := by
  have hsize := h.size hs hu
  have hbits : (s.stream.dropBits (min n u.stream.size)).bits = (u.stream.dropBits (min n u.stream.size)).bits := by
    rw [Stream.dropBits_bits hs.1 (hsize ▸ Nat.min_le_right _ _), Stream.dropBits_bits hu.1 (Nat.min_le_right _ _), h.bits]
  have hho : (s.stream.dropBits (min n u.stream.size)).ho = (u.stream.dropBits (min n u.stream.size)).ho := by
    simp only [Stream.dropBits, h.ho]
  unfold State.afterRead State.readFlags
  rw [hsize, h.strict]
  split
  · exact h.afterError _ _
  · split
    · exact h.afterError _ _
    · exact h.afterOk hbits hho h.tf _ _ _ _

/-- One command on two blocks that look alike. -/
theorem SameBlock.exec_alike {i : Instr} {t : State} (hs : s.WellFormed) (hu : u.WellFormed) (ht : exec i s = .next t) :
    ∃ v, exec i u = .next v ∧ SameBlock t v := by
  cases execForm i with
  | write b clamped _ _ heq =>
    cases (heq s hs).symm.trans ht
    exact ⟨_, heq u hu, h.afterWrite hs hu b clamped⟩
  | read n bad a _ _ heq =>
    cases (heq s hs).symm.trans ht
    exact ⟨_, heq u hu, h.bits ▸ h.afterRead hs hu _ _ _ _ _⟩
  | size heq =>
    cases (heq s hs).symm.trans ht
    exact ⟨_, heq u hu, h.size hs hu ▸ h.afterOk h.bits h.ho h.tf _ _ _ _⟩
  | clr heq =>
    cases (heq s hs).symm.trans ht
    exact ⟨_, heq u hu, h.afterOk rfl rfl rfl _ _ _ _⟩
  | getst heq =>
    have hval : s.statusWord ||| (s.ctrlWord <<< 8) = u.statusWord ||| (u.ctrlWord <<< 8) := by
      simp only [State.statusWord, State.ctrlWord, h.status, h.strict]
    cases (heq s hs).symm.trans ht
    exact ⟨_, heq u hu, hval ▸ h.afterOk h.bits h.ho h.tf _ _ _ _⟩
  | setmode arg heq =>
    have h0 : SameBlock { s with strict := argBit arg } { u with strict := argBit arg } := { h with strict := rfl }
    cases (heq s hs).symm.trans ht
    exact ⟨_, heq u hu, h0.afterOk h.bits h.ho h.tf _ _ _ _⟩
  | clrst arg heq =>
    have h0 : SameBlock { s with status := clearFlags s.status (argFlags arg) }
        { u with status := clearFlags u.status (argFlags arg) } := { h with status := by simp only [h.status] }
    cases (heq s hs).symm.trans ht
    exact ⟨_, heq u hu, h0.afterOk h.bits h.ho h.tf _ _ _ _⟩

end

end Sys2Proof.Machine

namespace Sys2Proof.Proofs

open Sys2Proof.Machine

/-- Settles O54: every command asks the block for its content, cursors and registers only. -/
theorem consumedBitsAreUnobservable : Obligations.ConsumedBitsAreUnobservable :=
  fun _ _ _ _ hs hs' hsame ht => hsame.exec_alike hs hs' ht

end Sys2Proof.Proofs
end

section
/-! Frames: what the commands leave unchanged, which registers each writes, and how STATUS behaves (10_state.md R20 to R22,
R29, R30). -/

namespace Sys2Proof.Machine

/-- Masking a status with flags that the mask misses. -/
theorem status_masked {status flags mask : BitVec 5} (h : flags &&& mask = 0) :
    (status ||| flags) &&& mask = status &&& mask := by
  have hdist : (status ||| flags) &&& mask = (status &&& mask) ||| (flags &&& mask) := by
    ext j; simp [Bool.and_or_distrib_right]
  rw [hdist, h]; simp

/-- Flags that are added keep those that are set. -/
theorem status_sticky (status flags : BitVec 5) : status &&& (status ||| flags) = status := by
  ext j hj; simp +contextual

/-! ### A write -/

section
variable {s : State} (h : s.WellFormed) (b : List Bool) (clamped : Bool)

theorem State.afterWrite_frame :
    (s.afterWrite b clamped).stream.ho = s.stream.ho ∧ (s.afterWrite b clamped).strict = s.strict ∧
      (s.afterWrite b clamped).config = s.config ∧ (s.afterWrite b clamped).pending = s.pending := by
  obtain ⟨flags, -, -, ⟨c, he⟩ | ⟨-, he⟩⟩ := State.afterWrite_cases s b clamped
  · simp [he]
  · simp [he]

theorem State.afterWrite_status :
    ∃ flags : Anomalies, (s.afterWrite b clamped).status = s.status ||| flags ∧ flags &&& 0b10101 = 0 ∧
      (clamped = false → flags &&& 0b10111 = 0) := by
  obtain ⟨flags, h1, h2, ⟨c, he⟩ | ⟨-, he⟩⟩ := State.afterWrite_cases s b clamped
  · exact ⟨flags, by simp [he], h1, h2⟩
  · exact ⟨flags, by simp [he], h1, h2⟩

theorem State.afterWrite_responses : ∃ r, (s.afterWrite b clamped).responses = s.responses ++ [r] := by
  obtain ⟨flags, -, -, ⟨c, he⟩ | ⟨-, he⟩⟩ := State.afterWrite_cases s b clamped
  · exact ⟨_, by rw [he]; rfl⟩
  · exact ⟨_, by rw [he]; rfl⟩

/-- After a write the stream is the one before it, or that one with the bits appended. -/
theorem State.afterWrite_stream :
    (s.afterWrite b clamped).stream = s.stream ∨ (s.afterWrite b clamped).stream = s.stream.appendBits b := by
  obtain ⟨flags, -, -, ⟨c, he⟩ | ⟨-, he⟩⟩ := State.afterWrite_cases s b clamped
  · exact .inl (by simp [he])
  · exact .inr (by simp [he])

include h

theorem State.afterWrite_stored : s.stream.stored <+: (s.afterWrite b clamped).stream.stored := by
  obtain he | he := State.afterWrite_stream (s := s) b clamped
  · rw [he]
  · rw [he, (Stream.appendBits_spec h.1 b).2]; exact ⟨b, rfl⟩

theorem State.afterWrite_memRead {j : Nat} (hj : j < s.stream.cells.length)
    (hkept : j + 1 < s.stream.cells.length ∨ s.stream.tf = 0) :
    (s.afterWrite b clamped).stream.memRead j = s.stream.memRead j := by
  obtain he | he := State.afterWrite_stream (s := s) b clamped
  · rw [he]
  · rw [he, Stream.appendBits_memRead h.1 b hj hkept]

end

/-! ### A read -/

section
variable {s : State} (n : Nat) (bad : Bool) (val : Scalar) (nb : BitVec 20) (pay : List Cell16)

theorem State.afterRead_frame :
    (s.afterRead n bad val nb pay).stream.tf = s.stream.tf ∧ (s.afterRead n bad val nb pay).strict = s.strict ∧
      (s.afterRead n bad val nb pay).config = s.config ∧ (s.afterRead n bad val nb pay).pending = s.pending := by
  obtain ⟨c, he⟩ | he := State.afterRead_cases s n bad val nb pay
  · simp [he]
  · simp [he]

theorem State.afterRead_status : (s.afterRead n bad val nb pay).status = s.status ||| s.readFlags n bad := by
  obtain ⟨c, he⟩ | he := State.afterRead_cases s n bad val nb pay
  · simp [he]
  · simp [he]

theorem State.afterRead_responses : ∃ r, (s.afterRead n bad val nb pay).responses = s.responses ++ [r] := by
  obtain ⟨c, he⟩ | he := State.afterRead_cases s n bad val nb pay
  · exact ⟨_, by rw [he]; rfl⟩
  · exact ⟨_, by rw [he]; rfl⟩

/-- After a read the stream has lost k bits from its head: none after an error. -/
theorem State.afterRead_stream :
    ∃ k ≤ s.stream.size, (s.afterRead n bad val nb pay).stream = s.stream.dropBits k := by
  obtain ⟨c, he⟩ | he := State.afterRead_cases s n bad val nb pay
  · exact ⟨0, Nat.zero_le _, by simp [he, Stream.dropBits_zero]⟩
  · exact ⟨min n s.stream.size, Nat.min_le_right _ _, by simp [he]⟩

end

end Sys2Proof.Machine

namespace Sys2Proof.Proofs

open Sys2Proof.Machine

/-- Settles O44: a write adds its bits after the stored ones, or nothing. -/
theorem writeCommandsFrame : Obligations.WriteCommandsFrame := by
  intro i s t hi ht
  have h := exec_next_wf ht
  obtain ⟨b, clamped, hop, heq⟩ := exec_write hi
  cases (heq s h).symm.trans ht
  obtain ⟨hho, hstrict, hconfig, hpending⟩ := State.afterWrite_frame (s := s) b clamped
  obtain ⟨flags, hstatus, hmask, hmask'⟩ := State.afterWrite_status (s := s) b clamped
  refine ⟨hho, hstrict, hconfig, hpending, State.afterWrite_stored h b clamped,
    fun j hj hkept => State.afterWrite_memRead h b clamped hj hkept, ?_, fun hw => ?_,
    State.afterWrite_responses b clamped⟩
  · rw [hstatus, status_masked hmask]
  · rw [hstatus, status_masked (hmask' (hop hw))]

/-- Settles O45: a read drops bits from the head, and their number is the difference of the sizes. -/
theorem readCommandsFrame : Obligations.ReadCommandsFrame := by
  intro i s t hi ht
  have h := exec_next_wf ht
  obtain ⟨n, bad, a, hop, heq⟩ := exec_read hi
  cases (heq s h).symm.trans ht
  obtain ⟨htf, hstrict, hconfig, hpending⟩ := State.afterRead_frame (s := s) (n s.stream.bits) (bad s.stream.bits)
    (a s.stream.bits).val (a s.stream.bits).nb (a s.stream.bits).pay
  obtain ⟨k, hk, hstream⟩ := State.afterRead_stream (s := s) (n s.stream.bits) (bad s.stream.bits)
    (a s.stream.bits).val (a s.stream.bits).nb (a s.stream.bits).pay
  obtain ⟨hmask, hmask'⟩ := State.readFlags_masked s (n s.stream.bits) (bad s.stream.bits)
  have hsize := Stream.dropBits_size h.1 hk
  refine ⟨htf, hstrict, hconfig, hpending, ?_, fun j => ?_, ?_, fun hr => ?_, State.afterRead_responses _ _ _ _ _⟩
  · rw [hstream, hsize]; exact Nat.sub_le _ _
  · rw [hstream, hsize, Stream.dropBits_memRead, Nat.sub_sub_self hk]
  · rw [State.afterRead_status, status_masked hmask]
  · rw [State.afterRead_status, status_masked (hmask' (hop hr _))]

/-- Settles O46, by the form of the command. -/
theorem eachRegisterHasItsWriters : Obligations.EachRegisterHasItsWriters := by
  intro i s t ht
  have h := exec_next_wf ht
  cases execForm i with
  | write b clamped hi _ heq =>
    cases (heq s h).symm.trans ht
    obtain ⟨hho, hstrict, hconfig, hpending⟩ := State.afterWrite_frame (s := s) b clamped
    obtain ⟨flags, hstatus, -, -⟩ := State.afterWrite_status (s := s) b clamped
    exact ⟨fun _ hw => absurd hi (by simp [hw]), fun _ _ => hho, fun hw => absurd hi (by simp [hw]), fun _ => hstrict,
      fun _ => hstatus ▸ status_sticky _ _, hconfig, hpending⟩
  | read n bad a hi _ heq =>
    cases (heq s h).symm.trans ht
    obtain ⟨htf, hstrict, hconfig, hpending⟩ := State.afterRead_frame (s := s) (n s.stream.bits) (bad s.stream.bits)
      (a s.stream.bits).val (a s.stream.bits).nb (a s.stream.bits).pay
    exact ⟨fun hr => absurd hi (by simp [hr]), fun hr => absurd hi (by simp [hr]), fun _ _ => htf, fun _ => hstrict,
      fun _ => (State.afterRead_status _ _ _ _ _).symm ▸ status_sticky _ _, hconfig, hpending⟩
  | clr heq =>
    cases (heq s h).symm.trans ht
    exact ⟨fun _ _ hc => absurd rfl hc, fun _ hc => absurd rfl hc, fun _ hc => absurd rfl hc, fun _ => rfl,
      fun _ => status_sticky _ _, rfl, rfl⟩
  | size heq | getst heq =>
    cases (heq s h).symm.trans ht
    exact ⟨fun _ _ _ => ⟨rfl, fun _ => by simp⟩, fun _ _ => rfl, fun _ _ => rfl, fun _ => rfl,
      fun _ => status_sticky _ _, rfl, rfl⟩
  | setmode arg heq =>
    cases (heq s h).symm.trans ht
    exact ⟨fun _ _ _ => ⟨rfl, fun _ => by simp⟩, fun _ _ => rfl, fun _ _ => rfl, fun hop => absurd rfl hop,
      fun _ => status_sticky _ _, rfl, rfl⟩
  | clrst arg heq =>
    cases (heq s h).symm.trans ht
    exact ⟨fun _ _ _ => ⟨rfl, fun hop => absurd rfl hop⟩, fun _ _ => rfl, fun _ _ => rfl, fun _ => rfl,
      fun hop => absurd rfl hop, rfl, rfl⟩

/-- Settles O50: a well-formed block answers every command, any other faults, and a step refuses at the port only. -/
theorem onlyTheImpossibleStops : Obligations.OnlyTheImpossibleStops := by
  have hfault : ∀ (i : Instr) (s : State) (f : Fault), exec i s = .fault f → ¬ s.WellFormed := by
    intro i s f hf hw
    obtain ⟨t, ht⟩ := exec_answers i hw
    cases ht.symm.trans hf
  have hrefused : ∀ (i : Instr) (s : State) (r : Refusal), exec i s ≠ .refused r := by
    intro i s r hr
    by_cases hw : s.WellFormed
    · obtain ⟨t, ht⟩ := exec_answers i hw
      cases ht.symm.trans hr
    · cases (exec_of_not_wf i hw).symm.trans hr
  refine ⟨fun i s => exec_of_not_wf i, fun s c rest hp hlong => ?_, hfault, hrefused, fun s f hf => ?_, fun s r hr => ?_⟩
  · exact step_tooLong hp (decode_of_not_wellFormed ((payloadFits_eq_false_iff c.pay).mpr hlong))
  · obtain ⟨-, he⟩ | ⟨rest, -, he⟩ | ⟨c, rest, -, -, he⟩ | ⟨c, rest, -, he⟩ | ⟨c, rest, i, -, -, he⟩ := step_cases s
    · cases he.symm.trans hf
    · cases he.symm.trans hf
    · cases he.symm.trans hf
    · cases he.symm.trans hf
    · exact hfault i { s with pending := rest } f (he ▸ hf)
  · obtain ⟨-, he⟩ | ⟨rest, -, he⟩ | ⟨c, rest, hp, hw, he⟩ | ⟨c, rest, -, he⟩ | ⟨c, rest, i, -, -, he⟩ := step_cases s
    · cases he.symm.trans hr
    · cases he.symm.trans hr
    · exact ⟨c, rest, hp, (payloadFits_eq_false_iff c.pay).mp hw⟩
    · cases he.symm.trans hr
    · exact absurd (he ▸ hr) (hrefused i _ r)

/-- Settles O52: commands clear a flag only as O46 says, and the other steps keep STATUS or add ILLEGAL. -/
theorem flagsAreSticky : Obligations.FlagsAreSticky := by
  intro s t hstep hreset hclrst
  obtain ⟨-, he⟩ | ⟨rest, hp, -⟩ | ⟨c, rest, -, -, he⟩ | ⟨c, rest, -, he⟩ | ⟨c, rest, i, hp, hd, he⟩ := step_cases s
  · cases he.symm.trans hstep; simp
  · exact absurd hp (hreset rest)
  · cases he.symm.trans hstep
  · cases he.symm.trans hstep; exact status_sticky _ _
  · have hop : i.opcode ≠ .clrst := by
      cases i with
      | clrst arg => exact absurd hd (hclrst c rest hp arg)
      | _ => simp [Instr.opcode]
    obtain ⟨-, -, -, -, hsticky, -, -⟩ := eachRegisterHasItsWriters i _ t (he ▸ hstep)
    exact hsticky hop

/-- Settles O53: a command's outcome is made from the stream, CTRL and CAP, and STATUS only collects its flags. -/
theorem dataResultsIgnoreStatus : Obligations.DataResultsIgnoreStatus := by
  intro i s t x ht hne
  have h := exec_next_wf ht
  cases execForm i with
  | write b clamped _ _ heq =>
    cases (heq s h).symm.trans ht
    refine ⟨_, heq { s with status := x } h, ?_⟩
    unfold State.afterWrite
    split
    · exact ⟨rfl, rfl, rfl⟩
    · split <;> exact ⟨rfl, rfl, rfl⟩
  | read n bad a _ _ heq =>
    cases (heq s h).symm.trans ht
    refine ⟨_, heq { s with status := x } h, ?_⟩
    unfold State.afterRead
    split
    · exact ⟨rfl, rfl, rfl⟩
    · split <;> exact ⟨rfl, rfl, rfl⟩
  | getst => exact absurd rfl hne
  | size heq | clr heq | setmode _ heq | clrst _ heq =>
    cases (heq s h).symm.trans ht
    exact ⟨_, heq { s with status := x } h, rfl, rfl, rfl⟩

end Sys2Proof.Proofs
end

section
/-! Commands that complete without an anomaly, in either mode: a write that fits CAP appends its bits, a read that asks for no
more than there is cuts them from the head; and what lists of such commands do (20_memory.md R53, R54). -/

namespace Sys2Proof.Machine

/-! ### Numbers in a bit sequence -/

/-- `msb v w` is made from the w low-order bits of v. -/
theorem msb_mod_two_pow (v w : Nat) : msb (v % 2 ^ w) w = msb v w := by
  refine List.ext_getElem (by simp) fun i hi _ => ?_
  rw [msb_length] at hi
  have hlow : w - 1 - i < w := by omega
  simp [msb_getElem, Nat.testBit_mod_two_pow, hlow]

/-- The w bits that follow the first j of `msb v n`, as a number. -/
theorem val_take_drop_msb {n j w : Nat} (v : Nat) (h : j + w ≤ n) :
    val (((msb v n).drop j).take w) = v / 2 ^ (n - j - w) % 2 ^ w := by
  have hbits : ((msb v n).drop j).take w = msb (v / 2 ^ (n - j - w)) w := by
    refine List.ext_getElem (by simp; omega) fun i _ hi => ?_
    rw [msb_length] at hi
    rw [List.getElem_take, List.getElem_drop, msb_getElem, msb_getElem, Nat.testBit_div_two_pow]
    congr 1; omega
  rw [hbits, ← msb_mod_two_pow, val_msb (Nat.mod_lt _ (by positivity))]

/-- A field that is there in full is the value of its bits. -/
theorem fieldAt_of_le {b : List Bool} {w : Nat} (h : w ≤ b.length) : fieldAt b w = val (b.take w) := by
  rw [fieldAt, Nat.sub_eq_zero_of_le h, pow_zero, Nat.mul_one]

/-! ### One command -/

theorem Stream.cellsAfter_mono (t : Stream) {m n : Nat} (h : m ≤ n) : t.cellsAfter m ≤ t.cellsAfter n := by
  simp only [Stream.cellsAfter, ceil16]; omega

theorem Stream.cellsAfter_appendBits {t : Stream} (h : t.WellFormed) (b : List Bool) (n : Nat) :
    (t.appendBits b).cellsAfter n = t.cellsAfter (b.length + n) := by
  simp only [Stream.cellsAfter, Stream.appendBits_ho, Stream.appendBits_size h, Nat.add_assoc]

/-- A write command whose bits fit CAP commits them. -/
theorem WritesBits.commits {i : Instr} {b : List Bool} (hi : WritesBits i b false) {s : State} (h : s.WellFormed)
    (hroom : s.config.admits (s.stream.cellsAfter b.length) = true) :
    ∃ t, Responds i s t { code := .ok, nb := 0, val := BitVec.ofNat 64 b.length, pay := [] } ∧
      t.WellFormed ∧ t.config = s.config ∧ t.stream = s.stream.appendBits b := by
  have hok : s.afterWrite b false = s.afterOk (s.stream.appendBits b) 0 (BitVec.ofNat 64 b.length) 0 [] := by
    simp [State.afterWrite, hroom]
  exact ⟨_, ⟨hi s h, by rw [hok]; rfl⟩, State.afterWrite_wf h b false, by rw [hok]; rfl, by rw [hok]; rfl⟩

/-- A read command that asks for no more bits than there are, and notes nothing, commits. -/
theorem responds_of_afterRead {i : Instr} {s : State} (h : s.WellFormed) {n : Nat} {val : Scalar} {nb : BitVec 20}
    {pay : List Cell16} (heq : exec i s = .next (s.afterRead n false val nb pay)) (hn : n ≤ s.stream.size) :
    ∃ t, Responds i s t { code := .ok, nb := nb, val := val, pay := pay } ∧ t.WellFormed ∧
      t.stream = s.stream.dropBits n := by
  have hok : s.afterRead n false val nb pay = s.afterOk (s.stream.dropBits n) 0 val nb pay := by
    simp [State.afterRead, State.readFlags, Nat.not_lt.mpr hn, Nat.min_eq_left hn]
  exact ⟨_, ⟨heq, by rw [hok]; rfl⟩, State.afterRead_wf h _ _ _ _ _, by rw [hok]; rfl⟩

/-- The fixed-width write commands append their fields (R53). -/
theorem writesBits_of_fieldBits {i : Instr} {b : List Bool} (hi : fieldBits i = some b) : WritesBits i b false := by
  cases i with
  | wflag arg =>
    have hbit : (argBit arg).toNat % 2 ^ 1 = arg.toNat % 2 ^ 1 := by
      rcases Nat.mod_two_eq_zero_or_one arg.toNat with h | h <;> simp [argBit, BitVec.getLsbD, Nat.testBit_zero, h]
    cases hi
    exact fun s h => hbit ▸ State.performWrite_wr h _ 1 (.inl (by decide))
  | wu4 arg => cases hi; exact fun s h => State.performWrite_wr h _ 4 (.inl (by decide))
  | wu8 arg => cases hi; exact fun s h => State.performWrite_wr h _ 8 (.inl (by decide))
  | wu16 arg => cases hi; exact fun s h => State.performWrite_wr h _ 16 (.inl (by decide))
  | wu32 arg => cases hi; exact fun s h => State.performWrite_wr h _ 32 (.inr rfl)
  | size | wbits _ _ | rbits _ | clr | rflag | ru4 | ru8 | ru16 | ru32 | wflt _ | rflt | wint _ | rint | wstr _ _ | rstr
  | getst | setmode _ | clrst _ => cases hi

/-- WBITS of the words of b, with their bit count, appends b (R121). -/
theorem writesBits_wbits_words {cnt : BitVec 20} {b : List Bool} (hcnt : cnt.toNat = b.length) :
    WritesBits (.wbits cnt (words b)) b false := by
  intro s h
  have hfits : b.length ≤ 16 * ceil16 b.length := by simp only [ceil16]; omega
  rw [exec_wbits_eq h, clampedCount, words_length, hcnt, Nat.min_eq_left hfits, take_unwords_words,
    decide_eq_false (Nat.not_lt.mpr hfits)]

/-- A read command whose header alone says its width answers the piece it cuts (R54, R122, R141). -/
theorem exec_cut {i : Instr} {s : State} {n : Nat} (hi : cutWidth i = some n) (h : s.WellFormed) (hn : n ≤ s.stream.size) :
    ∃ t, Responds i s t (cutResponse i (s.stream.bits.take n)) ∧ t.WellFormed ∧ t.stream = s.stream.dropBits n := by
  have field {i : Instr} (heq : exec i s = s.performRead n (BitVec.ofNat 64)) (hw : n ≤ 16 ∨ n = 32)
      (hop : i.opcode ≠ .rbits) : ∃ t, Responds i s t (cutResponse i (s.stream.bits.take n)) ∧ t.WellFormed ∧
        t.stream = s.stream.dropBits n := by
    rw [cutResponse, if_neg hop, ← fieldAt_of_le ((Stream.bits_length h.1).symm ▸ hn)]
    exact responds_of_afterRead h (heq.trans (State.performRead_field h n hw _)) hn
  cases i with
  | rbits cnt => cases hi; exact responds_of_afterRead h (exec_rbits_eq h cnt) hn
  | rflag => cases hi; exact field (exec_rflag s) (by decide) (by decide)
  | ru4 => cases hi; exact field (exec_ru4 s) (by decide) (by decide)
  | ru8 => cases hi; exact field (exec_ru8 s) (by decide) (by decide)
  | ru16 => cases hi; exact field (exec_ru16 s) (by decide) (by decide)
  | ru32 => cases hi; exact field (exec_ru32 s) (by decide) (by decide)
  | size | wbits _ _ | clr | wflag _ | wu4 _ | wu8 _ | wu16 _ | wu32 _ | wflt _ | rflt | wint _ | rint | wstr _ _ | rstr
  | getst | setmode _ | clrst _ => cases hi

/-! ### Lists of commands -/

/-- Fixed-width writes that fit CAP together append their fields, one after the other. -/
theorem execsTo_writes (writes : List Instr) : ∀ {s : State}, s.WellFormed → (∀ i ∈ writes, fieldBits i ≠ none) →
    s.config.admits (s.stream.cellsAfter (writes.flatMap fun i => (fieldBits i).getD []).length) = true →
    ∃ t, ExecsTo writes s t ∧ t.WellFormed ∧
      t.stream = s.stream.appendBits (writes.flatMap fun i => (fieldBits i).getD []) := by
  induction writes with
  | nil => exact fun {s} h _ _ => ⟨s, rfl, h, (Stream.appendBits_nil h.1).symm⟩
  | cons i rest ih =>
    intro s h hwrites hroom
    obtain ⟨b, hb⟩ := Option.ne_none_iff_exists'.mp (hwrites i List.mem_cons_self)
    rw [List.flatMap_cons, hb, Option.getD_some] at hroom ⊢
    rw [List.length_append] at hroom
    have hroom1 := Config.admits_of_le hroom (s.stream.cellsAfter_mono (Nat.le_add_right _ _))
    obtain ⟨t1, ⟨hexec, -⟩, ht1, hconfig, hstream⟩ := (writesBits_of_fieldBits hb).commits h hroom1
    rw [← Stream.cellsAfter_appendBits h.1, ← hstream, ← hconfig] at hroom
    obtain ⟨t, hrest, ht, hstream'⟩ := ih ht1 (fun j hj => hwrites j (List.mem_cons_of_mem i hj)) hroom
    exact ⟨t, ⟨t1, hexec, hrest⟩, ht, by rw [hstream', hstream, Stream.appendBits_append h.1]⟩

/-- Reads that ask together for no more bits than there are answer the content cut at their boundaries. -/
theorem execsTo_cuts (reads : List Instr) : ∀ {s : State}, s.WellFormed → (∀ i ∈ reads, cutWidth i ≠ none) →
    (reads.map fun i => (cutWidth i).getD 0).sum ≤ s.stream.size →
    ∃ t, ExecsTo reads s t ∧ t.responses = s.responses ++ cutResponses reads s.stream.bits ∧
      t.stream.bits = s.stream.bits.drop (reads.map fun i => (cutWidth i).getD 0).sum := by
  induction reads with
  | nil => exact fun {s} _ _ _ => ⟨s, rfl, by simp, by simp⟩
  | cons i rest ih =>
    intro s h hreads hsize
    obtain ⟨n, hn⟩ := Option.ne_none_iff_exists'.mp (hreads i List.mem_cons_self)
    simp only [List.map_cons, List.sum_cons, cutResponses_cons, hn, Option.getD_some] at hsize ⊢
    have hle : n ≤ s.stream.size := le_trans (Nat.le_add_right _ _) hsize
    obtain ⟨t1, ⟨hexec, hresp⟩, ht1, hstream⟩ := exec_cut hn h hle
    have hbits : t1.stream.bits = s.stream.bits.drop n := by rw [hstream, Stream.dropBits_bits h.1 hle]
    have hsize1 : t1.stream.size = s.stream.size - n := by rw [hstream, Stream.dropBits_size h.1 hle]
    obtain ⟨t, hrest, hresp', hbits'⟩ := ih ht1 (fun j hj => hreads j (List.mem_cons_of_mem i hj)) (by omega)
    exact ⟨t, ⟨t1, hexec, hrest⟩, by rw [hresp', hresp, hbits, List.append_assoc]; rfl,
      by rw [hbits', hbits, List.drop_drop]⟩

/-! ### The two examples of R54 -/

/-- WU16 then four RU4 on a block without bits: the nibbles from the high one down (R54). -/
theorem wu16_then_ru4s (v : Scalar) {s : State} (h : s.WellFormed) (hempty : s.stream.bits = [])
    (hroom : s.config.admits (s.stream.cellsAfter 16) = true) :
    ∃ t t1 t2 t3 t4, exec (.wu16 v) s = .next t ∧ exec .ru4 t = .next t1 ∧ exec .ru4 t1 = .next t2 ∧
      exec .ru4 t2 = .next t3 ∧ exec .ru4 t3 = .next t4 ∧
      t4.responses = t.responses ++
        [{ code := .ok, nb := 0, val := (v.extractLsb 15 12).setWidth 64, pay := [] },
         { code := .ok, nb := 0, val := (v.extractLsb 11 8).setWidth 64, pay := [] },
         { code := .ok, nb := 0, val := (v.extractLsb 7 4).setWidth 64, pay := [] },
         { code := .ok, nb := 0, val := (v.extractLsb 3 0).setWidth 64, pay := [] }] := by
  obtain ⟨t, ⟨hexec, -⟩, ht, -, hstream⟩ :=
    (writesBits_of_fieldBits (i := .wu16 v) rfl).commits h (by rwa [msb_length])
  have hbits : t.stream.bits = msb v.toNat 16 := by
    rw [hstream, Stream.appendBits_bits h.1, hempty, List.nil_append, msb_mod_two_pow]
  have hsize : t.stream.size = 16 := by rw [← Stream.bits_length ht.1, hbits, msb_length]
  obtain ⟨u, hreads, hresp, -⟩ := execsTo_cuts [.ru4, .ru4, .ru4, .ru4] ht (by decide) (by rw [hsize]; decide)
  have nibble (j : Nat) (hj : j + 4 ≤ 16) : cutResponse .ru4 (((msb v.toNat 16).drop j).take 4) =
      { code := .ok, nb := 0, val := (v.extractLsb' (16 - j - 4) 4).setWidth 64, pay := [] } := by
    rw [cutResponse, if_neg (by decide), val_take_drop_msb _ hj, ← Nat.shiftRight_eq_div_pow, ← BitVec.extractLsb'_toNat,
      BitVec.ofNat_toNat]
  obtain ⟨t1, h1, t2, h2, t3, h3, t4, h4, rfl⟩ := hreads
  refine ⟨t, t1, t2, t3, t4, hexec, h1, h2, h3, h4, hresp.trans ?_⟩
  simp only [cutResponses_cons, cutResponses_nil, hbits, cutWidth, Option.getD_some, List.drop_drop]
  rw [nibble 4 (by decide), nibble 8 (by decide), nibble 12 (by decide), ← List.drop_zero (l := msb v.toNat 16),
    nibble 0 (by decide)]
  rfl

/-- WU8 twice then RU16 on a block without bits: the first value in the high half (R54). -/
theorem wu8s_then_ru16 (v w : Scalar) {s : State} (h : s.WellFormed) (hempty : s.stream.bits = [])
    (hroom : s.config.admits (s.stream.cellsAfter 16) = true) :
    ∃ t t1 u, exec (.wu8 v) s = .next t ∧ exec (.wu8 w) t = .next t1 ∧
      Responds .ru16 t1 u { code := .ok, nb := 0, val := BitVec.ofNat 64 (v.toNat % 256 * 256 + w.toNat % 256), pay := [] } := by
  obtain ⟨_, ⟨t, h1, t1, h2, rfl⟩, ht, hstream⟩ := execsTo_writes [.wu8 v, .wu8 w] h (by simp [fieldBits]) hroom
  have hbits : t1.stream.bits = msb (v.toNat % 2 ^ 8) 8 ++ msb (w.toNat % 2 ^ 8) 8 := by
    rw [hstream, Stream.appendBits_bits h.1, hempty]; rfl
  have hsize : t1.stream.size = 16 := by rw [← Stream.bits_length ht.1, hbits]; rfl
  obtain ⟨u, hresp, -⟩ := exec_cut (i := .ru16) rfl ht hsize.ge
  have hval : val (t1.stream.bits.take 16) = v.toNat % 256 * 256 + w.toNat % 256 := by
    rw [hbits, List.take_of_length_le (by simp), val_append, msb_length, val_msb (Nat.mod_lt _ (by decide)),
      val_msb (Nat.mod_lt _ (by decide))]
    rfl
  rw [cutResponse, if_neg (by decide), hval] at hresp
  exact ⟨t, t1, u, h1, h2, hresp⟩

end Sys2Proof.Machine

namespace Sys2Proof.Proofs

open Sys2Proof.Machine

/-- Settles O56: WBITS appends the first CNT bits of its payload, and clamps by the payload's length alone. -/
theorem payloadBeyondTheCountIsIgnored : Obligations.PayloadBeyondTheCountIsIgnored := by
  intro cnt p q s h hlen hagree
  have hclamp : clampedCount p cnt.toNat = clampedCount q cnt.toNat := by rw [clampedCount, clampedCount, hlen]
  have hbits : (unwords p).take (clampedCount p cnt.toNat) = (unwords q).take (clampedCount q cnt.toNat) := by
    have hle : clampedCount p cnt.toNat ≤ cnt.toNat := Nat.min_le_left _ _
    have htake := congrArg (List.take (clampedCount p cnt.toNat)) hagree
    rw [List.take_take, List.take_take, Nat.min_eq_left hle] at htake
    rwa [← hclamp]
  rw [exec_wbits_eq h, exec_wbits_eq h, hbits, hlen]

/-- Settles O58: the writes append their fields, and the reads cut what is then there; its two examples follow from the same lemmas. -/
theorem mixedWidthsSeeTheSameBits : Obligations.MixedWidthsSeeTheSameBits := by
  refine ⟨?_, fun v s h hempty hroom => ⟨wu16_then_ru4s v h hempty hroom, fun w => wu8s_then_ru16 v w h hempty hroom⟩⟩
  rintro writes reads s b h hwrites hreads rfl hroom hsize
  obtain ⟨t, hexecs, ht, hstream⟩ := execsTo_writes writes h hwrites hroom
  rw [← Stream.appendBits_size h.1, ← hstream] at hsize
  obtain ⟨u, hexecs', hresp, hbits⟩ := execsTo_cuts reads ht hreads hsize
  rw [← Stream.appendBits_bits h.1, ← hstream]
  exact ⟨t, u, hexecs, rfl, hexecs', hresp, hbits⟩

/-- Settles O59: RBITS of the size answers the words of the whole content, and WBITS of the words of any bits appends these
bits. -/
theorem streamMovesBetweenBlocks : Obligations.StreamMovesBetweenBlocks := by
  intro s d hs hd hempty hsize hroom
  have hlen : s.stream.bits.length = s.stream.size := Stream.bits_length hs.1
  have hcnt : (BitVec.ofNat 20 s.stream.size).toNat = s.stream.size := by
    rw [BitVec.toNat_ofNat]; exact Nat.mod_eq_of_lt (by omega)
  have hwhole : cutResponse (.rbits (BitVec.ofNat 20 s.stream.size)) (s.stream.bits.take s.stream.size) =
      { code := .ok, nb := BitVec.ofNat 20 s.stream.size, val := BitVec.ofNat 64 s.stream.size,
        pay := words s.stream.bits } := by
    rw [← hlen, List.take_length]; rfl
  have hroom' : d.config.admits (d.stream.cellsAfter s.stream.bits.length) = true := by
    have hcells : d.stream.cellsAfter s.stream.bits.length = ceil16 s.stream.size := by
      rw [hempty, hlen]; exact congrArg ceil16 (Nat.zero_add _)
    rwa [hcells]
  obtain ⟨t, hread, -, htstream⟩ := exec_cut (i := .rbits (BitVec.ofNat 20 s.stream.size)) (congrArg some hcnt) hs le_rfl
  obtain ⟨u, hwrite, -, -, hustream⟩ := (writesBits_wbits_words (hcnt.trans hlen.symm)).commits hd hroom'
  refine ⟨t, u, words s.stream.bits, hwhole ▸ hread, ?_, ?_, hlen ▸ hwrite, ?_, ?_⟩
  · rw [htstream, Stream.dropBits_size hs.1 le_rfl, Nat.sub_self]
  · rw [words_length, hlen, ceil16]; omega
  · rw [hustream, Stream.appendBits_bits hd.1, hempty]; rfl
  · rw [hustream, Stream.appendBits_ho, hempty]

end Sys2Proof.Proofs
end

section
/-! The header word as its four fields OP, FOLD, RSV, CNT (30_encoding.md R81), and the headers that an opcode owns: those the
decoder takes for it (R89), which are those its row of R85 selects, and which are made by `headerWord`. -/

namespace Sys2Proof

/-! ### The four fields -/

/-- The header word with the given fields, from the high-order end (R81). -/
def Header.ofFields (op : BitVec 8) (fold : Bool) (rsv : BitVec 3) (cnt : BitVec 20) : Header :=
  op ++ BitVec.ofBool fold ++ rsv ++ cnt

section
variable (op op' : BitVec 8) (fold fold' : Bool) (rsv rsv' : BitVec 3) (cnt cnt' : BitVec 20)

@[simp] theorem Header.op_ofFields : Header.op (Header.ofFields op fold rsv cnt) = op := by
  rw [Header.op, Header.ofFields, BitVec.extractLsb'_append_eq_of_le (by decide),
    BitVec.extractLsb'_append_eq_of_le (by decide)]
  exact BitVec.extractLsb'_append_eq_left

@[simp] theorem Header.fold_ofFields : Header.fold (Header.ofFields op fold rsv cnt) = fold := by
  rw [Header.fold, Header.ofFields, BitVec.getLsbD_append, BitVec.getLsbD_append, BitVec.getLsbD_append]
  simp

@[simp] theorem Header.rsv_ofFields : Header.rsv (Header.ofFields op fold rsv cnt) = rsv := by
  rw [Header.rsv, Header.ofFields, BitVec.extractLsb'_append_eq_of_le (by decide)]
  exact BitVec.extractLsb'_append_eq_right

@[simp] theorem Header.cnt_ofFields : Header.cnt (Header.ofFields op fold rsv cnt) = cnt :=
  BitVec.extractLsb'_append_eq_right

theorem Header.ofFields_and : Header.ofFields op fold rsv cnt &&& Header.ofFields op' fold' rsv' cnt' =
    Header.ofFields (op &&& op') (fold && fold') (rsv &&& rsv') (cnt &&& cnt') := by
  rw [Header.ofFields, Header.ofFields, Header.ofFields, ← BitVec.ofBool_and_ofBool]
  exact BitVec.and_append.trans (by rw [BitVec.and_append, BitVec.and_append])

end

/-- A header is no more than its four fields (R81). -/
theorem Header.ofFields_fields (h : Header) :
    Header.ofFields (Header.op h) (Header.fold h) (Header.rsv h) (Header.cnt h) = h := by
  have hfold : BitVec.ofBool (Header.fold h) = h.extractLsb' 23 1 := by
    ext i hi; simp [Header.fold, show i = 0 by omega]
  have join (start len len' : Nat) :
      h.extractLsb' (start + len) len' ++ h.extractLsb' start len = h.extractLsb' start (len' + len) :=
    BitVec.extractLsb'_append_extractLsb'_eq_extractLsb' rfl
  rw [Header.ofFields, hfold, Header.op, Header.rsv, Header.cnt, join 23 1, join 20 3, join 0 20]
  exact BitVec.extractLsb'_eq_self

/-- `headerWord` has RSV = 0 (R81). -/
theorem headerWord_eq_ofFields (o : Opcode) (fold : Bool) (cnt : BitVec 20) :
    headerWord o fold cnt = Header.ofFields o.code fold 0 cnt := by
  have hpack := BitVec.setWidth_append_append_append_eq_shiftLeft_setWidth_or (w'''' := 32) (b := o.code)
    (b' := BitVec.ofBool fold) (b'' := 0#3) (b''' := cnt)
  simpa [headerWord, Header.ofFields] using hpack.symm

/-! ### The headers of an opcode -/

/-- The headers that present the command o: its OP value, RSV = 0, and FOLD and CNT only where the command has them. It is the
negation of (a) to (d) of R89 for one opcode. -/
structure Opcode.Owns (o : Opcode) (h : Header) : Prop where
  op : Header.op h = o.code
  rsv : Header.rsv h = 0
  fold : o ≠ .wstr → Header.fold h = false
  cnt : o ≠ .wbits → o ≠ .rbits → Header.cnt h = 0

/-- No two opcodes own one header. -/
theorem Opcode.Owns.unique {o p : Opcode} {h : Header} (ho : o.Owns h) (hp : p.Owns h) : o = p :=
  Opcode.code_injective (ho.op.symm.trans hp.op)

/-- The header that an opcode owns is spelt from the opcode, FOLD and CNT. -/
theorem Opcode.Owns.eq_headerWord {o : Opcode} {h : Header} (ho : o.Owns h) :
    h = headerWord o (Header.fold h) (Header.cnt h) := by
  rw [headerWord_eq_ofFields, ← ho.op, ← ho.rsv, Header.ofFields_fields]

/-- The decoder takes a header for the opcode that owns it (R89). -/
theorem decodeHeader_eq_ok_iff (h : Header) (o : Opcode) : decodeHeader h = .ok o ↔ o.Owns h := by
  constructor
  · intro hd
    unfold decodeHeader at hd
    split at hd
    · cases hd
    · rename_i p hp
      split_ifs at hd with hrsv hfold hcnt
      cases hd
      refine ⟨((Opcode.ofCode_eq_some_iff _ _).mp hp).symm, not_not.mp hrsv, fun hw => ?_, fun hw hr => ?_⟩
      · exact Bool.eq_false_iff.mpr fun hf => hfold ⟨hf, hw⟩
      · exact not_not.mp fun hc => hcnt ⟨hc, hw, hr⟩
  · rintro ⟨hop, hrsv, hfold, hcnt⟩
    have hrow : Opcode.ofCode (Header.op h) = some o := (Opcode.ofCode_eq_some_iff _ _).mpr hop.symm
    have hfold' : ¬ (Header.fold h = true ∧ o ≠ .wstr) := fun ⟨hf, hw⟩ => by simp [hfold hw] at hf
    have hcnt' : ¬ (Header.cnt h ≠ 0 ∧ o ≠ .wbits ∧ o ≠ .rbits) := fun ⟨hc, hw, hr⟩ => hc (hcnt hw hr)
    simp only [decodeHeader, hrow]
    rw [if_neg (not_not.mpr hrsv), if_neg hfold', if_neg hcnt']

/-- The mask of a row leaves out FOLD for WSTR and CNT for WBITS and RBITS (R85). -/
theorem Opcode.maskWord_eq_ofFields (o : Opcode) : o.maskWord =
    Header.ofFields (BitVec.allOnes 8) (decide (o ≠ .wstr)) (BitVec.allOnes 3)
      (if o = .wbits ∨ o = .rbits then 0 else BitVec.allOnes 20) := by
  cases o <;> rfl

theorem Opcode.matchWord_eq_ofFields (o : Opcode) : o.matchWord = Header.ofFields o.code false 0 0 := by
  cases o <;> rfl

/-- A row selects the headers that its opcode owns (R85, R89). -/
theorem Opcode.selectedBy_iff (o : Opcode) (h : Header) : o.selectedBy h = true ↔ o.Owns h := by
  have hand : h &&& o.maskWord = Header.ofFields (Header.op h) (Header.fold h && decide (o ≠ .wstr)) (Header.rsv h)
      (Header.cnt h &&& if o = .wbits ∨ o = .rbits then 0 else BitVec.allOnes 20) := by
    conv_lhs => rw [← Header.ofFields_fields h, Opcode.maskWord_eq_ofFields, Header.ofFields_and]
    rw [BitVec.and_allOnes, BitVec.and_allOnes]
  rw [Opcode.selectedBy, beq_iff_eq, hand, Opcode.matchWord_eq_ofFields]
  constructor
  · intro heq
    have hfold := congrArg Header.fold heq
    have hcnt := congrArg Header.cnt heq
    simp only [Header.fold_ofFields, Header.cnt_ofFields] at hfold hcnt
    refine ⟨by simpa using congrArg Header.op heq, by simpa using congrArg Header.rsv heq, fun hw => ?_, fun hw hr => ?_⟩
    · simpa [hw] using hfold
    · rwa [if_neg (not_or.mpr ⟨hw, hr⟩), BitVec.and_allOnes] at hcnt
  · rintro ⟨hop, hrsv, hfold, hcnt⟩
    rw [hop, hrsv]
    congr 1
    · by_cases hw : o = .wstr
      · simp [hw]
      · simp [hfold hw]
    · split_ifs with hw
      · simp
      · rw [hcnt (fun h => hw (.inl h)) (fun h => hw (.inr h))]; simp

/-! ### Commands -/

/-- What the decoder gives: the opcode that owns the header, with the operands of the command as presented. -/
theorem decode_eq_ok_iff (c : Command) (i : Instr) :
    decode c = .ok i ↔ c.wellFormed = true ∧ ∃ o : Opcode, o.Owns c.hdr ∧ i = o.instr c := by
  by_cases hw : c.wellFormed = true
  · simp only [decode_of_wellFormed hw, hw, true_and, ← decodeHeader_eq_ok_iff]
    cases decodeHeader c.hdr with
    | ok o => simp [eq_comm]
    | error e => simp
  · rw [decode_of_not_wellFormed (Bool.eq_false_iff.mpr hw)]
    simp [hw]

/-- A command the port can carry fails to decode when no opcode owns its header; ARG and PAY never make it illegal (R89). -/
theorem decode_eq_error_iff {c : Command} (hw : c.wellFormed = true) :
    (∃ e, decode c = .error e) ↔ ∀ o : Opcode, ¬ o.Owns c.hdr := by
  constructor
  · rintro ⟨e, he⟩ o ho
    cases he.symm.trans ((decode_eq_ok_iff c _).mpr ⟨hw, o, ho, rfl⟩)
  · intro hnone
    cases hd : decode c with
    | error e => exact ⟨e, rfl⟩
    | ok i =>
      obtain ⟨-, o, ho, -⟩ := (decode_eq_ok_iff c i).mp hd
      exact absurd ho (hnone o)

open Laws in
/-- The encoding of an instruction has a header of its own row (R85). -/
theorem encode_owned (i : Instr) : i.opcode.Owns (encode i).hdr := by
  refine (Opcode.selectedBy_iff _ _).mp (?_ : EncodesItsRow.Statement i)
  cases i with
  | size => exact EncodesItsRow.size
  | wbits cnt pay => exact EncodesItsRow.wbits cnt pay
  | rbits cnt => exact EncodesItsRow.rbits cnt
  | clr => exact EncodesItsRow.clr
  | wflag arg => exact EncodesItsRow.wflag arg
  | rflag => exact EncodesItsRow.rflag
  | wu4 arg => exact EncodesItsRow.wu4 arg
  | ru4 => exact EncodesItsRow.ru4
  | wu8 arg => exact EncodesItsRow.wu8 arg
  | ru8 => exact EncodesItsRow.ru8
  | wu16 arg => exact EncodesItsRow.wu16 arg
  | ru16 => exact EncodesItsRow.ru16
  | wu32 arg => exact EncodesItsRow.wu32 arg
  | ru32 => exact EncodesItsRow.ru32
  | wflt arg => exact EncodesItsRow.wflt arg
  | rflt => exact EncodesItsRow.rflt
  | wint arg => exact EncodesItsRow.wint arg
  | rint => exact EncodesItsRow.rint
  | wstr fold pay => exact EncodesItsRow.wstr fold pay
  | rstr => exact EncodesItsRow.rstr
  | getst => exact EncodesItsRow.getst
  | setmode arg => exact EncodesItsRow.setmode arg
  | clrst arg => exact EncodesItsRow.clrst arg

/-- An encoding carries every operand of the instruction. -/
theorem instr_encode (i : Instr) : i.opcode.instr (encode i) = i := by
  cases i with
  | wbits _ _ | rbits _ | wstr _ _ => simp [Instr.opcode, Opcode.instr, encode, headerWord_eq_ofFields]
  | size | clr | wflag _ | rflag | wu4 _ | ru4 | wu8 _ | ru8 | wu16 _ | ru16 | wu32 _ | ru32 | wflt _ | rflt | wint _
  | rint | rstr | getst | setmode _ | clrst _ => rfl

theorem encode_wellFormed (i : Instr) : (encode i).wellFormed = i.wellFormed := by
  cases i <;> rfl

/-- The instruction of a command encodes to the header of the command: no header that an opcode owns has a bit to spare. -/
theorem encode_instr_hdr {o : Opcode} {c : Command} (ho : o.Owns c.hdr) : (encode (o.instr c)).hdr = c.hdr := by
  have hhdr := ho.eq_headerWord
  obtain ⟨-, -, hfold, hcnt⟩ := ho
  cases o with
  | wbits | rbits => rw [hfold (by decide)] at hhdr; exact hhdr.symm
  | wstr => rw [hcnt (by decide) (by decide)] at hhdr; exact hhdr.symm
  | size | clr | wflag | rflag | wu4 | ru4 | wu8 | ru8 | wu16 | ru16 | wu32 | ru32 | wflt | rflt | wint | rint | rstr | getst
  | setmode | clrst => rw [hfold (by decide), hcnt (by decide) (by decide)] at hhdr; exact hhdr.symm

theorem Opcode.instr_wellFormed (o : Opcode) {c : Command} (hw : c.wellFormed = true) : (o.instr c).wellFormed = true := by
  cases o with
  | wbits | wstr => exact hw
  | size | rbits | clr | wflag | rflag | wu4 | ru4 | wu8 | ru8 | wu16 | ru16 | wu32 | ru32 | wflt | rflt | wint | rint | rstr
  | getst | setmode | clrst => rfl

open Machine in
/-- The instruction of an opcode reads the header, and ARG and PAY where its format uses them (R82). -/
theorem Opcode.instr_congr (o : Opcode) {c c' : Command} (hhdr : c'.hdr = c.hdr)
    (harg : usesArg (o.instr c) = true → c'.arg = c.arg) (hpay : usesPay (o.instr c) = true → c'.pay = c.pay) :
    o.instr c' = o.instr c := by
  cases o with
  | wbits => exact congrArg₂ Instr.wbits (congrArg Header.cnt hhdr) (hpay rfl)
  | rbits => exact congrArg Instr.rbits (congrArg Header.cnt hhdr)
  | wstr => exact congrArg₂ Instr.wstr (congrArg Header.fold hhdr) (hpay rfl)
  | wflag => exact congrArg Instr.wflag (harg rfl)
  | wu4 => exact congrArg Instr.wu4 (harg rfl)
  | wu8 => exact congrArg Instr.wu8 (harg rfl)
  | wu16 => exact congrArg Instr.wu16 (harg rfl)
  | wu32 => exact congrArg Instr.wu32 (harg rfl)
  | wflt => exact congrArg Instr.wflt (harg rfl)
  | wint => exact congrArg Instr.wint (harg rfl)
  | setmode => exact congrArg Instr.setmode (harg rfl)
  | clrst => exact congrArg Instr.clrst (harg rfl)
  | size | clr | rflag | ru4 | ru8 | ru16 | ru32 | rflt | rint | rstr | getst => rfl

end Sys2Proof

namespace Sys2Proof.Machine

/-- (a) to (d) of R89 say that no opcode owns the header. -/
theorem illegalHeader_iff (h : Header) : IllegalHeader h ↔ ∀ o : Opcode, ¬ o.Owns h := by
  have hfields : IllegalHeader h ↔ (∀ o : Opcode, Header.op h ≠ o.code) ∨ Header.rsv h ≠ 0 ∨
      (Header.fold h = true ∧ Header.op h ≠ Opcode.wstr.code) ∨
      (Header.cnt h ≠ 0 ∧ Header.op h ≠ Opcode.wbits.code ∧ Header.op h ≠ Opcode.rbits.code) := Iff.rfl
  rw [hfields]
  constructor
  · rintro hill o ⟨hop, hrsv, hfold, hcnt⟩
    obtain ha | hb | ⟨hf, hd⟩ | ⟨hc, hw, hr⟩ := hill
    · exact ha o hop
    · exact hb hrsv
    · simp [hfold fun he => hd (he ▸ hop)] at hf
    · exact hc (hcnt (fun he => hw (he ▸ hop)) fun he => hr (he ▸ hop))
  · intro hnone
    by_contra hlegal
    simp only [not_or, not_and, not_forall, not_not] at hlegal
    obtain ⟨⟨o, hop⟩, hrsv, hfold, hcnt⟩ := hlegal
    have hcode {p : Opcode} (hp : o ≠ p) : Header.op h ≠ p.code := fun he => hp (Opcode.code_injective (hop.symm.trans he))
    refine hnone o ⟨hop, hrsv, fun hw => ?_, fun hw hr => ?_⟩
    · exact Bool.eq_false_iff.mpr fun hf => hcode hw (hfold hf)
    · exact not_not.mp fun hc => hcode hr (hcnt hc (hcode hw))

end Sys2Proof.Machine

namespace Sys2Proof.Proofs

open Sys2Proof.Machine

/-- Settles O1: the encoding has a header that the opcode owns, and carries every operand. -/
theorem decodeReversesEncode : Obligations.DecodeReversesEncode := fun i hi =>
  (decode_eq_ok_iff _ _).mpr ⟨(encode_wellFormed i).trans hi, i.opcode, encode_owned i, (instr_encode i).symm⟩

/-- Settles O2, opcode by opcode. -/
theorem decodingUsesOnlyTheFormatsParts : Obligations.DecodingUsesOnlyTheFormatsParts := by
  intro c i hd
  obtain ⟨hw, o, ho, rfl⟩ := (decode_eq_ok_iff c i).mp hd
  refine ⟨o.instr_wellFormed hw, encode_instr_hdr ho, fun c' hhdr hw' harg hpay => ?_⟩
  exact (decode_eq_ok_iff c' _).mpr ⟨hw', o, hhdr ▸ ho, (o.instr_congr hhdr harg hpay).symm⟩

/-- Settles O3: (a) to (d), the decoder and the rows of R85 agree on which opcode owns a header. -/
theorem headerSelectsOneRowOrIsIllegal : Obligations.HeaderSelectsOneRowOrIsIllegal := by
  intro c hw
  have herror : (∃ e, decode c = .error e) ↔ IllegalHeader c.hdr :=
    (decode_eq_error_iff hw).trans (illegalHeader_iff _).symm
  refine ⟨herror, ?_, fun i hd o => ?_, fun s rest hp hill => ?_⟩
  · simp only [illegalHeader_iff, ← Opcode.selectedBy_iff, Bool.not_eq_true]
  · obtain ⟨-, p, hp, rfl⟩ := (decode_eq_ok_iff c i).mp hd
    rw [Opcode.selectedBy_iff, Opcode.instr_opcode]
    exact ⟨fun ho => ho.unique hp, fun he => he ▸ hp⟩
  · obtain ⟨e, he⟩ := herror.mpr hill
    exact step_illegal hp he fun hlong => decode_ne_payloadTooLong hw (hlong ▸ he)

/-- Settles O4, by running the decoder. -/
theorem sampleHeadersDecode : Obligations.SampleHeadersDecode :=
  ⟨rfl, rfl, rfl, rfl, rfl, rfl, rfl, rfl, rfl, rfl, rfl⟩

end Sys2Proof.Proofs
end

section
/-! Responses: the header word (30_encoding.md R87), and one response for each command (R86, R256). -/

namespace Sys2Proof.Machine

/-- The response header as its fields CODE, zeros, NB (R87). -/
theorem Response.header_eq_append (r : Response) : r.header = r.code.toBits ++ 0#8 ++ r.nb := by
  have hpack := BitVec.setWidth_append_append_eq_shiftLeft_setWidth_or (w''' := 32) (b := r.code.toBits)
    (b' := 0#8) (b'' := r.nb)
  simpa [Response.header] using hpack.symm

/-- From s to t exactly one response leaves, zero and empty if it is an error, and no event is taken (R86, R256). -/
def GivesOneResponse (s t : State) : Prop :=
  t.pending = s.pending ∧ ∃ r, t.responses = s.responses ++ [r] ∧ (r.code ≠ .ok → r.nb = 0 ∧ r.val = 0 ∧ r.pay = [])

theorem State.takeError_givesOneResponse (s : State) (c : Code) (a : Anomalies) : GivesOneResponse s (s.takeError c a) :=
  ⟨rfl, Response.errorOf c, rfl, fun _ => ⟨rfl, rfl, rfl⟩⟩

theorem State.afterOk_givesOneResponse (s : State) (t : Stream) (flags : Anomalies) (val : Scalar) (nb : BitVec 20)
    (pay : List Cell16) : GivesOneResponse s (s.afterOk t flags val nb pay) :=
  ⟨rfl, Response.okOf ⟨val, nb, pay⟩, rfl, fun hcode => absurd rfl hcode⟩

/-- A command that answers gives one response. -/
theorem exec_givesOneResponse {i : Instr} {s t : State} (ht : exec i s = .next t) : GivesOneResponse s t := by
  have h := exec_next_wf ht
  cases execForm i with
  | write b clamped _ _ heq =>
    cases (heq s h).symm.trans ht
    obtain ⟨flags, -, -, ⟨c, he⟩ | ⟨-, he⟩⟩ := State.afterWrite_cases s b clamped
    · rw [he]; exact s.takeError_givesOneResponse c flags
    · rw [he]; exact s.afterOk_givesOneResponse _ _ _ _ _
  | read n bad a _ _ heq =>
    cases (heq s h).symm.trans ht
    obtain ⟨c, he⟩ | he := State.afterRead_cases s (n s.stream.bits) (bad s.stream.bits) (a s.stream.bits).val
      (a s.stream.bits).nb (a s.stream.bits).pay
    · rw [he]; exact s.takeError_givesOneResponse c _
    · rw [he]; exact s.afterOk_givesOneResponse _ _ _ _ _
  | size heq | clr heq | getst heq | setmode _ heq | clrst _ heq =>
    cases (heq s h).symm.trans ht
    exact ⟨rfl, _, rfl, fun hcode => absurd rfl hcode⟩

end Sys2Proof.Machine

namespace Sys2Proof.Proofs

open Sys2Proof.Machine

/-- Settles O60: each field is cut from the three that make the word. -/
theorem responseHeaderLaysOutCodeAndCount : Obligations.ResponseHeaderLaysOutCodeAndCount := by
  refine ⟨fun r => ?_, rfl, rfl, rfl, rfl, rfl, rfl⟩
  rw [Response.header_eq_append]
  refine ⟨?_, ?_, ?_⟩
  · exact (BitVec.extractLsb'_append_eq_of_le (by decide)).trans BitVec.extractLsb'_append_eq_left
  · exact (BitVec.extractLsb'_append_eq_of_le (by decide)).trans BitVec.extractLsb'_append_eq_right
  · exact BitVec.extractLsb'_append_eq_right

/-- Settles O49: a presented command is executed or answered ILLEGAL, and either gives one response. -/
theorem eachCommandGivesOneResponse : Obligations.EachCommandGivesOneResponse := by
  intro s t c rest hp hstep
  have htaken : GivesOneResponse { s with pending := rest } t := by
    obtain ⟨hp', -⟩ | ⟨rest', hp', -⟩ | ⟨c', rest', -, -, he⟩ | ⟨c', rest', hp', he⟩ | ⟨c', rest', i, hp', -, he⟩ :=
      step_cases s
    · cases hp'.symm.trans hp
    · cases hp'.symm.trans hp
    · cases he.symm.trans hstep
    · cases hp'.symm.trans hp
      cases he.symm.trans hstep
      exact State.takeError_givesOneResponse _ _ _
    · cases hp'.symm.trans hp
      exact exec_givesOneResponse (he ▸ hstep)
  exact htaken

end Sys2Proof.Proofs
end

section
/-! The bits of ARG that a command uses (30_encoding.md R83). -/

namespace Sys2Proof.Machine

/-- A field write uses the w low-order bits of its operand, in every state (R140). -/
theorem State.performWrite_wr_congr (s : State) {v u w : Nat} (hw : w ≤ 16 ∨ w = 32) (h : v % 2 ^ w = u % 2 ^ w) :
    s.performWrite (Writing.wr v w) = s.performWrite (Writing.wr u w) := by
  by_cases hs : s.WellFormed
  · rw [State.performWrite_wr hs v w hw, State.performWrite_wr hs u w hw, h]
  · exact (State.perform_of_not_wf hs _).trans (State.perform_of_not_wf hs _).symm

theorem toNat_mod_eq_of_setWidth_eq {x y : Scalar} {w : Nat} (h : x.setWidth w = y.setWidth w) :
    x.toNat % 2 ^ w = y.toNat % 2 ^ w := by
  simpa using congrArg BitVec.toNat h

end Sys2Proof.Machine

namespace Sys2Proof.Proofs

open Sys2Proof.Machine

/-- Settles O55: WFLAG, SETMODE and CLRST read ARG through `argBit` and `argFlags`, the field writes modulo 2^w. -/
theorem unusedOperandBitsAreIgnored : Obligations.UnusedOperandBitsAreIgnored := by
  intro x y s
  refine ⟨fun h => ?_, fun h => ?_, fun h => ?_, fun h => ?_, fun h => ?_, fun h => ?_⟩
  · have hbit : argBit x = argBit y := h
    simp only [exec_wflag, exec_setmode, hbit, and_self]
  · exact s.performWrite_wr_congr (by decide) (toNat_mod_eq_of_setWidth_eq h)
  · have hflags : argFlags x = argFlags y := h
    simp only [exec_clrst, hflags]
  · exact s.performWrite_wr_congr (by decide) (toNat_mod_eq_of_setWidth_eq h)
  · exact s.performWrite_wr_congr (by decide) (toNat_mod_eq_of_setWidth_eq h)
  · exact s.performWrite_wr_congr (by decide) (toNat_mod_eq_of_setWidth_eq h)

end Sys2Proof.Proofs
end

section
/-! The engine commands (40_engine.md R120 to R123), and the headers spelt from the `match` column of R85, which select their
commands. -/

namespace Sys2Proof

/-- The `match` word of a row, with a count in its CNT field (R81, R85). -/
theorem Opcode.matchWord_or_cnt (o : Opcode) (cnt : BitVec 20) :
    o.matchWord ||| cnt.setWidth 32 = Header.ofFields o.code false 0 cnt := by
  have hmatch : o.matchWord = (o.code.setWidth 32 <<< 24) ||| ((BitVec.ofBool false).setWidth 32 <<< 23) := by
    cases o <;> rfl
  rw [hmatch, ← headerWord_eq_ofFields, headerWord]

/-- An opcode owns the headers with its OP value and no other field set but CNT, where the command has a count (R89). -/
theorem Opcode.owns_ofFields {o : Opcode} {cnt : BitVec 20} (hcnt : o ≠ .wbits → o ≠ .rbits → cnt = 0) :
    o.Owns (Header.ofFields o.code false 0 cnt) :=
  ⟨Header.op_ofFields .., Header.rsv_ofFields .., fun _ => Header.fold_ofFields ..,
    fun hw hr => (Header.cnt_ofFields ..).trans (hcnt hw hr)⟩

theorem decode_of_owns {o : Opcode} {c : Command} (ho : o.Owns c.hdr) (hw : c.wellFormed = true) :
    decode c = .ok (o.instr c) :=
  (decode_eq_ok_iff c _).mpr ⟨hw, o, ho, rfl⟩

/-- The `match` word of a row selects the command of the row (R85). -/
theorem Machine.headerSelects_matchWord (o : Opcode) : Machine.HeaderSelects o.matchWord o.instr := by
  intro c hhdr hw
  refine decode_of_owns ?_ hw
  rw [hhdr, Opcode.matchWord_eq_ofFields]
  exact Opcode.owns_ofFields fun _ _ => rfl

/-- A header with a count selects its command, WBITS or RBITS, and the command reads that count (R82, R85). -/
theorem decode_counted {o : Opcode} (ho : o = .wbits ∨ o = .rbits) {c : Command} {cnt : BitVec 20}
    (hhdr : c.hdr = o.matchWord ||| cnt.setWidth 32) (hw : c.wellFormed = true) :
    decode c = .ok (o.instr c) ∧ Header.cnt c.hdr = cnt := by
  rw [Opcode.matchWord_or_cnt] at hhdr
  have howns : o.Owns c.hdr := hhdr ▸ Opcode.owns_ofFields fun hwbits hrbits => (ho.elim hwbits hrbits).elim
  exact ⟨decode_of_owns howns hw, hhdr ▸ Header.cnt_ofFields ..⟩

end Sys2Proof

namespace Sys2Proof.Machine

/-- R24 over the integers: by W3 the size of a well-formed stream is never negative. -/
theorem Stream.size_eq_int {t : Stream} (h : t.WellFormed) :
    (t.size : Int) = (t.cells.length : Int) * 16 - t.ho.toNat - (t.unfilled : Int) := by
  obtain ⟨-, hused, -, -⟩ := h
  rw [Stream.size]; omega

/-- A size that fits the 64-bit field is its own VAL (R120). -/
theorem sizeVal_toNat {n : Nat} (h : n < 2 ^ 64) : (sizeVal n).toNat = n := by
  rw [sizeVal, if_pos h, BitVec.toNat_ofNat, Nat.mod_eq_of_lt h]

end Sys2Proof.Machine

namespace Sys2Proof.Proofs

open Sys2Proof.Machine

/-- Settles O11: SIZE answers the VAL of the size and runs no stream operation. -/
theorem sizeAnswersTheBitCount : Obligations.SizeAnswersTheBitCount :=
  ⟨headerSelects_matchWord .size, fun _ h => Stream.size_eq_int h.1, fun s h =>
    ⟨sizeVal s.stream.size, (exec_size s).trans (State.performIdle_eq h _), sizeVal_toNat⟩⟩

/-- Settles O12: the clamp is `clampedCount`, and the writes of the engine append the bits below it. -/
theorem wbitsAppendsTheClampedPayload : Obligations.WbitsAppendsTheClampedPayload := by
  refine ⟨fun c cnt hhdr hw => ?_, fun cnt pay s h => exec_wbits_eq h cnt pay⟩
  obtain ⟨hdecode, hcnt⟩ := decode_counted (o := .wbits) (.inl rfl) hhdr hw
  rw [hdecode, Opcode.instr, hcnt]

/-- Settles O13: the bits that RBITS answers are as many as it asks for, or all there are. -/
theorem rbitsRemovesTheFirstBits : Obligations.RbitsRemovesTheFirstBits := by
  refine ⟨fun c cnt hhdr hw => ?_, fun cnt s h => ?_⟩
  · obtain ⟨hdecode, hcnt⟩ := decode_counted (o := .rbits) (.inr rfl) hhdr hw
    rw [hdecode, Opcode.instr, hcnt]
  · rw [exec_rbits_eq h, List.length_take, Stream.bits_length h.1]

/-- Settles O14: CLR answers OK with the empty stream and notes no anomaly. -/
theorem clrEmptiesTheStream : Obligations.ClrEmptiesTheStream :=
  ⟨headerSelects_matchWord .clr, fun _ h => exec_clr_eq h⟩

end Sys2Proof.Proofs
end

section
/-! The commands of the primitive codec (41_primitive.md R142 to R151, R154): each write appends one field, each read takes one
field by the law of a short read, and the `match` word of its row selects each. -/

namespace Sys2Proof.Machine

/-- One bit is its own field (R142). -/
theorem msb_one (v : Nat) : msb v 1 = [v.testBit 0] := rfl

/-- A field of 32 bits is its high half, then its low half (R150). -/
theorem msb_halves (v : Nat) : msb (v % 2 ^ 32) 32 = msb (v % 2 ^ 32 / 2 ^ 16) 16 ++ msb (v % 2 ^ 16) 16 := by
  have hsplit : v % 2 ^ 32 = v % 2 ^ 32 / 2 ^ 16 * 2 ^ 16 + v % 2 ^ 16 := by omega
  conv_lhs => rw [hsplit]
  exact msb_append _ _ 16 16 (Nat.mod_lt _ (by decide))

/-- QUANT is a byte, whatever the operand (R153). -/
theorem quant_lt (p : Scalar) : quant p < 256 := by
  unfold quant
  split
  · decide
  · omega

/-- WFLT writes a field of eight bits, and QUANT fits it (R154). -/
theorem writesBits_wflt (p : Scalar) : WritesBits (.wflt p) (msb (quant p) 8) false := by
  intro s h
  rw [← msb_mod_two_pow]
  exact State.performWrite_wr h (quant p) 8 (by decide)

end Sys2Proof.Machine

namespace Sys2Proof.Proofs

open Sys2Proof.Machine

/-- Settles O15: WFLAG writes a field of one bit. -/
theorem wflagAppendsOneBit : Obligations.WflagAppendsOneBit := by
  refine ⟨headerSelects_matchWord .wflag, fun arg s h => ?_⟩
  have hbit : msb (arg.toNat % 2 ^ 1) 1 = [arg.getLsbD 0] := by rw [msb_mod_two_pow, msb_one]; rfl
  exact hbit ▸ writesBits_of_fieldBits (i := .wflag arg) rfl s h

/-- Settles O16: RFLAG reads a field of one bit. -/
theorem rflagReadsOneBit : Obligations.RflagReadsOneBit :=
  ⟨headerSelects_matchWord .rflag, fun _ h => State.performRead_field h 1 (by decide) _⟩

/-- Settles O17: WU4 writes a field of four bits. -/
theorem wu4AppendsFourBits : Obligations.Wu4AppendsFourBits :=
  ⟨headerSelects_matchWord .wu4, fun arg => writesBits_of_fieldBits (i := .wu4 arg) rfl⟩

/-- Settles O18: RU4 reads a field of four bits. -/
theorem ru4ReadsFourBits : Obligations.Ru4ReadsFourBits :=
  ⟨headerSelects_matchWord .ru4, fun _ h => State.performRead_field h 4 (by decide) _⟩

/-- Settles O19: WU8 writes a field of eight bits. -/
theorem wu8AppendsEightBits : Obligations.Wu8AppendsEightBits :=
  ⟨headerSelects_matchWord .wu8, fun arg => writesBits_of_fieldBits (i := .wu8 arg) rfl⟩

/-- Settles O20: RU8 reads a field of eight bits. -/
theorem ru8ReadsEightBits : Obligations.Ru8ReadsEightBits :=
  ⟨headerSelects_matchWord .ru8, fun _ h => State.performRead_field h 8 (by decide) _⟩

/-- Settles O21: WU16 writes a field of sixteen bits. -/
theorem wu16AppendsSixteenBits : Obligations.Wu16AppendsSixteenBits :=
  ⟨headerSelects_matchWord .wu16, fun arg => writesBits_of_fieldBits (i := .wu16 arg) rfl⟩

/-- Settles O22: RU16 reads a field of sixteen bits. -/
theorem ru16ReadsSixteenBits : Obligations.Ru16ReadsSixteenBits :=
  ⟨headerSelects_matchWord .ru16, fun _ h => State.performRead_field h 16 (by decide) _⟩

/-- Settles O23: WU32 writes a field of 32 bits, which is its two halves. -/
theorem wu32AppendsHighHalfFirst : Obligations.Wu32AppendsHighHalfFirst :=
  ⟨headerSelects_matchWord .wu32, fun arg s h =>
    msb_halves arg.toNat ▸ writesBits_of_fieldBits (i := .wu32 arg) rfl s h⟩

/-- Settles O24: RU32 reads a field of 32 bits. -/
theorem ru32ReadsThirtyTwoBits : Obligations.Ru32ReadsThirtyTwoBits :=
  ⟨headerSelects_matchWord .ru32, fun _ h => State.performRead_field h 32 (by decide) _⟩

/-- Settles O25: a byte is all that WFLT appends. -/
theorem wfltAppendsTheQuantisedByte : Obligations.WfltAppendsTheQuantisedByte :=
  ⟨headerSelects_matchWord .wflt, fun arg s h => ⟨quant_lt arg, writesBits_wflt arg s h⟩⟩

end Sys2Proof.Proofs
end

section
/-! Binary64 patterns as numbers (IEEE 754; log 16), and QUANT as rounding to the nearest integer, ties upward (41_primitive.md
R153). -/

namespace Sys2Proof.Machine

/-! ### What a pattern denotes -/

theorem biasedExponent_eq_extract (p : Scalar) : (p.extractLsb' 52 11).toNat = biasedExponent p := by
  rw [BitVec.extractLsb'_toNat, Nat.shiftRight_eq_div_pow]; rfl

theorem fraction_eq_extract (p : Scalar) : (p.extractLsb' 0 52).toNat = p.toNat % 2 ^ 52 := by
  rw [BitVec.extractLsb'_toNat, Nat.shiftRight_zero]

theorem signBit_iff (p : Scalar) : p.getLsbD 63 = true ↔ p.toNat / 2 ^ 63 = 1 := by
  have hlt := p.isLt
  rw [BitVec.getLsbD, Nat.testBit_eq_decide_div_mod_eq, decide_eq_true_iff]
  omega

/-- The powers of two of the format: the offset 1075 joins the bias 1023 and the 52 bits of the fraction. -/
theorem div_two_pow_mul_two_pow (x : ℚ) (b : ℕ) : x / 2 ^ 1075 * 2 ^ b = x * 2 ^ ((b : ℤ) - 1075) := by
  rw [zpow_sub₀ two_ne_zero, zpow_natCast, zpow_ofNat, div_mul_eq_mul_div, mul_div_assoc]

theorem div_two_pow_subnormal (x : ℚ) : x / 2 ^ 1074 = x * 2 ^ (-1074 : ℤ) := by
  rw [zpow_neg, zpow_ofNat, div_eq_mul_inv]

/-- The model's reading of a pattern, as a number: a significand of 53 bits times a power of two. -/
theorem binary64Of_cases (p : Scalar) :
    (¬ IsFinite p ∧ binary64Of p = .nonFinite) ∨
    ∃ mant expo : ℤ, IsFinite p ∧ binary64Of p = .finite mant expo ∧ |mant| < 2 ^ 53 ∧ realOf p = mant * 2 ^ expo := by
  have hfraction : p.toNat % 2 ^ 52 < 2 ^ 52 := Nat.mod_lt _ (by decide)
  have hsize (m : ℕ) (hm : m < 2 ^ 53) : |if p.getLsbD 63 then -(m : ℤ) else m| < 2 ^ 53 := by
    split
    · rw [abs_neg, Nat.abs_cast]; exact_mod_cast hm
    · rw [Nat.abs_cast]; exact_mod_cast hm
  have hsign (m : ℕ) : ((if p.getLsbD 63 then -(m : ℤ) else m : ℤ) : ℚ) =
      (if p.toNat / 2 ^ 63 = 1 then (-1 : ℚ) else 1) * m := by
    simp only [signBit_iff]
    split <;> simp
  simp only [binary64Of, realOf, IsFinite, biasedExponent_eq_extract, fraction_eq_extract]
  by_cases hinf : biasedExponent p = 2047
  · exact .inl ⟨by simp [hinf], by rw [if_pos hinf]⟩
  · refine .inr ?_
    by_cases hsub : biasedExponent p = 0
    · simp only [if_neg hinf, if_pos hsub]
      refine ⟨_, _, hinf, rfl, hsize _ (by omega), ?_⟩
      rw [hsign, div_two_pow_subnormal, mul_assoc]
    · simp only [if_neg hinf, if_neg hsub]
      refine ⟨_, _, hinf, rfl, hsize _ (by omega), ?_⟩
      rw [hsign, div_two_pow_mul_two_pow, mul_assoc]
      push_cast
      rfl

/-- The pattern of a positive normal number, by its biased exponent and its fraction (R83). -/
theorem realOf_normal {b f : ℕ} (hb0 : b ≠ 0) (hb : b < 2047) (hf : f < 2 ^ 52) :
    IsFinite (BitVec.ofNat 64 (b * 2 ^ 52 + f)) ∧
      realOf (BitVec.ofNat 64 (b * 2 ^ 52 + f)) = (2 ^ 52 + f) * 2 ^ ((b : ℤ) - 1075) := by
  have hnat : (BitVec.ofNat 64 (b * 2 ^ 52 + f)).toNat = b * 2 ^ 52 + f := by
    rw [BitVec.toNat_ofNat, Nat.mod_eq_of_lt (by omega)]
  have hbiased : biasedExponent (BitVec.ofNat 64 (b * 2 ^ 52 + f)) = b := by rw [biasedExponent, hnat]; omega
  have hsign : (b * 2 ^ 52 + f) / 2 ^ 63 ≠ 1 := by omega
  have hfraction : (b * 2 ^ 52 + f) % 2 ^ 52 = f := by omega
  refine ⟨by rw [IsFinite, hbiased]; omega, ?_⟩
  rw [realOf, hbiased, hnat, if_neg hsign, if_neg hb0, hfraction, one_mul, div_two_pow_mul_two_pow]

theorem realOf_zero : realOf 0 = 0 := by simp [realOf, biasedExponent]

/-! ### QUANT -/

/-- `roundHalfUp` is the library's `round` of the number given. -/
theorem roundHalfUp_eq_round (mant expo : ℤ) : roundHalfUp mant expo = round ((mant : ℚ) * 2 ^ expo) := by
  unfold roundHalfUp
  split
  · next hexpo =>
    obtain ⟨k, rfl⟩ := Int.eq_ofNat_of_zero_le hexpo
    rw [Int.toNat_natCast, ← round_intCast (α := ℚ) (mant * 2 ^ k)]
    norm_num
  · next hexpo =>
    obtain ⟨k, hk⟩ := Int.eq_ofNat_of_zero_le (show 0 ≤ -expo by omega)
    obtain rfl : expo = -(k : ℤ) := by omega
    have hquot : ((2 * mant + 2 ^ k : ℤ) : ℚ) / ((2 * 2 ^ k : ℕ) : ℚ) = mant * 2 ^ (-(k : ℤ)) + 1 / 2 := by
      have hpos : (2 : ℚ) ^ k ≠ 0 := by positivity
      rw [zpow_neg, zpow_natCast]
      push_cast
      field_simp
    rw [neg_neg, Int.toNat_natCast, round_eq, ← hquot, Rat.floor_intCast_div_natCast]
    norm_cast

/-- QUANT of a finite pattern (R153). -/
theorem quant_eq_round {p : Scalar} (hp : IsFinite p) : (quant p : ℤ) = round (realOf p * 255) % 256 := by
  obtain ⟨hinf, -⟩ | ⟨mant, expo, -, hpattern, -, hreal⟩ := binary64Of_cases p
  · exact absurd hp hinf
  · have hprod : realOf p * 255 = ((mant * 255 : ℤ) : ℚ) * 2 ^ expo := by rw [hreal]; push_cast; ring
    rw [hprod, ← roundHalfUp_eq_round, quant, hpattern]
    exact Int.toNat_of_nonneg (Int.emod_nonneg _ (by decide))

/-- QUANT of a NaN or an infinity (D18). -/
theorem quant_of_not_finite {p : Scalar} (hp : ¬ IsFinite p) : quant p = 0 := by
  obtain ⟨-, hpattern⟩ | ⟨_, _, hfinite, -⟩ := binary64Of_cases p
  · rw [quant, hpattern]
  · exact absurd hfinite hp

/-- On [0, 1] no wrap-around modulo 256 takes place. -/
theorem quant_of_unit {p : Scalar} (hp : IsFinite p) (h0 : 0 ≤ realOf p) (h1 : realOf p ≤ 1) :
    (quant p : ℤ) = round (realOf p * 255) := by
  rw [quant_eq_round hp]
  refine Int.emod_eq_of_lt ?_ ?_
  · rw [round_eq]; exact Int.floor_nonneg.mpr (by linarith)
  · rw [round_eq]; exact Int.floor_lt.mpr (by push_cast; linarith)

/-- P-QUANT: on [0, 1] the byte is within 1/2 of 255 v. -/
theorem abs_quant_sub_le {p : Scalar} (hp : IsFinite p) (h0 : 0 ≤ realOf p) (h1 : realOf p ≤ 1) :
    |(quant p : ℚ) - 255 * realOf p| ≤ 1 / 2 := by
  have hround := abs_sub_round (realOf p * 255)
  rw [← quant_of_unit hp h0 h1, abs_sub_comm, mul_comm] at hround
  exact hround

/-- A value nearer than 1/510 to the quotient of a byte is quantised to that byte. -/
theorem quant_of_near {p : Scalar} (hp : IsFinite p) {e : ℕ} (he : e < 256) (hnear : |realOf p - e / 255| < 1 / 510) :
    quant p = e := by
  obtain ⟨hlo, hhi⟩ := abs_lt.mp hnear
  have hround : round (realOf p * 255) = (e : ℤ) :=
    round_eq_iff.mpr ⟨by push_cast; linarith, by push_cast; linarith⟩
  have hquant := quant_eq_round hp
  rw [hround] at hquant
  omega

end Sys2Proof.Machine

namespace Sys2Proof.Proofs

open Sys2Proof.Machine

/-- Settles O27: QUANT rounds the product to the nearest integer, which on [0, 1] is a byte. -/
theorem quantRoundsHalfUp : Obligations.QuantRoundsHalfUp := by
  refine ⟨fun p hp => ?_, fun p hp => quant_of_not_finite hp, fun p hp h0 h1 => ?_, fun p hp hv => ?_, fun p hp hv => ?_⟩
  · rw [quant_eq_round hp, round_eq]
  · exact ⟨Nat.le_of_lt_succ (quant_lt p), abs_quant_sub_le hp h0 h1⟩
  · exact quant_of_near hp (by decide) (by rw [hv]; norm_num)
  · exact quant_of_near hp (by decide) (by rw [hv]; norm_num)

end Sys2Proof.Proofs
end

section
/-! The quotient e/255 as a binary64 number: correctly rounded, ties to even (41_primitive.md R155), and the error of a round
trip through WFLT and RFLT (R156). -/

namespace Sys2Proof.Machine

/-! ### The integer significand -/

theorem le_mul_two_pow_normShift {fuel num den : ℕ} (h : den ≤ num * 2 ^ fuel) :
    den ≤ num * 2 ^ normShift fuel num den := by
  induction fuel generalizing num with
  | zero => exact h
  | succ fuel ih =>
    unfold normShift
    split
    · simpa
    · rw [pow_succ'] at h ⊢
      rw [← mul_assoc, mul_comm num 2] at h ⊢
      exact ih h

theorem mul_two_pow_normShift_lt {fuel num den : ℕ} (h : num < 2 * den) :
    num * 2 ^ normShift fuel num den < 2 * den := by
  induction fuel generalizing num with
  | zero => simpa [normShift]
  | succ fuel ih =>
    unfold normShift
    split
    · simpa
    · rw [pow_succ', ← mul_assoc, mul_comm num 2]
      exact ih (by omega)

theorem normShift_le (fuel num den : ℕ) : normShift fuel num den ≤ fuel := by
  induction fuel generalizing num with
  | zero => exact le_rfl
  | succ fuel ih =>
    unfold normShift
    split
    · exact Nat.zero_le _
    · exact Nat.succ_le_succ (ih _)

/-- Over an odd denominator there are no ties: the integer chosen is nearer than one half. -/
theorem roundHalfEven_bounds (num : ℕ) {den : ℕ} (hodd : den % 2 = 1) :
    2 * num < 2 * (roundHalfEven num den * den) + den ∧ 2 * (roundHalfEven num den * den) < 2 * num + den := by
  have hdiv : num / den * den + num % den = num := Nat.div_add_mod' num den
  have hmod : num % den < den := Nat.mod_lt _ (by omega)
  simp only [roundHalfEven]
  split
  · rw [Nat.add_mul]; omega
  · omega

/-- The integer nearest to y is nearer than every other integer, when y is nearer to it than one half. -/
theorem abs_sub_lt_of_ne {m n : ℤ} {y : ℚ} (hm : |(m : ℚ) - y| < 1 / 2) (hne : n ≠ m) : |(m : ℚ) - y| < |(n : ℚ) - y| := by
  have hapart : (1 : ℚ) ≤ |(n : ℚ) - m| := by exact_mod_cast Int.one_le_abs (sub_ne_zero.mpr hne)
  have htriangle := abs_sub_le (n : ℚ) y m
  rw [abs_sub_comm y] at htriangle
  linarith

/-! ### Nearest among all patterns -/

/-- The numbers of the format from 2^-j up are multiples of 2^-(52+j). -/
theorem exists_multiple_of_le_realOf {q : Scalar} {j : ℕ} (hq : IsFinite q) (hlow : 1 / 2 ^ j ≤ realOf q) :
    ∃ n : ℤ, realOf q * 2 ^ (52 + j) = n := by
  obtain ⟨hinf, -⟩ | ⟨mant, expo, -, -, hmant, hreal⟩ := binary64Of_cases q
  · exact absurd hq hinf
  · have hmant' : (mant : ℚ) < 2 ^ (53 : ℤ) := by exact_mod_cast lt_of_abs_lt hmant
    have hexpo : -(j : ℤ) < 53 + expo := by
      refine (zpow_lt_zpow_iff_right₀ (one_lt_two (α := ℚ))).mp ?_
      calc (2 : ℚ) ^ (-(j : ℤ)) = 1 / 2 ^ j := by rw [zpow_neg, zpow_natCast, one_div]
        _ ≤ mant * 2 ^ expo := hreal ▸ hlow
        _ < 2 ^ (53 : ℤ) * 2 ^ expo := mul_lt_mul_of_pos_right hmant' (by positivity)
        _ = 2 ^ (53 + expo) := (zpow_add₀ two_ne_zero _ _).symm
    obtain ⟨k, hk⟩ := Int.eq_ofNat_of_zero_le (show 0 ≤ expo + ((52 + j : ℕ) : ℤ) by push_cast; omega)
    refine ⟨mant * 2 ^ k, ?_⟩
    rw [hreal, mul_assoc, ← zpow_natCast, ← zpow_add₀ two_ne_zero, hk]
    norm_cast

/-- A pattern that is the multiple of 2^-(52+j) nearest to x, for x from 2^-j up, is the pattern nearest to x: a number below
2^-j is farther from x than 2^-j, which is such a multiple. -/
theorem isNearest_of_significand {p : Scalar} {x : ℚ} {j : ℕ} {m : ℤ} (hp : IsFinite p) (hreal : realOf p * 2 ^ (52 + j) = m)
    (hx : 1 / 2 ^ j ≤ x) (hm : |(m : ℚ) - x * 2 ^ (52 + j)| < 1 / 2) : IsNearest p x := by
  refine ⟨hp, fun q hq => ?_⟩
  have hscale : (0 : ℚ) < 2 ^ (52 + j) := by positivity
  have hunit : 1 / 2 ^ j * 2 ^ (52 + j) = ((2 ^ 52 : ℤ) : ℚ) := by rw [pow_add]; field_simp; norm_num
  have hfarther : |(m : ℚ) - x * 2 ^ (52 + j)| < |realOf q * 2 ^ (52 + j) - x * 2 ^ (52 + j)| →
      |realOf p - x| < |realOf q - x| := fun h => by
    rwa [← hreal, ← sub_mul, ← sub_mul, abs_mul, abs_mul, abs_of_pos hscale, mul_lt_mul_iff_left₀ hscale] at h
  by_cases hlow : 1 / 2 ^ j ≤ realOf q
  · obtain ⟨n, hn⟩ := exists_multiple_of_le_realOf hq hlow
    by_cases hne : n = m
    · exact .inr (.inl (mul_right_cancel₀ hscale.ne' (by rw [hn, hreal, hne])))
    · exact .inl (hfarther (hn ▸ abs_sub_lt_of_ne hm hne))
  · refine .inl (hfarther ?_)
    have hq' := mul_lt_mul_of_pos_right (not_le.mp hlow) hscale
    have hx' := mul_le_mul_of_nonneg_right hx hscale.le
    rw [hunit] at hq' hx'
    have hmin : |(m : ℚ) - x * 2 ^ (52 + j)| ≤ |((2 ^ 52 : ℤ) : ℚ) - x * 2 ^ (52 + j)| := by
      by_cases hne : 2 ^ 52 = m
      · rw [hne]
      · exact (abs_sub_lt_of_ne hm hne).le
    rw [abs_of_nonpos (sub_nonpos.mpr hx')] at hmin
    rw [abs_of_neg (a := realOf q * _ - _) (by linarith)]
    linarith

/-! ### The quotient of a byte -/

/-- For a byte above 0 the pattern has the integer significand m nearest to `e / 255 * 2^(52 + j)`, where j brings the quotient
to 1 or more (D31). -/
theorem binary64Of255ths_significand {e : ℕ} (h0 : e ≠ 0) (he : e < 256) :
    ∃ (j : ℕ) (m : ℤ), 1 / 2 ^ j ≤ (e : ℚ) / 255 ∧ |(m : ℚ) - e / 255 * 2 ^ (52 + j)| < 1 / 2 ∧
      IsFinite (binary64Of255ths e) ∧ realOf (binary64Of255ths e) * 2 ^ (52 + j) = m := by
  set j := normShift 8 e 255 with hj
  set m := roundHalfEven (e * 2 ^ (52 + j)) 255 with hm
  have hj8 : j ≤ 8 := normShift_le 8 e 255
  have hlow : 255 ≤ e * 2 ^ j := le_mul_two_pow_normShift (by omega)
  have hhigh : e * 2 ^ j < 510 := mul_two_pow_normShift_lt (by omega)
  have hnum : e * 2 ^ (52 + j) = e * 2 ^ j * 2 ^ 52 := by ring
  obtain ⟨hbelow, habove⟩ := roundHalfEven_bounds (e * 2 ^ (52 + j)) (den := 255) (by decide)
  rw [← hm] at hbelow habove
  have hbelow' : 2 * ((e : ℚ) * 2 ^ (52 + j)) < 2 * (m * 255) + 255 := by exact_mod_cast hbelow
  have habove' : 2 * ((m : ℚ) * 255) < 2 * (e * 2 ^ (52 + j)) + 255 := by exact_mod_cast habove
  have hpattern : binary64Of255ths e = BitVec.ofNat 64 ((1023 - j) * 2 ^ 52 + (m - 2 ^ 52)) := by
    rw [binary64Of255ths, if_neg h0]
  obtain ⟨hfinite, hreal⟩ := realOf_normal (b := 1023 - j) (f := m - 2 ^ 52) (by omega) (by omega) (by omega)
  refine ⟨j, m, ?_, ?_, hpattern ▸ hfinite, ?_⟩
  · rw [div_le_div_iff₀ (by positivity) (by norm_num), one_mul]
    exact_mod_cast hlow
  · rw [div_mul_eq_mul_div, Int.cast_natCast, abs_lt]
    constructor <;> linarith
  · have hexpo : ((1023 - j : ℕ) : ℤ) - 1075 + (52 + j : ℕ) = 0 := by omega
    have hcast : (2 : ℚ) ^ 52 + ((m - 2 ^ 52 : ℕ) : ℚ) = m := by exact_mod_cast Nat.add_sub_cancel' (by omega)
    rw [hpattern, hreal, hcast, mul_assoc, ← zpow_natCast, ← zpow_add₀ two_ne_zero, hexpo, zpow_zero, mul_one,
      Int.cast_natCast]

theorem isNearest_binary64Of255ths {e : ℕ} (he : e < 256) : IsNearest (binary64Of255ths e) (e / 255) := by
  by_cases h0 : e = 0
  · subst h0
    refine ⟨by decide, fun q _ => ?_⟩
    by_cases hq : realOf q = 0
    · exact .inr (.inl (hq.trans realOf_zero.symm))
    · have hzero : realOf (binary64Of255ths 0) = 0 := realOf_zero
      exact .inl (by simpa [hzero] using hq)
  · obtain ⟨j, m, hx, hm, hfinite, hreal⟩ := binary64Of255ths_significand h0 he
    exact isNearest_of_significand hfinite hreal hx hm

/-- The rounding error of the quotient: at most half a unit in the last place of 1 (R156). -/
theorem abs_realOf_binary64Of255ths_sub_le {e : ℕ} (he : e < 256) :
    |realOf (binary64Of255ths e) - e / 255| ≤ 1 / 2 ^ 53 := by
  by_cases h0 : e = 0
  · have hzero : realOf (binary64Of255ths e) = 0 := by rw [h0]; exact realOf_zero
    rw [hzero, h0]
    norm_num
  · obtain ⟨j, m, -, hm, -, hreal⟩ := binary64Of255ths_significand h0 he
    have hscale : (2 : ℚ) ^ 52 ≤ 2 ^ (52 + j) := pow_le_pow_right₀ one_le_two (Nat.le_add_right _ _)
    rw [← hreal, ← sub_mul, abs_mul, abs_of_pos (by positivity : (0 : ℚ) < 2 ^ (52 + j))] at hm
    have hle := (mul_le_mul_of_nonneg_left hscale (abs_nonneg _)).trans hm.le
    linarith

/-- QUANT undoes the quotient (R156). -/
theorem quant_binary64Of255ths {e : ℕ} (he : e < 256) : quant (binary64Of255ths e) = e :=
  quant_of_near (isNearest_binary64Of255ths he).1 he
    ((abs_realOf_binary64Of255ths_sub_le he).trans_lt (by norm_num))

/-- A value of [0, 1] and the quotient of its byte: half a step of 1/255, and the rounding of the quotient (R156). -/
theorem abs_realOf_binary64Of255ths_quant_sub_le {p : Scalar} (hp : IsFinite p) (h0 : 0 ≤ realOf p) (h1 : realOf p ≤ 1) :
    |realOf (binary64Of255ths (quant p)) - realOf p| ≤ 1 / 510 + 1 / 2 ^ 53 := by
  have hbyte : |(quant p : ℚ) / 255 - realOf p| ≤ 1 / 510 := by
    obtain ⟨hlo, hhi⟩ := abs_le.mp (abs_quant_sub_le hp h0 h1)
    rw [abs_le]
    constructor <;> linarith
  have hquotient := abs_realOf_binary64Of255ths_sub_le (quant_lt p)
  have htriangle := abs_sub_le (realOf (binary64Of255ths (quant p))) (quant p / 255) (realOf p)
  linarith

end Sys2Proof.Machine

namespace Sys2Proof.Proofs

open Sys2Proof.Machine

/-- Settles O26: the pattern is `binary64Of255ths` of the byte read. -/
theorem rfltAnswersTheNearestQuotient : Obligations.RfltAnswersTheNearestQuotient := by
  refine ⟨headerSelects_matchWord .rflt, fun s h => ⟨binary64Of255ths (fieldAt s.stream.bits 8), ?_, ?_, ?_, ?_⟩⟩
  · exact isNearest_binary64Of255ths (fieldAt_lt _ 8)
  · intro h0; rw [h0]; rfl
  · intro h255; rw [h255]; rfl
  · exact State.performRead_field h 8 (by decide) _

/-- Settles O28: RFLT reads back the byte that WFLT wrote, and each way rounds to the nearest. -/
theorem floatRoundTripError : Obligations.FloatRoundTripError := by
  refine ⟨fun s p h hempty hroom hp h0 h1 => ?_, by norm_num, fun e he => quant_binary64Of255ths he⟩
  obtain ⟨t, ⟨hwrite, -⟩, ht, -, hstream⟩ := (writesBits_wflt p).commits h (by rwa [msb_length])
  have hbits : t.stream.bits = msb (quant p) 8 := by rw [hstream, Stream.appendBits_bits h.1, hempty, List.nil_append]
  have hsize : t.stream.size = 8 := by rw [← Stream.bits_length ht.1, hbits, msb_length]
  have hbyte : fieldAt t.stream.bits 8 = quant p := by
    rw [hbits, fieldAt_of_le (msb_length _ _).ge, List.take_of_length_le (msb_length _ _).le, val_msb (quant_lt p)]
  have hread := (exec_rflt t).trans (State.performRead_field ht 8 (by decide) binary64Of255ths)
  rw [hbyte] at hread
  obtain ⟨u, hresponds, -⟩ := responds_of_afterRead ht hread hsize.ge
  exact ⟨t, u, _, hwrite, hresponds, (isNearest_binary64Of255ths (quant_lt p)).1,
    abs_realOf_binary64Of255ths_quant_sub_le hp h0 h1⟩

end Sys2Proof.Proofs
end

section
/-! Decimal texts (42_compact_int.md R174, R175): the digits of a number, the text of an integer, and what `parse` accepts. -/

namespace Sys2Proof.Machine

/-! ### Digits -/

theorem isDigit_iff (c : Cell16) : isDigit c = true ↔ 0x30 ≤ c.toNat ∧ c.toNat ≤ 0x39 := by
  simp [isDigit, inRange]

/-- The character of the last decimal digit of n. -/
def digitUnit (n : Nat) : Cell16 := BitVec.ofNat 16 (0x30 + n % 10)

theorem digitUnit_toNat (n : Nat) : (digitUnit n).toNat = 0x30 + n % 10 := by
  rw [digitUnit, BitVec.toNat_ofNat]; omega

theorem isDigit_digitUnit (n : Nat) : isDigit (digitUnit n) = true := by
  rw [isDigit_iff, digitUnit_toNat]; omega

@[simp] theorem digitsValue_nil : digitsValue [] = 0 := rfl

theorem digitsValue_concat (ds : List Cell16) (c : Cell16) :
    digitsValue (ds ++ [c]) = 10 * digitsValue ds + (c.toNat - 0x30) := by
  simp [digitsValue, List.foldl_append]

theorem digitsValue_lt {ds : List Cell16} (h : ∀ c ∈ ds, isDigit c = true) : digitsValue ds < 10 ^ ds.length := by
  induction ds using List.reverseRecOn with
  | nil => decide
  | append_singleton ds c ih =>
    have hinit := ih fun d hd => h d (List.mem_append_left _ hd)
    have hc := (isDigit_iff c).mp (h c (by simp))
    rw [digitsValue_concat, List.length_append, List.length_singleton, pow_succ]
    omega

/-- Without a leading zero, n digits make a number of at least `10^(n - 1)`. -/
theorem le_digitsValue {c : Cell16} (ds : List Cell16) (hc : isDigit c = true) (h0 : c ≠ 0x30) :
    10 ^ ds.length ≤ digitsValue (c :: ds) := by
  induction ds using List.reverseRecOn with
  | nil =>
    have hdigit := (isDigit_iff c).mp hc
    have hne : c.toNat ≠ 0x30 := fun h => h0 (BitVec.eq_of_toNat_eq h)
    simp only [digitsValue, List.length_nil, List.foldl_cons, List.foldl_nil]
    omega
  | append_singleton ds d ih =>
    rw [← List.cons_append, digitsValue_concat, List.length_append, List.length_singleton, pow_succ]
    omega

/-- The digits ds are the canonical decimal spelling of n (R174). -/
structure SpellsDecimal (ds : List Cell16) (n : Nat) : Prop where
  digits : ∀ c ∈ ds, isDigit c = true
  value : digitsValue ds = n
  nonempty : ds ≠ []
  lead : n ≠ 0 → ds.head? ≠ some 0x30

theorem SpellsDecimal.of_digit {n : Nat} (h : n / 10 = 0) : SpellsDecimal [digitUnit n] n where
  digits := by simp [isDigit_digitUnit]
  value := by rw [← List.nil_append [_], digitsValue_concat, digitUnit_toNat, digitsValue_nil]; omega
  nonempty := by simp
  lead := by
    intro h0 hlead
    have hunit : (digitUnit n).toNat = 0x30 := congrArg BitVec.toNat (Option.some.inj hlead)
    rw [digitUnit_toNat] at hunit
    omega

theorem SpellsDecimal.concat {ds : List Cell16} {n : Nat} (h : SpellsDecimal ds (n / 10)) (h0 : n / 10 ≠ 0) :
    SpellsDecimal (ds ++ [digitUnit n]) n where
  digits := by
    intro c hc
    obtain hc | hc := List.mem_append.mp hc
    · exact h.digits c hc
    · rw [List.mem_singleton.mp hc]; exact isDigit_digitUnit n
  value := by rw [digitsValue_concat, h.value, digitUnit_toNat]; omega
  nonempty := by simp
  lead := by intro _; rw [List.head?_append_of_ne_nil _ h.nonempty]; exact h.lead h0

/-- A number of k digits is at least `10^(k - 1)` and less than `10^k`. -/
theorem SpellsDecimal.length_bounds {ds : List Cell16} {n : Nat} (h : SpellsDecimal ds n) (h0 : n ≠ 0) :
    10 ^ (ds.length - 1) ≤ n ∧ n < 10 ^ ds.length := by
  obtain ⟨hdigits, hvalue, hne, hlead⟩ := h
  refine ⟨?_, hvalue ▸ digitsValue_lt hdigits⟩
  cases ds with
  | nil => exact absurd rfl hne
  | cons c cs => exact hvalue ▸ le_digitsValue cs (hdigits c (by simp)) (by simpa using hlead h0)

theorem decimalDigits_append (fuel : Nat) : ∀ (n : Nat) (acc : List Cell16),
    decimalDigits fuel n acc = decimalDigits fuel n [] ++ acc := by
  induction fuel with
  | zero => intro n acc; rfl
  | succ fuel ih =>
    intro n acc
    simp only [decimalDigits]
    split
    · rfl
    · rw [ih _ (_ :: acc), ih _ [_], List.append_assoc, List.singleton_append]

/-- With fuel for as many digits as n has, `decimalDigits` spells n. -/
theorem spellsDecimal_decimalDigits (fuel : Nat) : ∀ {n : Nat}, n < 10 ^ (fuel + 1) →
    SpellsDecimal (decimalDigits (fuel + 1) n []) n := by
  induction fuel with
  | zero =>
    intro n hn
    have h0 : n / 10 = 0 := by omega
    rw [decimalDigits, if_pos h0]
    exact .of_digit h0
  | succ fuel ih =>
    intro n hn
    rw [decimalDigits]
    by_cases h0 : n / 10 = 0
    · rw [if_pos h0]; exact .of_digit h0
    · rw [if_neg h0, decimalDigits_append]
      rw [pow_succ] at hn
      exact (ih (by omega)).concat h0

/-! ### The decimal text of an integer -/

/-- The decimal text of a 64-bit integer is its sign and the spelling of its magnitude (R174). -/
theorem decimalText_spells {v : Int} (hlo : -(2 ^ 63) ≤ v) (hhi : v < 2 ^ 63) :
    ∃ ds, decimalText v = (if v < 0 then [0x2D] else []) ++ ds ∧ SpellsDecimal ds v.natAbs := by
  refine ⟨decimalDigits 20 v.natAbs [], ?_, spellsDecimal_decimalDigits 19 (by omega)⟩
  unfold decimalText
  split <;> rfl

/-- A magnitude of 64 bits has at most 19 digits, and one that needs more than 32 bits at least 10 (R174). -/
theorem SpellsDecimal.length_le {ds : List Cell16} {n : Nat} (h : SpellsDecimal ds n) (h0 : n ≠ 0) (hn : n ≤ 2 ^ 63) :
    1 ≤ ds.length ∧ ds.length ≤ 19 ∧ (2 ^ 32 ≤ n → 10 ≤ ds.length) := by
  obtain ⟨hlow, hhigh⟩ := h.length_bounds h0
  have hup : ds.length - 1 < 19 :=
    (Nat.pow_lt_pow_iff_right (by decide)).mp (lt_of_le_of_lt (hlow.trans hn) (by decide))
  refine ⟨List.length_pos_iff.mpr h.nonempty, by omega, fun hbig => ?_⟩
  exact (Nat.pow_lt_pow_iff_right (by decide)).mp (lt_of_lt_of_le (by decide : 10 ^ 9 < 2 ^ 32) (hbig.trans hhigh.le))

/-! ### parse -/

theorem int64InRange_iff (v : Int) : int64InRange v = true ↔ -(2 ^ 63) ≤ v ∧ v ≤ 2 ^ 63 - 1 := by
  simp [int64InRange]

/-- A text that does not open with `-` has no sign. -/
theorem splitSign_of_ne {c : Cell16} (h : c ≠ 0x2D) (cs : List Cell16) : splitSign (c :: cs) = (false, c :: cs) :=
  if_neg h

/-- What follows the sign, after the sign, is the text. -/
theorem splitSign_append (u : List Cell16) :
    u = (if (splitSign u).1 then [0x2D] else []) ++ (splitSign u).2 := by
  cases u with
  | nil => rfl
  | cons c cs =>
    by_cases h : c = 0x2D
    · subst h; rfl
    · rw [splitSign_of_ne h cs]; rfl

/-- A digit is no sign, so the sign of a signed text of digits is the one put before it. -/
theorem splitSign_signed (neg : Bool) {ds : List Cell16} (h : ∀ c ∈ ds, isDigit c = true) :
    splitSign ((if neg then [0x2D] else []) ++ ds) = (neg, ds) := by
  cases neg with
  | true => rfl
  | false =>
    cases ds with
    | nil => rfl
    | cons c cs =>
      have hc : c ≠ 0x2D := by
        rintro rfl
        exact absurd (h 0x2D List.mem_cons_self) (by decide)
      exact splitSign_of_ne hc cs

/-- R175: `parse` accepts the signed texts of digits with a value of 64 bits, and gives their value. -/
theorem parseInt_eq_some_iff (u : List Cell16) (v : Int) : parseInt u = some v ↔
    ∃ (neg : Bool) (ds : List Cell16), u = (if neg then [0x2D] else []) ++ ds ∧ ds ≠ [] ∧
      (∀ c ∈ ds, isDigit c = true) ∧ v = (if neg then -1 else 1) * (digitsValue ds : Int) ∧ int64InRange v = true := by
  have hsign (neg : Bool) (n : Nat) : (if neg then -(n : Int) else n) = (if neg then -1 else 1) * (n : Int) := by
    cases neg <;> simp
  simp only [parseInt, hsign, Option.ite_none_right_eq_some, Option.some.injEq, Bool.and_eq_true, Bool.not_eq_true',
    List.isEmpty_eq_false_iff, List.all_eq_true]
  constructor
  · rintro ⟨⟨⟨hne, hdigits⟩, hrange⟩, rfl⟩
    exact ⟨_, _, splitSign_append u, hne, hdigits, rfl, hrange⟩
  · rintro ⟨neg, ds, rfl, hne, hdigits, rfl, hrange⟩
    rw [splitSign_signed neg hdigits]
    exact ⟨⟨⟨hne, hdigits⟩, hrange⟩, rfl⟩

/-- `parse` reads the decimal text of a 64-bit integer back (R174, R175). -/
theorem parseInt_decimalText {v : Int} (hlo : -(2 ^ 63) ≤ v) (hhi : v < 2 ^ 63) : parseInt (decimalText v) = some v := by
  obtain ⟨ds, htext, hds⟩ := decimalText_spells hlo hhi
  refine (parseInt_eq_some_iff _ v).mpr
    ⟨decide (v < 0), ds, by simpa using htext, hds.nonempty, hds.digits, ?_, (int64InRange_iff v).mpr (by omega)⟩
  rw [hds.value]
  by_cases hneg : v < 0
  · simp only [hneg, decide_true, if_true]; omega
  · simp only [hneg, decide_false, Bool.false_eq_true, if_false]; omega

end Sys2Proof.Machine

namespace Sys2Proof.Proofs

open Sys2Proof.Machine

/-- Settles O32: `parse` splits a text at its sign, and no digit is a sign. -/
theorem parseAcceptsExactlyDecimals : Obligations.ParseAcceptsExactlyDecimals := by
  intro u v
  simpa only [isDigit_iff, int64InRange_iff, digitsValue] using parseInt_eq_some_iff u v

end Sys2Proof.Proofs
end

section
/-! A string at the head of a content: what the reader makes of the layout of R200, whatever follows it (43_text.md R198 to
R202). -/

namespace Sys2Proof.Machine

/-! ### Alphabets -/

/-- The members of an alphabet are those R192 lists. -/
theorem Alphabet.has_iff (a : Alphabet) (c : Cell16) : a.has c = true ↔ InAlphabet a c := by
  have hcode (n : Cell16) : c = n ↔ c.toNat = n.toNat := BitVec.toNat_inj.symm
  cases a <;> simp [Alphabet.has, InAlphabet, isDigit, isUpper, isLower, inRange, Config.a5Comma, hcode, or_assoc]

/-- The reader takes the alphabet the writer named (R198). -/
theorem Alphabet.ofDiscriminator_id (a : Alphabet) : Alphabet.ofDiscriminator a.id = a := by cases a <;> rfl

theorem Alphabet.id_lt (a : Alphabet) : a.id < 2 ^ 4 := by cases a <;> decide

/-- A member of alphabet 5 has a symbol code of 4 bits that decodes to it (R194). -/
theorem Alphabet.a5_dec_enc {c : Cell16} (h : Alphabet.a5.has c = true) :
    Alphabet.a5.enc c < 2 ^ Alphabet.a5.width ∧ Alphabet.a5.dec (Alphabet.a5.enc c) = c := by
  have hfinite : ∀ n < 0x40, Alphabet.a5.has (BitVec.ofNat 16 n) = true →
      Alphabet.a5.enc (BitVec.ofNat 16 n) < 2 ^ Alphabet.a5.width ∧
        Alphabet.a5.dec (Alphabet.a5.enc (BitVec.ofNat 16 n)) = BitVec.ofNat 16 n := by decide
  have hsmall : c.toNat < 0x40 := by
    have hmem := (Alphabet.has_iff .a5 c).mp h
    simp only [InAlphabet, List.mem_cons, List.not_mem_nil, or_false] at hmem
    omega
  simpa using hfinite c.toNat hsmall (by simpa using h)

/-- Alphabet 5 is the narrowest, so a text of its members is classified there (R193). -/
theorem classify_a5 {u : List Cell16} (h : ∀ c ∈ u, Alphabet.a5.has c = true) : classify u = .a5 :=
  if_pos (List.all_eq_true.mpr h)

/-! ### Fields and strings -/

/-- A field of w bits at the head of a content reads back (R152). -/
theorem fieldAt_msb_append {v w : Nat} (h : v < 2 ^ w) (rest : List Bool) : fieldAt (msb v w ++ rest) w = v := by
  rw [fieldAt_of_le (by simp), List.take_left' (msb_length v w), val_msb h]

/-- The characters of a string, each the symbol code of its width (R200). -/
def symbolBits (a : Alphabet) (u : List Cell16) : List Bool :=
  u.flatMap fun c => msb (a.enc c % 2 ^ a.width) a.width

@[simp] theorem symbolBits_nil (a : Alphabet) : symbolBits a [] = [] := rfl

@[simp] theorem symbolBits_cons (a : Alphabet) (c : Cell16) (u : List Cell16) :
    symbolBits a (c :: u) = msb (a.enc c % 2 ^ a.width) a.width ++ symbolBits a u := rfl

theorem symbolBits_length (a : Alphabet) (u : List Cell16) : (symbolBits a u).length = a.width * u.length := by
  induction u with
  | nil => rfl
  | cons c u ih => rw [symbolBits_cons, List.length_append, msb_length, ih, List.length_cons]; ring

/-- Symbol codes that fit the width and decode to their characters read back (R194 to R197, R202). -/
theorem map_dec_symbolBits {a : Alphabet} {u : List Cell16}
    (h : ∀ c ∈ u, a.enc c < 2 ^ a.width ∧ a.dec (a.enc c) = c) (rest : List Bool) :
    ((List.range u.length).map fun i => a.dec (fieldAt ((symbolBits a u ++ rest).drop (a.width * i)) a.width)) = u := by
  induction u with
  | nil => rfl
  | cons c u ih =>
    obtain ⟨hfits, hdec⟩ := h c List.mem_cons_self
    have hskip (i : Nat) : (symbolBits a (c :: u) ++ rest).drop (a.width * (i + 1)) =
        (symbolBits a u ++ rest).drop (a.width * i) := by
      rw [symbolBits_cons, List.append_assoc, Nat.mul_succ, Nat.add_comm, ← List.drop_drop,
        List.drop_left' (msb_length _ _)]
    rw [List.length_cons, List.range_succ_eq_map, List.map_cons, List.map_map, Nat.mul_zero, List.drop_zero]
    congr 1
    · rw [symbolBits_cons, List.append_assoc, Nat.mod_eq_of_lt hfits, fieldAt_msb_append hfits, hdec]
    · simpa only [Function.comp_def, Nat.succ_eq_add_one, hskip] using ih fun d hd => h d (List.mem_cons_of_mem c hd)

theorem stringBits_eq (u : List Cell16) : stringBits u =
    msb (classify u).id 4 ++ msb (u.length % 2 ^ 16) 16 ++ symbolBits (classify u) u := rfl

theorem stringBits_length (u : List Cell16) : (stringBits u).length = 20 + (classify u).width * u.length := by
  simp only [stringBits_eq, List.length_append, msb_length, symbolBits_length, Nat.reduceAdd]

section
variable (u : List Cell16) (rest : List Bool)

theorem textDiscriminator_stringBits : textDiscriminator (stringBits u ++ rest) = (classify u).id := by
  rw [textDiscriminator, stringBits_eq, List.append_assoc, List.append_assoc, fieldAt_msb_append (classify u).id_lt]

theorem textAlphabet_stringBits : textAlphabet (stringBits u ++ rest) = classify u := by
  rw [textAlphabet, textDiscriminator_stringBits, Alphabet.ofDiscriminator_id]

variable {u} (hlen : u.length < 2 ^ 16)
include hlen

theorem textLength_stringBits : textLength (stringBits u ++ rest) = u.length := by
  rw [textLength, stringBits_eq, List.append_assoc, List.append_assoc, List.drop_left' (msb_length _ _),
    Nat.mod_eq_of_lt hlen, fieldAt_msb_append hlen]

/-- A reader asks for the bits of the string and no more (R59, R200). -/
theorem textBits_stringBits : textBits (stringBits u ++ rest) = (stringBits u).length := by
  rw [textBits, textAlphabet_stringBits, textLength_stringBits rest hlen, stringBits_length]

/-- A string whose symbol codes decode to its characters reads back (R200, R202). -/
theorem textChars_stringBits
    (h : ∀ c ∈ u, (classify u).enc c < 2 ^ (classify u).width ∧ (classify u).dec ((classify u).enc c) = c) :
    textChars (stringBits u ++ rest) = u := by
  have hdrop (i : Nat) : (stringBits u ++ rest).drop (20 + i) = (symbolBits (classify u) u ++ rest).drop i := by
    rw [← List.drop_drop, stringBits_eq, List.append_assoc, List.drop_left' (by simp)]
  simp only [textChars, textAlphabet_stringBits, textLength_stringBits rest hlen, hdrop]
  exact map_dec_symbolBits h rest

end

end Sys2Proof.Machine
end

section
/-! The compact integer codec (42_compact_int.md R170 to R176): the layout of an integer by its range, what the tags at the head
of a content announce, and that the one reads back the other. -/

namespace Sys2Proof.Machine

/-! ### The layout by range (R170) -/

theorem intBits_u8 {v : Int} (h0 : 0 ≤ v) (h1 : v ≤ 255) : intBits v = [true] ++ msb v.toNat 8 := if_pos ⟨h0, h1⟩

theorem intBits_u16 {v : Int} (h0 : 256 ≤ v) (h1 : v ≤ 65535) : intBits v = [false, true] ++ msb v.toNat 16 := by
  rw [intBits, if_neg (by omega), if_pos (by omega)]

theorem intBits_u32 {v : Int} (h0 : 65536 ≤ v) (h1 : v ≤ 4294967295) :
    intBits v = [false, false, true] ++ msb v.toNat 32 := by
  rw [intBits, if_neg (by omega), if_neg (by omega), if_pos (by omega)]

theorem intBits_text {v : Int} (h : v < 0 ∨ 4294967296 ≤ v) :
    intBits v = [false, false, false] ++ stringBits (decimalText v) := by
  rw [intBits, if_neg (by omega), if_neg (by omega), if_neg (by omega)]

/-! ### What the tags announce (R172) -/

/-- A flag is read as its bit. -/
theorem fieldAt_one_cons (x : Bool) (b : List Bool) : fieldAt (x :: b) 1 = x.toNat := by
  simp [fieldAt, val]

/-! Each row of R170's table: the bits that RINT asks for, and the value it finds. -/

section
variable {b : List Bool}

theorem intAt_u8 (h1 : fieldAt b 1 = 1) : intBitsAt b = 9 ∧ intAt b = some (fieldAt (b.drop 1) 8 : Int) := by
  simp only [intBitsAt, intAt, h1, if_true, and_self]

theorem intAt_u16 (h1 : fieldAt b 1 = 0) (h2 : fieldAt (b.drop 1) 1 = 1) :
    intBitsAt b = 18 ∧ intAt b = some (fieldAt (b.drop 2) 16 : Int) := by
  simp only [intBitsAt, intAt, h1, h2, zero_ne_one, if_true, if_false, and_self]

theorem intAt_u32 (h1 : fieldAt b 1 = 0) (h2 : fieldAt (b.drop 1) 1 = 0) (h3 : fieldAt (b.drop 2) 1 = 1) :
    intBitsAt b = 35 ∧ intAt b = some (fieldAt (b.drop 3) 32 : Int) := by
  simp only [intBitsAt, intAt, h1, h2, h3, zero_ne_one, if_true, if_false, and_self]

theorem intAt_text (h1 : fieldAt b 1 = 0) (h2 : fieldAt (b.drop 1) 1 = 0) (h3 : fieldAt (b.drop 2) 1 = 0) :
    intBitsAt b = 3 + textBits (b.drop 3) ∧ intAt b = parseInt (textChars (b.drop 3)) := by
  simp only [intBitsAt, intAt, h1, h2, h3, zero_ne_one, if_false, and_self]

end

/-! ### WINT and RINT as commands -/

theorem writesBits_wint (arg : Scalar) : WritesBits (.wint arg) (intBits arg.toInt) false := fun s h =>
  (exec_wint arg s).trans (State.performWrite_after h (Writing.compactInt_after h.1 arg.toInt))

theorem exec_rint_eq {s : State} (h : s.WellFormed) : exec .rint s =
    .next (s.afterRead (intBitsAt s.stream.bits) (intAt s.stream.bits).isNone
      (BitVec.ofInt 64 ((intAt s.stream.bits).getD 0)) 0 []) := by
  rw [exec_rint]
  exact State.performRead_eq h (a := { val := BitVec.ofInt 64 ((intAt s.stream.bits).getD 0) })
    (by rw [Run.readCompactInt_eq h.1])

/-- RINT where the content announces the natural number n in a body of fixed width. -/
theorem exec_rint_nat {s : State} (h : s.WellFormed) {w n : Nat}
    (hat : intBitsAt s.stream.bits = w ∧ intAt s.stream.bits = some (n : Int)) :
    exec .rint s = .next (s.afterRead w false (BitVec.ofNat 64 n) 0 []) := by
  rw [exec_rint_eq h, hat.1, hat.2]
  simp

/-- A 64-bit operand that is not negative is its own magnitude. -/
theorem toInt_toNat_eq_toNat {arg : Scalar} (h : 0 ≤ arg.toInt) : arg.toInt.toNat = arg.toNat :=
  BitVec.toNat_toInt_of_msb arg (by rw [BitVec.msb_eq_toInt]; exact decide_eq_false (not_lt.mpr h))

/-! ### The decimal text as a string -/

section
variable {v : Int} (hlo : -(2 ^ 63) ≤ v) (hhi : v < 2 ^ 63)
include hlo hhi

theorem a5_has_decimalText : ∀ c ∈ decimalText v, Alphabet.a5.has c = true := by
  obtain ⟨ds, htext, hds⟩ := decimalText_spells hlo hhi
  intro c hc
  rw [htext] at hc
  obtain hsign | hdigit := List.mem_append.mp hc
  · split at hsign
    · rw [List.mem_singleton.mp hsign]; decide
    · cases hsign
  · exact (Alphabet.has_iff .a5 c).mpr (.inl ((isDigit_iff c).mp (hds.digits c hdigit)))

/-- The lengths of R174. -/
theorem decimalText_length :
    (2 ^ 32 ≤ v → 10 ≤ (decimalText v).length ∧ (decimalText v).length ≤ 19) ∧
    (v < 0 → 2 ≤ (decimalText v).length ∧ (decimalText v).length ≤ 20) := by
  obtain ⟨ds, htext, hds⟩ := decimalText_spells hlo hhi
  rw [htext, List.length_append]
  constructor
  · intro hbig
    obtain ⟨-, hmax, hmin⟩ := hds.length_le (by omega) (by omega)
    rw [if_neg (by omega), List.length_nil, Nat.zero_add]
    exact ⟨hmin (by omega), hmax⟩
  · intro hneg
    obtain ⟨hpos, hmax, -⟩ := hds.length_le (by omega) (by omega)
    rw [if_pos hneg, List.length_singleton]
    omega

theorem classify_decimalText : classify (decimalText v) = .a5 := classify_a5 (a5_has_decimalText hlo hhi)

/-- A fallback integer takes 3 + 4 + 16 + 4 L bits (R174). -/
theorem intBits_text_length (h : v < 0 ∨ 4294967296 ≤ v) : (intBits v).length = 23 + 4 * (decimalText v).length := by
  rw [intBits_text h, List.length_append, stringBits_length, classify_decimalText hlo hhi, Alphabet.width,
    List.length_cons, List.length_cons, List.length_singleton]
  omega

/-- The text of a fallback integer, laid out as a string at the head of a content, reads back. -/
theorem decimalText_reads_back (h : v < 0 ∨ 4294967296 ≤ v) (rest : List Bool) :
    textBits (stringBits (decimalText v) ++ rest) = (stringBits (decimalText v)).length ∧
      textChars (stringBits (decimalText v) ++ rest) = decimalText v := by
  obtain ⟨hbig, hneg⟩ := decimalText_length hlo hhi
  have hlen : (decimalText v).length < 2 ^ 16 := by omega
  refine ⟨textBits_stringBits rest hlen, textChars_stringBits rest hlen ?_⟩
  rw [classify_decimalText hlo hhi]
  exact fun c hc => Alphabet.a5_dec_enc (a5_has_decimalText hlo hhi c hc)

/-- The integer laid out at the head of a content is what the tags there announce, with its own bits (R176). -/
theorem intAt_intBits (rest : List Bool) :
    intBitsAt (intBits v ++ rest) = (intBits v).length ∧ intAt (intBits v ++ rest) = some v := by
  have nat {w : Nat} (h0 : 0 ≤ v) (hw : v < 2 ^ w) : some (fieldAt (msb v.toNat w ++ rest) w : Int) = some v := by
    rw [fieldAt_msb_append ((Int.toNat_lt h0).mpr (by exact_mod_cast hw)), Int.toNat_of_nonneg h0]
  obtain hv | hv | hv | hv : (0 ≤ v ∧ v ≤ 255) ∨ (256 ≤ v ∧ v ≤ 65535) ∨ (65536 ≤ v ∧ v ≤ 4294967295) ∨
      (v < 0 ∨ 4294967296 ≤ v) := by omega
  · obtain ⟨hwidth, hval⟩ := intAt_u8 (b := [true] ++ (msb v.toNat 8 ++ rest)) (fieldAt_one_cons _ _)
    rw [intBits_u8 hv.1 hv.2]
    exact ⟨hwidth, hval.trans (nat (by omega) (by omega))⟩
  · obtain ⟨hwidth, hval⟩ := intAt_u16 (b := [false, true] ++ (msb v.toNat 16 ++ rest)) (fieldAt_one_cons _ _)
      (fieldAt_one_cons _ _)
    rw [intBits_u16 hv.1 hv.2]
    exact ⟨hwidth, hval.trans (nat (by omega) (by omega))⟩
  · obtain ⟨hwidth, hval⟩ := intAt_u32 (b := [false, false, true] ++ (msb v.toNat 32 ++ rest)) (fieldAt_one_cons _ _)
      (fieldAt_one_cons _ _) (fieldAt_one_cons _ _)
    rw [intBits_u32 hv.1 hv.2]
    exact ⟨hwidth, hval.trans (nat (by omega) (by omega))⟩
  · obtain ⟨hwidth, hval⟩ := intAt_text (b := [false, false, false] ++ (stringBits (decimalText v) ++ rest))
      (fieldAt_one_cons _ _) (fieldAt_one_cons _ _) (fieldAt_one_cons _ _)
    obtain ⟨htake, hchars⟩ := decimalText_reads_back hlo hhi hv rest
    rw [intBits_text hv, List.length_append]
    exact ⟨hwidth.trans (congrArg (3 + ·) htake),
      (hval.trans (congrArg parseInt hchars)).trans (parseInt_decimalText hlo hhi)⟩

end

/-! ### The round trip (R176) -/

/-- A read that asks for no more bits than there are, and notes nothing, commits in either mode. -/
theorem State.afterRead_of_le {s : State} {n : Nat} (hn : n ≤ s.stream.size) (val : Scalar) (nb : BitVec 20)
    (pay : List Cell16) : s.afterRead n false val nb pay = s.afterOk (s.stream.dropBits n) 0 val nb pay := by
  simp [State.afterRead, State.readFlags, Nat.not_lt.mpr hn, Nat.min_eq_left hn]

/-- RINT answers the operand whose layout stands at the head, and takes exactly its bits (R176). -/
theorem exec_rint_intBits {t : State} (h : t.WellFormed) {arg : Scalar} {rest : List Bool}
    (hbits : t.stream.bits = intBits arg.toInt ++ rest) :
    exec .rint t = .next (t.afterOk (t.stream.dropBits (intBits arg.toInt).length) 0 arg 0 []) := by
  have hfits : (intBits arg.toInt).length ≤ t.stream.size := by
    rw [← Stream.bits_length h.1, hbits, List.length_append]; omega
  obtain ⟨hwidth, hval⟩ := intAt_intBits (BitVec.le_toInt arg) BitVec.toInt_lt rest
  rw [exec_rint_eq h, hbits, hwidth, hval, Option.isNone_some, Option.getD_some, BitVec.ofInt_toInt,
    State.afterRead_of_le hfits]

end Sys2Proof.Machine

namespace Sys2Proof.Proofs

open Sys2Proof.Machine

/-- Settles O33: RINT reads the layout of R170 back wherever it stands, and after WINT on a block without bits the layout is the
whole content. -/
theorem wintRintRoundTrip : Obligations.WintRintRoundTrip := by
  refine ⟨fun arg s h hempty hroom => ?_, fun arg t rest h hbits => exec_rint_intBits h hbits⟩
  obtain ⟨t, ⟨hwrite, -⟩, ht, -, hstream⟩ := (writesBits_wint arg).commits h hroom
  have hbits : t.stream.bits = intBits arg.toInt := by rw [hstream, Stream.appendBits_bits h.1, hempty, List.nil_append]
  have hsize : t.stream.size = (intBits arg.toInt).length := by rw [← Stream.bits_length ht.1, hbits]
  have hread := exec_rint_intBits ht (hbits.trans (List.append_nil _).symm)
  refine ⟨t, _, hwrite, ⟨hread, rfl⟩, ?_⟩
  rw [State.afterOk_stream, Stream.dropBits_size ht.1 hsize.ge, hsize, Nat.sub_self]

/-- Settles O29: the layout of R170 is the form that the range of the operand selects. -/
theorem wintAppendsTheNarrowestForm : Obligations.WintAppendsTheNarrowestForm := by
  refine ⟨headerSelects_matchWord .wint, fun arg s h => ?_⟩
  rw [writesBits_wint arg s h]
  refine ⟨fun h0 h1 => ?_, fun h0 h1 => ?_, fun h0 h1 => ?_, fun hv => ?_⟩
  · rw [intBits_u8 h0 h1, toInt_toNat_eq_toNat h0]
  · rw [intBits_u16 h0 h1, toInt_toNat_eq_toNat (by omega)]
  · rw [intBits_u32 h0 h1, toInt_toNat_eq_toNat (by omega)]
  · rw [intBits_text hv]

/-- Settles O30: the tags at the head decide which body RINT reads, and only a *bad* text notes BADNUM. -/
theorem rintReadsWhatTheTagsAnnounce : Obligations.RintReadsWhatTheTagsAnnounce := by
  refine ⟨headerSelects_matchWord .rint, fun s h => ⟨fun h1 => ?_, fun h1 h2 => ?_, fun h1 h2 h3 => ?_,
    fun h1 h2 h3 => ?_⟩⟩
  · exact exec_rint_nat h (intAt_u8 h1)
  · exact exec_rint_nat h (intAt_u16 h1 h2)
  · exact exec_rint_nat h (intAt_u32 h1 h2 h3)
  · obtain ⟨hwidth, hval⟩ := intAt_text h1 h2 h3
    rw [exec_rint_eq h, hwidth, hval]

/-- Settles O31: the text is the sign and the canonical spelling of the magnitude, a string of alphabet 5. -/
theorem decimalTextIsCanonical : Obligations.DecimalTextIsCanonical := by
  intro v hlo hhi
  obtain ⟨ds, htext, hds⟩ := decimalText_spells hlo hhi
  obtain ⟨hbig, hneg⟩ := decimalText_length hlo hhi
  refine ⟨⟨ds, htext, fun c hc => (isDigit_iff c).mp (hds.digits c hc), hds.value, hds.nonempty,
    fun h0 => hds.lead (Int.natAbs_ne_zero.mpr h0)⟩, hbig, hneg, ?_, intBits_text_length hlo hhi⟩
  exact fun c hc => (Alphabet.has_iff .a5 c).mp (a5_has_decimalText hlo hhi c hc)

end Sys2Proof.Proofs
end

section
/-! The alphabets and their symbol maps (43_text.md R191 to R198): which alphabet the classifier picks, the code of each member,
and that codes and members are inverse. -/

namespace Sys2Proof.Machine

/-! ### The classifier (R193) -/

theorem Alphabet.all_has_iff (a : Alphabet) (u : List Cell16) : u.all a.has = true ↔ ∀ c ∈ u, InAlphabet a c := by
  simp only [List.all_eq_true, Alphabet.has_iff]

theorem Alphabet.id_injective {a b : Alphabet} (h : a.id = b.id) : a = b := by
  rw [← Alphabet.ofDiscriminator_id a, h, Alphabet.ofDiscriminator_id]

/-- The alphabet picked covers the text: it was tested, or it is alphabet 0. -/
theorem inAlphabet_classify (u : List Cell16) : ∀ c ∈ u, InAlphabet (classify u) c := by
  rw [← Alphabet.all_has_iff]
  unfold classify
  split_ifs with h5 h4 h3 h2 h1
  · exact h5
  · exact h4
  · exact h3
  · exact h2
  · exact h1
  · exact (Alphabet.all_has_iff .a0 u).mpr fun _ _ => trivial

/-- No alphabet that covers the text is narrower than the one picked: the tests go from the narrowest to the widest. -/
theorem id_le_id_classify {u : List Cell16} {b : Alphabet} (h : ∀ c ∈ u, InAlphabet b c) : b.id ≤ (classify u).id := by
  rw [← Alphabet.all_has_iff] at h
  cases b with
  | a0 => exact Nat.zero_le _
  | a1 | a2 | a3 | a4 =>
    simp only [classify, h, if_true]
    split_ifs <;> decide
  | a5 => rw [classify, if_pos h]

/-! ### The symbol code of a member (R194 to R197) -/

theorem isUpper_iff (c : Cell16) : isUpper c = true ↔ 0x41 ≤ c.toNat ∧ c.toNat ≤ 0x5A := by
  simp [isUpper, inRange]

theorem isLower_iff (c : Cell16) : isLower c = true ↔ 0x61 ≤ c.toNat ∧ c.toNat ≤ 0x7A := by
  simp [isLower, inRange]

/-- A character with the number n is the numeral n. -/
theorem cell_eq_ofNat {c : Cell16} {n : Nat} (h : c.toNat = n) : c = BitVec.ofNat 16 n := by
  rw [← h, BitVec.ofNat_toNat, BitVec.setWidth_eq]

section
variable {c : Cell16}

theorem Alphabet.a5_enc_of_ne (h : c ≠ 0x20) : Alphabet.a5.enc c = c.toNat - 43 :=
  if_neg fun h0 => h (cell_eq_ofNat h0)

theorem Alphabet.a4_enc_lower (h : isLower c = true) : Alphabet.a4.enc c = c.toNat - 97 := if_pos h

theorem Alphabet.a3_enc_digit (h : isDigit c = true) : Alphabet.a3.enc c = c.toNat - 48 := if_pos h

theorem Alphabet.a3_enc_upper (h : isUpper c = true) : Alphabet.a3.enc c = c.toNat - 55 := by
  have hdigit : ¬ isDigit c = true := by rw [isDigit_iff]; rw [isUpper_iff] at h; omega
  exact (if_neg hdigit).trans (if_pos h)

theorem Alphabet.a3_enc_lower (h : isLower c = true) : Alphabet.a3.enc c = c.toNat - 61 := by
  rw [isLower_iff] at h
  have hdigit : ¬ isDigit c = true := by rw [isDigit_iff]; omega
  have hupper : ¬ isUpper c = true := by rw [isUpper_iff]; omega
  exact (if_neg hdigit).trans ((if_neg hupper).trans (if_pos ((isLower_iff c).mpr h)))

/-! The character of a code, where codes run in order. -/

section
variable {k : Nat}

theorem Alphabet.a4_dec_lower (h : k ≤ 25) : Alphabet.a4.dec k = BitVec.ofNat 16 (k + 97) := if_pos h

theorem Alphabet.a3_dec_digit (h : k ≤ 9) : Alphabet.a3.dec k = BitVec.ofNat 16 (k + 48) := if_pos h

theorem Alphabet.a3_dec_upper (h0 : 9 < k) (h1 : k ≤ 35) : Alphabet.a3.dec k = BitVec.ofNat 16 (k + 55) :=
  (if_neg (Nat.not_le.mpr h0)).trans (if_pos h1)

theorem Alphabet.a3_dec_lower (h0 : 35 < k) (h1 : k ≤ 61) : Alphabet.a3.dec k = BitVec.ofNat 16 (k + 61) :=
  (if_neg (by omega)).trans ((if_neg (Nat.not_le.mpr h0)).trans (if_pos h1))

end

/-! Alphabets 2, 1 and 0 are the code units that fit their width, each its own code (R197). -/

theorem Alphabet.wide_enc {a : Alphabet} (ha : a.id ≤ 2) (c : Cell16) : a.enc c = c.toNat := by
  cases a with
  | a0 | a1 | a2 => rfl
  | a3 | a4 | a5 => exact absurd ha (by decide)

theorem Alphabet.wide_dec {a : Alphabet} (ha : a.id ≤ 2) (k : Nat) : a.dec k = BitVec.ofNat 16 k := by
  cases a with
  | a0 | a1 | a2 => rfl
  | a3 | a4 | a5 => exact absurd ha (by decide)

theorem Alphabet.wide_iff {a : Alphabet} (ha : a.id ≤ 2) (c : Cell16) : InAlphabet a c ↔ c.toNat < 2 ^ a.width := by
  cases a with
  | a0 => exact iff_of_true trivial c.isLt
  | a1 | a2 => exact Nat.lt_succ_iff.symm
  | a3 | a4 | a5 => exact absurd ha (by decide)

/-! ### Codes and members are inverse -/

/-- A code that counts from `base` leads back to its character. -/
theorem ofNat_sub_add {base : Nat} (h : base ≤ c.toNat) : BitVec.ofNat 16 (c.toNat - base + base) = c :=
  (cell_eq_ofNat (Nat.sub_add_cancel h).symm).symm

/-- R195, from a member to its code and back. -/
theorem Alphabet.a4_dec_enc (h : InAlphabet .a4 c) :
    Alphabet.a4.enc c < 2 ^ Alphabet.a4.width ∧ Alphabet.a4.dec (Alphabet.a4.enc c) = c := by
  obtain hlower | hlisted := h
  · rw [Alphabet.a4_enc_lower ((isLower_iff c).mpr hlower), Alphabet.a4_dec_lower (by omega),
      ofNat_sub_add hlower.1]
    exact ⟨by simp only [Alphabet.width]; omega, rfl⟩
  · have hfinite : ∀ n ∈ [0x20, 0x7C, 0x27, 0x2D, 0x2E, 0x2C],
        Alphabet.a4.enc (BitVec.ofNat 16 n) < 2 ^ Alphabet.a4.width ∧
        Alphabet.a4.dec (Alphabet.a4.enc (BitVec.ofNat 16 n)) = BitVec.ofNat 16 n := by decide
    rw [cell_eq_ofNat (c := c) rfl]
    exact hfinite c.toNat hlisted

/-- R196, from a member to its code and back. -/
theorem Alphabet.a3_dec_enc (h : InAlphabet .a3 c) :
    Alphabet.a3.enc c < 2 ^ Alphabet.a3.width ∧ Alphabet.a3.dec (Alphabet.a3.enc c) = c := by
  obtain hdigit | hupper | hlower | hlisted := h
  · rw [Alphabet.a3_enc_digit ((isDigit_iff c).mpr hdigit), Alphabet.a3_dec_digit (by omega),
      ofNat_sub_add hdigit.1]
    exact ⟨by simp only [Alphabet.width]; omega, rfl⟩
  · rw [Alphabet.a3_enc_upper ((isUpper_iff c).mpr hupper), Alphabet.a3_dec_upper (by omega) (by omega),
      ofNat_sub_add (by omega)]
    exact ⟨by simp only [Alphabet.width]; omega, rfl⟩
  · rw [Alphabet.a3_enc_lower ((isLower_iff c).mpr hlower), Alphabet.a3_dec_lower (by omega) (by omega),
      ofNat_sub_add (by omega)]
    exact ⟨by simp only [Alphabet.width]; omega, rfl⟩
  · have hfinite : ∀ n ∈ [0x2C, 0x20], Alphabet.a3.enc (BitVec.ofNat 16 n) < 2 ^ Alphabet.a3.width ∧
        Alphabet.a3.dec (Alphabet.a3.enc (BitVec.ofNat 16 n)) = BitVec.ofNat 16 n := by decide
    rw [cell_eq_ofNat (c := c) rfl]
    exact hfinite c.toNat hlisted

/-- R197, from a member to its code and back. -/
theorem Alphabet.wide_dec_enc {a : Alphabet} (ha : a.id ≤ 2) (h : InAlphabet a c) :
    a.enc c < 2 ^ a.width ∧ a.dec (a.enc c) = c := by
  rw [Alphabet.wide_dec ha, Alphabet.wide_enc ha]
  exact ⟨(Alphabet.wide_iff ha c).mp h, (cell_eq_ofNat rfl).symm⟩

/-- A member's code fits the width and decodes to it. -/
theorem Alphabet.dec_enc {a : Alphabet} (h : InAlphabet a c) : a.enc c < 2 ^ a.width ∧ a.dec (a.enc c) = c := by
  cases a with
  | a0 | a1 | a2 => exact Alphabet.wide_dec_enc (by decide) h
  | a3 => exact Alphabet.a3_dec_enc h
  | a4 => exact Alphabet.a4_dec_enc h
  | a5 => exact Alphabet.a5_dec_enc ((Alphabet.has_iff .a5 c).mpr h)

end

/-- R197, from a code to its character and back. -/
theorem Alphabet.wide_enc_dec {a : Alphabet} (ha : a.id ≤ 2) {k : Nat} (hk : k < 2 ^ a.width) :
    InAlphabet a (a.dec k) ∧ a.enc (a.dec k) = k := by
  have hk16 : k < 2 ^ 16 := hk.trans_le (Nat.pow_le_pow_right (by decide) a.width_le)
  have hval : (BitVec.ofNat 16 k).toNat = k := by rw [BitVec.toNat_ofNat, Nat.mod_eq_of_lt hk16]
  rw [Alphabet.wide_iff ha, Alphabet.wide_enc ha, Alphabet.wide_dec ha, hval]
  exact ⟨hk, rfl⟩

/-- Every code of an alphabet but 5 is the code of the member it decodes to. -/
theorem Alphabet.enc_dec {a : Alphabet} (ha : a ≠ .a5) {k : Nat} (hk : k < 2 ^ a.width) :
    InAlphabet a (a.dec k) ∧ a.enc (a.dec k) = k := by
  cases a with
  | a0 | a1 | a2 => exact Alphabet.wide_enc_dec (by decide) hk
  | a3 =>
    have hfinite : ∀ k < 2 ^ 6, Alphabet.a3.has (Alphabet.a3.dec k) = true ∧ Alphabet.a3.enc (Alphabet.a3.dec k) = k := by
      decide
    exact (hfinite k hk).imp_left (Alphabet.has_iff .a3 _).mp
  | a4 =>
    have hfinite : ∀ k < 2 ^ 5, Alphabet.a4.has (Alphabet.a4.dec k) = true ∧ Alphabet.a4.enc (Alphabet.a4.dec k) = k := by
      decide
    exact (hfinite k hk).imp_left (Alphabet.has_iff .a4 _).mp
  | a5 => exact absurd rfl ha

/-- A member of alphabet 5 that is not the space has the code `c - 43`, and no member has code 1 or 15 (R194). -/
theorem Alphabet.a5_enc_member {c : Cell16} (h : InAlphabet .a5 c) :
    Alphabet.a5.enc c ≠ 1 ∧ Alphabet.a5.enc c ≠ 15 ∧ (c ≠ 0x20 → Alphabet.a5.enc c + 43 = c.toNat) := by
  by_cases hspace : c = 0x20
  · subst hspace; decide
  · have hne : c.toNat ≠ 0x20 := fun h0 => hspace (cell_eq_ofNat h0)
    simp only [InAlphabet, List.mem_cons, List.not_mem_nil, or_false] at h
    rw [Alphabet.a5_enc_of_ne hspace]
    omega

end Sys2Proof.Machine

namespace Sys2Proof.Proofs

open Sys2Proof.Machine

/-- Settles O34: the alphabet picked covers the text and has the largest id that does, and ids tell alphabets apart. -/
theorem classifierPicksTheNarrowest : Obligations.ClassifierPicksTheNarrowest := by
  intro u a
  constructor
  · rintro rfl
    refine ⟨inAlphabet_classify u, fun b hb => ?_⟩
    by_contra! hcovers
    exact absurd (id_le_id_classify hcovers) (Nat.not_le.mpr hb)
  · rintro ⟨hcovers, hmisses⟩
    have hle : ¬ a.id < (classify u).id := fun hlt => by
      obtain ⟨c, hc, hout⟩ := hmisses _ hlt
      exact hout (inAlphabet_classify u c hc)
    exact Alphabet.id_injective (Nat.le_antisymm (Nat.not_lt.mp hle) (id_le_id_classify hcovers))

/-- Settles O35: the two directions, then the codes rule by rule. -/
theorem symbolMapsAreInverse : Obligations.SymbolMapsAreInverse := by
  refine ⟨fun _ _ => Alphabet.dec_enc, fun _ _ ha hk => Alphabet.enc_dec ha hk, by decide, by decide, by decide,
    fun _ => Alphabet.a5_enc_member, by decide, fun c h0 h1 => ?_, by decide, fun c h0 h1 => ?_, fun c h0 h1 => ?_,
    fun c h0 h1 => ?_, by decide, fun _ c ha _ => Alphabet.wide_enc ha c⟩
  · rw [Alphabet.a4_enc_lower ((isLower_iff c).mpr ⟨h0, h1⟩)]; omega
  · rw [Alphabet.a3_enc_digit ((isDigit_iff c).mpr ⟨h0, h1⟩)]; omega
  · rw [Alphabet.a3_enc_upper ((isUpper_iff c).mpr ⟨h0, h1⟩)]; omega
  · rw [Alphabet.a3_enc_lower ((isLower_iff c).mpr ⟨h0, h1⟩)]; omega

/-- Settles O36: sixteen discriminators and six alphabets. -/
theorem readerTakesTheNamedAlphabet : Obligations.ReaderTakesTheNamedAlphabet :=
  ⟨by decide, fun a => by cases a <;> decide⟩

end Sys2Proof.Proofs
end

section
/-! The text codec (43_text.md R199 to R203): WSTR appends the layout of its text, RSTR reads a string by the law of a short
read, and the one reads back the other. -/

namespace Sys2Proof.Machine

/-! ### Case folding (R199; log 5) -/

theorem foldUnit_eq (c : Cell16) : foldUnit c = if 0x41 ≤ c.toNat ∧ c.toNat ≤ 0x5A then c + 0x20 else c := by
  simp only [foldUnit, isUpper_iff]

theorem foldText_eq (fold : Bool) (pay : List Cell16) : foldText fold pay =
    if fold then pay.map (fun c => if 0x41 ≤ c.toNat ∧ c.toNat ≤ 0x5A then c + 0x20 else c) else pay := by
  rw [foldText, funext foldUnit_eq]

@[simp] theorem foldText_length (fold : Bool) (pay : List Cell16) : (foldText fold pay).length = pay.length := by
  cases fold with
  | false => rfl
  | true => exact List.length_map _

/-! ### WSTR and RSTR as commands -/

/-- The headers of WSTR, one for each FOLD, select it with that FOLD (R81, R85). -/
theorem decode_wstr {c : Command} {fold : Bool} (hhdr : c.hdr = headerWord .wstr fold 0) (hw : c.wellFormed = true) :
    decode c = .ok (.wstr fold c.pay) := by
  have howns : Opcode.wstr.Owns c.hdr := hhdr ▸ encode_owned (.wstr fold [])
  have hfold : Header.fold c.hdr = fold := by rw [hhdr, headerWord_eq_ofFields, Header.fold_ofFields]
  rw [decode_of_owns howns hw, Opcode.instr, hfold]

theorem writesBits_wstr (fold : Bool) (pay : List Cell16) :
    WritesBits (.wstr fold pay) (stringBits (foldText fold pay)) false := fun s h =>
  (exec_wstr fold pay s).trans (State.performWrite_after h (Writing.string_after h.1 _))

theorem textChars_length (b : List Bool) : (textChars b).length = textLength b := by
  rw [textChars, List.length_map, List.length_range]

theorem exec_rstr_eq {s : State} (h : s.WellFormed) : exec .rstr s =
    .next (s.afterRead (textBits s.stream.bits) false (BitVec.ofNat 64 (textDiscriminator s.stream.bits))
      (BitVec.ofNat 20 (textLength s.stream.bits)) (textChars s.stream.bits)) := by
  rw [exec_rstr, ← textChars_length]
  exact State.performRead_eq h (a := ⟨BitVec.ofNat 64 (textDiscriminator s.stream.bits),
    BitVec.ofNat 20 (textChars s.stream.bits).length, textChars s.stream.bits⟩) (by rw [Run.readString_eq h.1]; rfl)

/-! ### The round trip (R203) -/

/-- RSTR answers the string whose layout stands at the head, and takes exactly its bits. -/
theorem exec_rstr_stringBits {u : List Cell16} {t : State} {rest : List Bool} (h : t.WellFormed) (hlen : u.length ≤ 65535)
    (hbits : t.stream.bits = stringBits u ++ rest) :
    exec .rstr t = .next (t.afterOk (t.stream.dropBits (stringBits u).length) 0 (BitVec.ofNat 64 (classify u).id)
      (BitVec.ofNat 20 u.length) u) := by
  have hlt : u.length < 2 ^ 16 := Nat.lt_succ_of_le hlen
  have hfits : (stringBits u).length ≤ t.stream.size := by
    rw [← Stream.bits_length h.1, hbits, List.length_append]; omega
  rw [exec_rstr_eq h, hbits, textBits_stringBits rest hlt, textDiscriminator_stringBits, textLength_stringBits rest hlt,
    textChars_stringBits rest hlt fun c hc => Alphabet.dec_enc (inAlphabet_classify u c hc), State.afterRead_of_le hfits]

/-- A write of b on a block without bits, then a read that takes b from the head: the read's answer is given, and no bit is
left. -/
theorem WritesBits.read_back {i j : Instr} {b : List Bool} {val : Scalar} {nb : BitVec 20} {pay : List Cell16}
    (hi : WritesBits i b false)
    (hj : ∀ t : State, t.WellFormed → t.stream.bits = b →
      exec j t = .next (t.afterOk (t.stream.dropBits b.length) 0 val nb pay))
    {s : State} (h : s.WellFormed) (hempty : s.stream.bits = [])
    (hroom : s.config.admits (s.stream.cellsAfter b.length) = true) :
    ∃ t u, exec i s = .next t ∧ Responds j t u { code := .ok, nb := nb, val := val, pay := pay } ∧ u.stream.size = 0 := by
  obtain ⟨t, ⟨hwrite, -⟩, ht, -, hstream⟩ := hi.commits h hroom
  have hbits : t.stream.bits = b := by rw [hstream, Stream.appendBits_bits h.1, hempty, List.nil_append]
  have hsize : t.stream.size = b.length := by rw [← Stream.bits_length ht.1, hbits]
  refine ⟨t, _, hwrite, ⟨hj t ht hbits, rfl⟩, ?_⟩
  rw [State.afterOk_stream, Stream.dropBits_size ht.1 hsize.ge, hsize, Nat.sub_self]

end Sys2Proof.Machine

namespace Sys2Proof.Proofs

open Sys2Proof.Machine

/-- Settles O39: every member of the alphabet picked is decoded from its code, so RSTR reads the layout of R200 back wherever it
stands. -/
theorem wstrRstrRoundTrip : Obligations.WstrRstrRoundTrip := by
  refine ⟨fun fold pay s h hempty hlen hroom => ?_, fun u t rest h hlen hbits => exec_rstr_stringBits h hlen hbits⟩
  rw [← foldText_eq, ← foldText_length fold pay]
  rw [← foldText_length fold pay] at hlen
  obtain ⟨t, u, hboth⟩ := (writesBits_wstr fold pay).read_back
    (fun t ht hbits => exec_rstr_stringBits ht hlen (hbits.trans (List.append_nil _).symm)) h hempty hroom
  exact ⟨t, u, _, hboth⟩

/-- Settles O37: a length or code is laid out by its low-order bits, so the layout of R200 needs no reduction. -/
theorem wstrAppendsTheString : Obligations.WstrAppendsTheString := by
  refine ⟨fun c fold hhdr hw => decode_wstr (hhdr.trans (by cases fold <;> rfl)) hw, fun fold pay s h _ u hu => ?_⟩
  rw [writesBits_wstr fold pay s h, foldText_eq, ← hu]
  simp only [stringBits, msb_mod_two_pow]

/-- Settles O38: the layout's fields at the head of the content are what RSTR asks for and answers. -/
theorem rstrReadsTheString : Obligations.RstrReadsTheString := by
  refine ⟨headerSelects_matchWord .rstr, ?_⟩
  rintro s _ _ _ h rfl rfl rfl
  exact exec_rstr_eq h

end Sys2Proof.Proofs
end

section
/-! The system commands (44_system.md R230 to R232): GETST answers the two mode registers as one word, SETMODE and CLRST change
one register and answer OK. -/

namespace Sys2Proof.Machine

/-- A command that touches no stream and answers 0 adds its response to the block and nothing else (R253). -/
theorem State.performIdle_zero {s : State} (h : s.WellFormed) :
    s.performIdle 0 =
      .next { s with responses := s.responses ++ [{ code := .ok, nb := 0, val := 0, pay := [] }] } := by
  have hstatus : s.status ||| 0 = s.status := BitVec.or_zero
  rw [State.performIdle_eq h, State.afterOk, hstatus]

/-- STRICT stands in bit 8 of the word GETST answers (R230). -/
theorem State.ctrlWord_shiftLeft_eight (s : State) : s.ctrlWord <<< 8 = if s.strict then 0x100 else 0 := by
  rw [State.ctrlWord]
  cases s.strict with
  | false => rfl
  | true => rfl

end Sys2Proof.Machine

namespace Sys2Proof.Proofs

open Sys2Proof.Machine

/-- Settles O40: the word answered is read from the registers before the command, which leaves them alone. -/
theorem getstAnswersStatusAndMode : Obligations.GetstAnswersStatusAndMode := by
  refine ⟨headerSelects_matchWord .getst, fun s h => ?_⟩
  rw [exec_getst, State.performIdle_eq h, State.ctrlWord_shiftLeft_eight, State.statusWord]

/-- Settles O41: no anomaly is noted, so the completion is the same under the old mode and the new. -/
theorem setmodeWritesStrict : Obligations.SetmodeWritesStrict :=
  ⟨headerSelects_matchWord .setmode, fun arg s h =>
    (exec_setmode arg s).trans (State.performIdle_zero (s := { s with strict := argBit arg }) h)⟩

/-- Settles O42: no anomaly is noted, so the completion sets no flag again. -/
theorem clrstClearsTheChosenFlags : Obligations.ClrstClearsTheChosenFlags :=
  ⟨headerSelects_matchWord .clrst, fun arg s h =>
    (exec_clrst arg s).trans
      (State.performIdle_zero (s := { s with status := clearFlags s.status (argFlags arg) }) h)⟩

end Sys2Proof.Proofs
end

section
/-! Steps of a safe block (60_exceptions.md R255, R263; 70_reset_and_hazards.md R294): the block idles, answers, and takes at
most one event from its ports. -/

namespace Sys2Proof.Machine

theorem step_idle {s : State} (h : s.pending = []) : step s = .next s := by
  simp only [step, State.fetch, h]

/-- A step takes the first event of the ports, if there is one. -/
theorem step_pending {s t : State} (ht : step s = .next t) : t.pending = s.pending.tail := by
  obtain ⟨hp, he⟩ | ⟨rest, hp, he⟩ | ⟨c, rest, -, -, he⟩ | ⟨c, rest, hp, he⟩ | ⟨c, rest, i, hp, -, he⟩ := step_cases s
  · cases he.symm.trans ht; rw [hp]; rfl
  · cases he.symm.trans ht; rw [hp]; rfl
  · cases he.symm.trans ht
  · cases he.symm.trans ht; rw [hp]; rfl
  · obtain ⟨hkept, -⟩ := exec_givesOneResponse (he ▸ ht)
    rw [hkept, hp]; rfl

/-- What the ports can carry stays so after any step. -/
theorem step_keeps_presentable {s t : State} (h : s.Presentable) (ht : step s = .next t) : t.Presentable :=
  fun e he => h e (List.mem_of_mem_tail (step_pending ht ▸ he))

/-- A safe block answers: the two stops of the model lie outside R25 and beyond what the port can carry (logs 8, 9). -/
theorem stepAnswers_of_safe {s : State} (h : s.Safe) : StepAnswers s := by
  obtain ⟨hwf, hports⟩ := h
  obtain ⟨-, -, -, -, hfault, hrefused⟩ := Proofs.onlyTheImpossibleStops
  match hstep : step s with
  | .next t => exact ⟨t, hstep⟩
  | .fault f => exact absurd hwf (hfault s f hstep)
  | .refused r =>
    obtain ⟨c, rest, hp, hlong⟩ := hrefused s r hstep
    have hfits : c.wellFormed = true := hports (.command c) (hp ▸ List.mem_cons_self)
    exact absurd ((payloadFits_iff c.pay).mp hfits) (Nat.not_le.mpr hlong)

end Sys2Proof.Machine

namespace Sys2Proof.Proofs

open Sys2Proof.Machine

/-- Settles O10: a safe block answers, and each half of safety is kept, W1 to W6 by O9. -/
theorem wellFormedBlockNeverStops : Obligations.WellFormedBlockNeverStops := by
  intro s hs
  obtain ⟨t, ht⟩ := stepAnswers_of_safe hs
  obtain ⟨hwf, hports⟩ := hs
  exact ⟨t, ht, everyStepKeepsWellFormed s t hwf ht, step_keeps_presentable hports ht⟩

/-- Settles O6: with nothing presented the fetch finds no event. -/
theorem idleBlockHoldsItsState : Obligations.IdleBlockHoldsItsState :=
  fun _ => step_idle

end Sys2Proof.Proofs
end

section
/-! Error responses (60_exceptions.md R250 to R255): a command answers OK, or it ends in `afterError` with a code whose cause
R252 names. -/

namespace Sys2Proof.Machine

/-- The row of R252 for an error code: the mode, the commands and the flag, of command i from s to t. -/
def ErrorCause (i : Instr) (s t : State) : Code → Prop
  | .underrun => s.strict = true ∧ isRead i = true ∧ t.status.getLsbD 0 = true
  | .overrun => s.strict = true ∧ i.opcode = .wbits ∧ t.status.getLsbD 1 = true
  | .badnum => s.strict = true ∧ i.opcode = .rint ∧ t.status.getLsbD 2 = true
  | .overflow => isWrite i = true ∧ s.config.cap ≠ none ∧ t.status.getLsbD 3 = true
  | .ok | .illegal => False

/-- An error needs strict mode or a finite CAP (R250, R252). -/
theorem ErrorCause.strict_or_bounded {i : Instr} {s t : State} {c : Code} (h : ErrorCause i s t c) :
    s.strict = true ∨ s.config.cap ≠ none := by
  cases c with
  | underrun | overrun | badnum => exact .inl h.1
  | overflow =>
    obtain ⟨-, hbounded, -⟩ := h
    exact .inr hbounded
  | ok | illegal => exact h.elim

/-- From s to t command i answers OK, or it fails: an error response that has its cause, and the block otherwise as before. -/
def AnswersOkOrFails (i : Instr) (s t : State) : Prop :=
  (∃ r, t.responses = s.responses ++ [r] ∧ r.code = .ok) ∨
    ∃ c flags, t = s.afterError c flags ∧ ErrorCause i s t c

/-- An unbounded block has room for any number of cells (R7). -/
theorem Config.cap_ne_none {c : Config} {n : Nat} (h : c.admits n = false) : c.cap ≠ none := by
  intro hcap
  simp [Config.admits, hcap] at h

/-- A flag that is recorded is set. -/
theorem State.afterError_status_getLsbD (s : State) (c : Code) {flags : Anomalies} {j : Nat} (h : flags.getLsbD j = true) :
    (s.afterError c flags).status.getLsbD j = true := by
  rw [State.afterError_status, BitVec.getLsbD_or, h, Bool.or_true]

/-- A read that asks for too much records UNDERRUN. -/
theorem State.readFlags_underrun {s : State} {n : Nat} (hn : s.stream.size < n) (bad : Bool) :
    (s.readFlags n bad).getLsbD 0 = true := by
  cases bad <;> simp [State.readFlags, hn]

/-- A read that finds a *bad* text records BADNUM. -/
theorem State.readFlags_badnum (s : State) (n : Nat) : (s.readFlags n true).getLsbD 2 = true := by
  by_cases hn : s.stream.size < n <;> simp [State.readFlags, hn]

/-- A write fails by OVERFLOW, or by OVERRUN where the clamp applied, which only WBITS can bring about. -/
theorem State.afterWrite_okOrFails {i : Instr} (hi : isWrite i = true) {clamped : Bool}
    (hop : i.opcode ≠ .wbits → clamped = false) (s : State) (b : List Bool) :
    AnswersOkOrFails i s (s.afterWrite b clamped) := by
  unfold State.afterWrite
  split
  · rename_i hfull
    have hflag : (if clamped then 0b01010 else 0b01000 : Anomalies).getLsbD 3 = true := by cases clamped <;> rfl
    exact .inr ⟨.overflow, _, rfl, hi, Config.cap_ne_none hfull, s.afterError_status_getLsbD _ hflag⟩
  · split
    · rename_i hover
      obtain ⟨hstrict, rfl⟩ := hover
      have hwbits : i.opcode = .wbits := by
        by_contra hne
        cases hop hne
      exact .inr ⟨.overrun, _, rfl, hstrict, hwbits, s.afterError_status_getLsbD _ rfl⟩
    · exact .inl ⟨_, rfl, rfl⟩

/-- A read fails in strict mode only: by UNDERRUN, or by BADNUM, which only RINT can bring about. -/
theorem State.afterRead_okOrFails {i : Instr} (hi : isRead i = true) {bad : Bool} (hop : i.opcode ≠ .rint → bad = false)
    (s : State) (n : Nat) (val : Scalar) (nb : BitVec 20) (pay : List Cell16) :
    AnswersOkOrFails i s (s.afterRead n bad val nb pay) := by
  unfold State.afterRead
  split
  · rename_i hshort
    obtain ⟨hstrict, hn⟩ := hshort
    exact .inr ⟨.underrun, _, rfl, hstrict, hi, s.afterError_status_getLsbD _ (State.readFlags_underrun hn bad)⟩
  · split
    · rename_i hbad
      obtain ⟨hstrict, rfl⟩ := hbad
      have hrint : i.opcode = .rint := by
        by_contra hne
        cases hop hne
      exact .inr ⟨.badnum, _, rfl, hstrict, hrint, s.afterError_status_getLsbD _ (s.readFlags_badnum n)⟩
    · exact .inl ⟨_, rfl, rfl⟩

/-- How a command ends, said once for all 23. -/
theorem exec_okOrFails {i : Instr} {s t : State} (ht : exec i s = .next t) : AnswersOkOrFails i s t := by
  have h := exec_next_wf ht
  cases execForm i with
  | write b clamped hi hop heq =>
    cases (heq s h).symm.trans ht
    exact State.afterWrite_okOrFails hi hop s b
  | read n bad a hi hop heq =>
    cases (heq s h).symm.trans ht
    exact State.afterRead_okOrFails hi (fun hne => hop hne _) s _ _ _ _
  | size heq | clr heq | getst heq | setmode _ heq | clrst _ heq =>
    cases (heq s h).symm.trans ht
    exact .inl ⟨_, rfl, rfl⟩

/-- How a command ends, by the code of its response. -/
theorem Responds.ok_or_error {i : Instr} {s t : State} {r : Response} (h : Responds i s t r) :
    r.code = .ok ∨ ErrorCause i s t r.code ∧ ∃ flags, t = s.afterError r.code flags := by
  obtain ⟨hexec, hresp⟩ := h
  obtain ⟨r', hresp', hok⟩ | ⟨c, flags, he, hcause⟩ := exec_okOrFails hexec
  · have hr : r = r' := by simpa using hresp.symm.trans hresp'
    exact .inl (hr ▸ hok)
  · have hr : r = Response.errorOf c := by simpa [he] using hresp.symm
    exact .inr (hr ▸ ⟨hcause, flags, he⟩)

end Sys2Proof.Machine

namespace Sys2Proof.Proofs

open Sys2Proof.Machine

/-- Settles O47: an error response is `afterError`, which adds flags to STATUS and keeps the rest. -/
theorem errorsArePrecise : Obligations.ErrorsArePrecise := by
  intro i s t r h hcode
  obtain ⟨-, flags, he⟩ := h.ok_or_error.resolve_left hcode
  exact ⟨by rw [he]; rfl, by rw [he]; exact status_sticky s.status flags⟩

/-- Settles O48: the code of an error response has its row of R252, and OK is none of the five. -/
theorem errorCodesHaveTheirCauses : Obligations.ErrorCodesHaveTheirCauses := by
  intro i s t r h
  obtain hok | ⟨hcause, -⟩ := h.ok_or_error
  · simp [hok]
  · refine ⟨?_, ?_, ?_, ?_, ?_⟩
    all_goals
      intro hc
      rwa [hc] at hcause

/-- Settles O51: the command answers, and an error has no cause in lenient mode without a bound. -/
theorem lenientUnboundedBlockAnswersOk : Obligations.LenientUnboundedBlockAnswersOk := by
  intro i s hs hlenient hunbounded
  obtain ⟨t, ht⟩ := exec_answers i hs
  obtain ⟨-, r, hresp, -⟩ := exec_givesOneResponse ht
  have h : Responds i s t r := ⟨ht, hresp⟩
  refine ⟨t, r, h, h.ok_or_error.resolve_right ?_⟩
  rintro ⟨hcause, -⟩
  exact hcause.strict_or_bounded.elim (by simp [hlenient]) (fun hbounded => hbounded hunbounded)

end Sys2Proof.Proofs
end

section
/-! Reset and hazards (70_reset_and_hazards.md R281, R293): the commands that bring a block back to its reset values, and the bits
a write appends, which its operands alone determine. -/

namespace Sys2Proof.Machine

/-! ### Back to the reset values (R281) -/

/-- CLRST 0x1F clears all five flags (R232). -/
theorem clearFlags_all (status : Anomalies) : clearFlags status (argFlags 0x1F) = 0 := by
  have hmask : ~~~(argFlags 0x1F) = 0 := by decide
  rw [clearFlags, hmask]
  exact BitVec.and_zero

/-! ### How many bits a write appends -/

/-- The widest string is 65535 characters of 16 bits (R80, R200). -/
theorem stringBits_length_le {u : List Cell16} (h : u.length ≤ 65535) : (stringBits u).length ≤ 1048580 := by
  have hchars : (classify u).width * u.length ≤ 16 * 65535 := Nat.mul_le_mul (classify u).width_le h
  rw [stringBits_length]
  omega

/-- The widest compact integer is a fallback text of a sign and 19 digits (R174). -/
theorem intBits_length_le {v : Int} (hlo : -(2 ^ 63) ≤ v) (hhi : v < 2 ^ 63) : (intBits v).length ≤ 103 := by
  by_cases htext : v < 0 ∨ 4294967296 ≤ v
  · obtain ⟨hbig, hneg⟩ := decimalText_length hlo hhi
    rw [intBits_text_length hlo hhi htext]
    omega
  · unfold intBits
    split_ifs with h8 h16 h32
    · simp
    · simp
    · simp
    · omega

/-- A field of fixed width has at most 32 bits (R140). -/
theorem fieldBits_length_le {i : Instr} {b : List Bool} (h : fieldBits i = some b) : b.length ≤ 32 := by
  cases i with
  | wflag _ | wu4 _ | wu8 _ | wu16 _ | wu32 _ => cases h; simp
  | size | wbits _ _ | rbits _ | clr | rflag | ru4 | ru8 | ru16 | ru32 | wflt _ | rflt | wint _ | rint | wstr _ _ | rstr
  | getst | setmode _ | clrst _ => cases h

/-- Every write command the port can carry appends at most 1048580 bits, the length of the longest string. -/
theorem exists_writesBits_length_le {i : Instr} (hi : isWrite i = true) (hw : i.wellFormed = true) :
    ∃ (b : List Bool) (clamped : Bool), WritesBits i b clamped ∧ b.length ≤ 1048580 := by
  have field {i : Instr} {b : List Bool} (h : fieldBits i = some b) :
      ∃ (b : List Bool) (clamped : Bool), WritesBits i b clamped ∧ b.length ≤ 1048580 :=
    ⟨b, false, writesBits_of_fieldBits h, (fieldBits_length_le h).trans (by decide)⟩
  cases i with
  | wbits cnt pay =>
    refine ⟨_, _, fun s h => exec_wbits_eq h cnt pay, ?_⟩
    calc ((unwords pay).take (clampedCount pay cnt.toNat)).length
      _ ≤ clampedCount pay cnt.toNat := List.length_take_le _ _
      _ ≤ cnt.toNat := Nat.min_le_left _ _
      _ ≤ 1048580 := by omega
  | wflag _ | wu4 _ | wu8 _ | wu16 _ | wu32 _ => exact field rfl
  | wflt arg => exact ⟨_, false, writesBits_wflt arg, by simp⟩
  | wint arg =>
    exact ⟨_, false, writesBits_wint arg, (intBits_length_le arg.le_toInt arg.toInt_lt).trans (by decide)⟩
  | wstr fold pay =>
    have hlen : (foldText fold pay).length ≤ 65535 := foldText_length fold pay ▸ (payloadFits_iff pay).mp hw
    exact ⟨_, false, writesBits_wstr fold pay, stringBits_length_le hlen⟩
  | size | rbits _ | clr | rflag | ru4 | ru8 | ru16 | ru32 | rflt | rint | rstr | getst | setmode _ | clrst _ => cases hi

/-! ### What an OK write has done -/

/-- A write ends in an error response, whose code is not OK, or commits its bits and answers their number (R253). -/
theorem State.afterWrite_error_or_ok (s : State) (b : List Bool) (clamped : Bool) :
    (∃ c flags, c ≠ .ok ∧ s.afterWrite b clamped = s.afterError c flags) ∨
      ∃ flags, s.afterWrite b clamped = s.afterOk (s.stream.appendBits b) flags (BitVec.ofNat 64 b.length) 0 [] := by
  unfold State.afterWrite
  split
  · exact .inl ⟨.overflow, _, by decide, rfl⟩
  · split
    · exact .inl ⟨.overrun, _, by decide, rfl⟩
    · exact .inr ⟨_, rfl⟩

/-- A write that answers OK has committed its bits, and VAL is their number (R113 L1, R253). -/
theorem WritesBits.of_ok {i : Instr} {b : List Bool} {clamped : Bool} (hi : WritesBits i b clamped) {s t : State}
    {r : Response} (h : Responds i s t r) (hok : r.code = .ok) :
    t.stream = s.stream.appendBits b ∧ r.val = BitVec.ofNat 64 b.length := by
  obtain ⟨hexec, hresp⟩ := h
  cases (hi s (exec_next_wf hexec)).symm.trans hexec
  obtain ⟨c, flags, hc, he⟩ | ⟨flags, he⟩ := State.afterWrite_error_or_ok s b clamped
  · have hr : Response.errorOf c = r := by simpa [he] using hresp
    subst hr
    exact absurd hok hc
  · have hr : Response.okOf ⟨BitVec.ofNat 64 b.length, 0, []⟩ = r := by simpa [he] using hresp
    subst hr
    exact ⟨by rw [he, State.afterOk_stream], rfl⟩

end Sys2Proof.Machine

namespace Sys2Proof.Proofs

open Sys2Proof.Machine

/-- Settles O43: each of the three commands answers OK, and between them they reset the stream, CTRL and STATUS. -/
theorem clrSetmodeClrstAmountToReset : Obligations.ClrSetmodeClrstAmountToReset := by
  intro s h
  obtain ⟨-, setmode_eq⟩ := setmodeWritesStrict
  obtain ⟨-, clrst_eq⟩ := clrstClearsTheChosenFlags
  have hclr := exec_clr_eq h
  have hsetmode := setmode_eq 0 _ (exec_keeps_wf hclr)
  have hclrst := clrst_eq 0x1F _ (exec_keeps_wf hsetmode)
  exact ⟨fun rest hp => ⟨_, step_reset hp, rfl, rfl, rfl⟩,
    _, _, _, hclr, rfl, rfl, BitVec.or_zero, hsetmode, hclrst, rfl, rfl, clearFlags_all _, rfl, rfl⟩

/-- Settles O57: the bits are fixed before the block is looked at, and an OK response says that they were appended. -/
theorem writesAppendTheSameBitsEverywhere : Obligations.WritesAppendTheSameBitsEverywhere := by
  intro i hi hw
  obtain ⟨b, clamped, hwrites, hlen⟩ := exists_writesBits_length_le hi hw
  refine ⟨b, fun s t r h hok => ?_⟩
  obtain ⟨hstream, hval⟩ := hwrites.of_ok h hok
  obtain ⟨hexec, -⟩ := h
  obtain ⟨hs, -, -⟩ := exec_next_wf hexec
  rw [hstream, hval]
  exact ⟨Stream.appendBits_bits hs b, Nat.mod_eq_of_lt (by omega), Stream.appendBits_size hs b⟩

end Sys2Proof.Proofs
end
